-- ==== Sys2Proof/Word.lean ====
section
/-! DEFINITION. The bit-vector types of the block (00_scope.md rules R10, R11). -/

namespace Sys2Proof

/-- A command word, a register value or a packed font-table entry: 32 bits, bit 0 least significant (R80, R11). -/
abbrev Word := BitVec 32

/-- A framebuffer or glyph bitmap byte; bit 7 is its leftmost pixel (R11, R51, R57). -/
abbrev Byte := BitVec 8

/-- One half of a point word, read as a signed 16-bit value (R82). -/
abbrev Half := BitVec 16

/-- A codepoint field of 21 bits (R83). -/
abbrev Codepoint := BitVec 21

/-- The font slot field F of a header (R81). -/
abbrev FontSlot := BitVec 4

/-- A colour operand or pixel value: `true` is 1 (sets, set), `false` is 0 (clears, clear) (R13, R51). -/
abbrev Colour := Bool

end Sys2Proof
end

