-- ==== Sys2Proof/Syntax.lean ====
section
/-! DEFINITION. The commands: one constructor per row of spec/opcode_table.json (30_encoding.md rule R84), operands
named and ordered as in the assembler syntax of rule R91. -/

namespace Sys2Proof

/-- A command with its operands. Coordinates, radii and offsets are the 16-bit fields of the point words; the meanings
read them as signed (R82, R86). Must-be-zero fields are no operands (R87). -/
inductive Instr where
  /-- NOP (R213). -/
  | nop
  /-- END (R211). -/
  | endRun
  /-- CLEAR c (R115). -/
  | clear (c : Colour)
  /-- SETPIX x, y, c (R116). -/
  | setpix (x y : Half) (c : Colour)
  /-- GETPIX x, y (R118). -/
  | getpix (x y : Half)
  /-- HSPAN x0, x1, y, c (R131). -/
  | hspan (x0 x1 y : Half) (c : Colour)
  /-- VSPAN x, y0, y1, c (R134). -/
  | vspan (x y0 y1 : Half) (c : Colour)
  /-- LINE x0, y0, x1, y1, c (R142). -/
  | line (x0 y0 x1 y1 : Half) (c : Colour)
  /-- RECT x0, y0, x1, y1, c (R147). -/
  | rect (x0 y0 x1 y1 : Half) (c : Colour)
  /-- FRECT x0, y0, x1, y1, c (R149). -/
  | frect (x0 y0 x1 y1 : Half) (c : Colour)
  /-- CIRCLE cx, cy, r, c (R154). -/
  | circle (cx cy r : Half) (c : Colour)
  /-- FCIRCLE cx, cy, r, c (R156). -/
  | fcircle (cx cy r : Half) (c : Colour)
  /-- GLYPH cp, x, y, c, f (R195). -/
  | glyph (cp : Codepoint) (x y : Half) (c : Colour) (f : FontSlot)
  /-- TEXT [cp_0, ..., cp_(n-1)], x, y, c, f, xo, yo (R200). -/
  | text (cps : List Codepoint) (x y : Half) (c : Colour) (f : FontSlot) (xo yo : Half)
  /-- GWIDTH f, cp (R180). -/
  | gwidth (f : FontSlot) (cp : Codepoint)
  /-- FHEIGHT f (R182). -/
  | fheight (f : FontSlot)
deriving DecidableEq, Repr

end Sys2Proof
end

