-- ==== Sys2Proof/WellFormed.lean ====
section
/-! DEFINITION. Which terms of `Instr` an encoding exists for. Every operand but TEXT's list has the width of its field
by type; TEXT's count must fit the 16-bit field N (30_encoding.md rules R81, R84). -/

namespace Sys2Proof

/-- The largest value of the header field N (R81, R85). -/
def maxCodepoints : Nat := 65535

/-- An instruction that some command words encode. -/
def Instr.wellFormed : Instr → Bool
  | .nop => true
  | .endRun => true
  | .clear _ => true
  | .setpix _ _ _ => true
  | .getpix _ _ => true
  | .hspan _ _ _ _ => true
  | .vspan _ _ _ _ => true
  | .line _ _ _ _ _ => true
  | .rect _ _ _ _ _ => true
  | .frect _ _ _ _ _ => true
  | .circle _ _ _ _ => true
  | .fcircle _ _ _ _ => true
  | .glyph _ _ _ _ _ => true
  | .text cps _ _ _ _ _ _ => decide (cps.length ≤ maxCodepoints)
  | .gwidth _ _ => true
  | .fheight _ => true

end Sys2Proof
end

