-- ==== Sys2Proof/Decode.lean ====
section
/-! DEFINITION. The decoder of 30_encoding.md (rules R80 to R90), total on every list of words and rejecting by name,
and after it the encoder of rule R91. -/

namespace Sys2Proof

/-! ### Fields (R81, R82, R83, R86) -/

/-- OPC, header bits [7:0]. -/
def hdrOpc (h : Word) : BitVec 8 := h.extractLsb' 0 8
/-- C, header bit [8]. -/
def hdrC (h : Word) : Colour := h.getLsbD 8
/-- RSV, header bits [11:9]. -/
def hdrRsv (h : Word) : BitVec 3 := h.extractLsb' 9 3
/-- F, header bits [15:12]. -/
def hdrF (h : Word) : FontSlot := h.extractLsb' 12 4
/-- N, header bits [31:16]. -/
def hdrN (h : Word) : BitVec 16 := h.extractLsb' 16 16
/-- A, bits [15:0] of a point word. -/
def ptA (w : Word) : Half := w.extractLsb' 0 16
/-- B, bits [31:16] of a point word. -/
def ptB (w : Word) : Half := w.extractLsb' 16 16
/-- CPT, bits [20:0] of a codepoint word. -/
def cpCpt (w : Word) : Codepoint := w.extractLsb' 0 21
/-- RSV, bits [31:21] of a codepoint word. -/
def cpRsv (w : Word) : BitVec 11 := w.extractLsb' 21 11

/-! ### The opcode map (R84) -/

/-- The sixteen defined opcodes. -/
inductive Op where
  | nop | endRun | clear | setpix | getpix | hspan | vspan | line | rect | frect | circle | fcircle | glyph | text
  | gwidth | fheight
deriving DecidableEq, Repr

/-- The OPC column of R84. -/
def Op.code : Op → BitVec 8
  | .nop => 0x00 | .endRun => 0x01 | .clear => 0x02 | .setpix => 0x03
  | .getpix => 0x04 | .hspan => 0x05 | .vspan => 0x06 | .line => 0x07
  | .rect => 0x08 | .frect => 0x09 | .circle => 0x0A | .fcircle => 0x0B
  | .glyph => 0x0C | .text => 0x0D | .gwidth => 0x0E | .fheight => 0x0F

/-- The opcode an OPC value names; `none` for 0x10 to 0xFF (R88). -/
def opOf (opc : BitVec 8) : Option Op :=
  match opc.toNat with
  | 0x00 => some .nop | 0x01 => some .endRun | 0x02 => some .clear | 0x03 => some .setpix
  | 0x04 => some .getpix | 0x05 => some .hspan | 0x06 => some .vspan | 0x07 => some .line
  | 0x08 => some .rect | 0x09 => some .frect | 0x0A => some .circle | 0x0B => some .fcircle
  | 0x0C => some .glyph | 0x0D => some .text | 0x0E => some .gwidth | 0x0F => some .fheight
  | _ => none

/-- The length in words of the command with header `h` and opcode `op`: the len column of R84, and 3 + N for TEXT
(R85). -/
def Op.len (op : Op) (h : Word) : Nat :=
  match op with
  | .nop => 1 | .endRun => 1 | .clear => 1 | .setpix => 2
  | .getpix => 2 | .hspan => 3 | .vspan => 3 | .line => 3
  | .rect => 3 | .frect => 3 | .circle => 3 | .fcircle => 3
  | .glyph => 3 | .text => 3 + (hdrN h).toNat | .gwidth => 2 | .fheight => 1

/-- `Len(H)` of R85; `none` where it is undefined (an illegal opcode). -/
def commandLen (h : Word) : Option Nat := (opOf (hdrOpc h)).map (fun op => op.len h)

/-- The C column of R84: does the command have a colour operand? -/
def Op.hasC : Op → Bool
  | .nop => false | .endRun => false | .clear => true | .setpix => true
  | .getpix => false | .hspan => true | .vspan => true | .line => true
  | .rect => true | .frect => true | .circle => true | .fcircle => true
  | .glyph => true | .text => true | .gwidth => false | .fheight => false

/-- The F column of R84: does the command have a font operand? -/
def Op.hasF : Op → Bool
  | .glyph => true | .text => true | .gwidth => true | .fheight => true
  | .nop => false | .endRun => false | .clear => false | .setpix => false
  | .getpix => false | .hspan => false | .vspan => false | .line => false
  | .rect => false | .frect => false | .circle => false | .fcircle => false

/-- The N column of R84: does the command have a codepoint count? -/
def Op.hasN : Op → Bool
  | .text => true
  | .nop => false | .endRun => false | .clear => false | .setpix => false
  | .getpix => false | .hspan => false | .vspan => false | .line => false
  | .rect => false | .frect => false | .circle => false | .fcircle => false
  | .glyph => false | .gwidth => false | .fheight => false

/-- Word `k` of a command's argument words, counted as in R86 (`argWord args 1` is W1). -/
def argWord (args : List Word) (k : Nat) : Word := args.getD (k - 1) 0

/-! ### Must-be-zero fields (R87) -/

/-- Some must-be-zero field of the header is non-zero. -/
def headerReserved (op : Op) (h : Word) : Bool :=
  hdrRsv h != 0 || (!op.hasC && hdrC h) || (!op.hasF && hdrF h != 0) || (!op.hasN && hdrN h != 0)

/-- Some must-be-zero field of the argument words `args` (exactly the command's) is non-zero. -/
def argsReserved (op : Op) (args : List Word) : Bool :=
  match op with
  | .hspan | .circle | .fcircle => ptB (argWord args 2) != 0
  | .vspan => ptA (argWord args 2) != 0
  | .glyph => cpRsv (argWord args 2) != 0
  | .gwidth => cpRsv (argWord args 1) != 0
  | .text => (args.drop 2).any (fun u => cpRsv u != 0)
  | .nop | .endRun | .clear | .setpix | .getpix | .line | .rect | .frect | .fheight => false

/-! ### Operand assembly (R84, R86) -/

/-- The instruction that opcode `op`, header `h` and argument words `args` stand for. -/
def assemble (op : Op) (h : Word) (args : List Word) : Instr :=
  let w1 := argWord args 1
  let w2 := argWord args 2
  match op with
  | .nop => .nop
  | .endRun => .endRun
  | .clear => .clear (hdrC h)
  | .setpix => .setpix (ptA w1) (ptB w1) (hdrC h)
  | .getpix => .getpix (ptA w1) (ptB w1)
  | .hspan => .hspan (ptA w1) (ptA w2) (ptB w1) (hdrC h)
  | .vspan => .vspan (ptA w1) (ptB w1) (ptB w2) (hdrC h)
  | .line => .line (ptA w1) (ptB w1) (ptA w2) (ptB w2) (hdrC h)
  | .rect => .rect (ptA w1) (ptB w1) (ptA w2) (ptB w2) (hdrC h)
  | .frect => .frect (ptA w1) (ptB w1) (ptA w2) (ptB w2) (hdrC h)
  | .circle => .circle (ptA w1) (ptB w1) (ptA w2) (hdrC h)
  | .fcircle => .fcircle (ptA w1) (ptB w1) (ptA w2) (hdrC h)
  | .glyph => .glyph (cpCpt w2) (ptA w1) (ptB w1) (hdrC h) (hdrF h)
  | .text => .text ((args.drop 2).map cpCpt) (ptA w1) (ptB w1) (hdrC h) (hdrF h) (ptA w2) (ptB w2)
  | .gwidth => .gwidth (hdrF h) (cpCpt w1)
  | .fheight => .fheight (hdrF h)

/-! ### The decoding procedure (R90) -/

/-- Why a list of words is no command; the checks are taken in the order of R90. -/
inductive DecodeError where
  /-- No header word, or fewer words than the header's length: ERR_OVERRUN (R221). -/
  | overrun
  /-- OPC in 0x10..0xFF: ERR_ILLEGAL (R88). -/
  | illegal
  /-- A must-be-zero field is non-zero: ERR_RESERVED (R87). -/
  | reserved
deriving DecidableEq, Repr

/-- `Decode` of R90 on the words that CRAM holds from the command pointer on, of which it reads the first `len`. -/
def decode : List Word → Except DecodeError Instr
  | [] => .error .overrun
  | h :: rest =>
    match opOf (hdrOpc h) with
    | none => .error .illegal
    | some op =>
      if rest.length + 1 < op.len h then .error .overrun
      else
        let args := rest.take (op.len h - 1)
        if headerReserved op h || argsReserved op args then .error .reserved
        else .ok (assemble op h args)

/-- The host's table question: the `nbits` low bits of `w`, cut into words with the first word lowest, and all further
argument words of the command zero. -/
def tableWords (nbits w : Nat) : List Word :=
  let given := (List.range ((nbits + 31) / 32)).map (fun k => BitVec.ofNat 32 ((w % 2 ^ nbits) >>> (32 * k)))
  given ++ List.replicate ((commandLen (given.headD 0)).getD 0 - given.length) 0

/-- The instruction the decoder reads from the bits `w` of a row of spec/opcode_table.json. -/
def decodeTableWord (nbits w : Nat) : Option Instr :=
  match decode (tableWords nbits w) with
  | .ok i => some i
  | .error _ => none

/-! ### The encoder (R84, R91) -/

/-- Header word: `OPC | c<<8 | f<<12 | n<<16` (R81, R91). -/
def header (op : Op) (c : Colour) (f : FontSlot) (n : BitVec 16) : Word :=
  op.code.setWidth 32 ||| (BitVec.ofBool c).setWidth 32 <<< 8 ||| f.setWidth 32 <<< 12 ||| n.setWidth 32 <<< 16

/-- Point word P(a, b) (R82). -/
def pointWord (a b : Half) : Word := a.setWidth 32 ||| b.setWidth 32 <<< 16

/-- Codepoint word U(cp) (R83). -/
def codepointWord (cp : Codepoint) : Word := cp.setWidth 32

/-- The words of a command (R84, R91). -/
def encode : Instr → List Word
  | .nop => [header .nop false 0 0]
  | .endRun => [header .endRun false 0 0]
  | .clear c => [header .clear c 0 0]
  | .setpix x y c => [header .setpix c 0 0, pointWord x y]
  | .getpix x y => [header .getpix false 0 0, pointWord x y]
  | .hspan x0 x1 y c => [header .hspan c 0 0, pointWord x0 y, pointWord x1 0]
  | .vspan x y0 y1 c => [header .vspan c 0 0, pointWord x y0, pointWord 0 y1]
  | .line x0 y0 x1 y1 c => [header .line c 0 0, pointWord x0 y0, pointWord x1 y1]
  | .rect x0 y0 x1 y1 c => [header .rect c 0 0, pointWord x0 y0, pointWord x1 y1]
  | .frect x0 y0 x1 y1 c => [header .frect c 0 0, pointWord x0 y0, pointWord x1 y1]
  | .circle cx cy r c => [header .circle c 0 0, pointWord cx cy, pointWord r 0]
  | .fcircle cx cy r c => [header .fcircle c 0 0, pointWord cx cy, pointWord r 0]
  | .glyph cp x y c f => [header .glyph c f 0, pointWord x y, codepointWord cp]
  | .text cps x y c f xo yo =>
    header .text c f (BitVec.ofNat 16 cps.length) :: pointWord x y :: pointWord xo yo :: cps.map codepointWord
  | .gwidth f cp => [header .gwidth false f 0, codepointWord cp]
  | .fheight f => [header .fheight false f 0]

end Sys2Proof
end

