-- ==== Sys2Proof/Config.lean ====
section
/-! DEFINITION. The build-time configuration (00_scope.md rules R7 to R9, 43_font_store.md rule R170) and the
free values the spec leaves open (93_implementation_defined.md U8, U9, U10). -/

namespace Sys2Proof

/-- A font record (R170). The ranges of the Nat fields are checked by `Font.wellFormed`, not by the type, so that an
ill-formed font can be written down and refused. -/
structure Font where
  /-- First codepoint of the inclusive range, 0..0x1FFFFF. -/
  unicodeFirst : Nat
  /-- Last codepoint of the inclusive range, 0..0x1FFFFF. -/
  unicodeLast : Nat
  /-- Uniform glyph height, 0..255. -/
  heightPx : Nat
  /-- Bits per pixel: 1, 2 or 4. -/
  bitsPerPixel : Nat
  /-- 0 for variable width, else the width of every glyph, 0..255. -/
  monospaceWidth : Nat
  /-- Number of glyphs, 0..65535. -/
  glyphCount : Nat
  /-- The packed glyph entries (R174). -/
  glyphTable : List Word
  /-- The glyph rows, one byte blob. -/
  bitmap : List Byte
  /-- `none` for a range font, else the packed map entries of a sparse font (R171, R175). -/
  unicodeMap : Option (List Word)
deriving DecidableEq, Repr

/-- The visual meaning of a set bit (R8, D36). No rule reads it. -/
inductive Polarity where
  | setIsBlack
  | setIsWhite
deriving DecidableEq, Repr

/-- A configuration: the parameters of R8. STRIDE and FBSIZE are derived (`Config.stride`, `Config.fbSize`), N_FONTS is
the length of `fonts`, and a slot is `none` where it is `empty`. -/
structure Config where
  /-- W, framebuffer width in pixels. -/
  width : Nat
  /-- H, framebuffer height in pixels. -/
  height : Nat
  /-- N_CRAM, command RAM size in words. -/
  nCram : Nat
  /-- FONT[0..N_FONTS-1]. -/
  fonts : List (Option Font)
  /-- POLARITY; outside the block, read by no rule (log entry 17). -/
  polarity : Polarity
deriving DecidableEq, Repr

/-! ### Free values: constants without a body, so that nothing can be proved of a value of theirs. -/

/-- The content of framebuffer byte `a` after the `epoch`-th reset, until a command writes it (R41, R251, U8): a free
draw. -/
opaque Config.freeFbByte (epoch a : Nat) : Byte

/-- The content of command RAM word `i` after the `epoch`-th reset, until the host writes it (R41, R251, U9): a free
draw. -/
opaque Config.freeCramWord (epoch i : Nat) : Word

/-- One byte lane of a host read of the FB aperture while BUSY = 1 (R67, U10): the `draw`-th free draw. -/
opaque Config.freeBusByte (draw : Nat) : Byte

/-- A host read of CP or RESULT while BUSY = 1 (R37, U10): the `draw`-th free draw. -/
opaque Config.freeBusWord (draw : Nat) : Word

/-! ### The reference configuration (R9) with the fonts of 95_test_vectors.md section 2, as section 3.12 of that file
states it. N_FONTS, FONT and POLARITY are OPEN in R8: taking these is a DESIGN CHOICE (log entry 1). -/

/-- Font T0 of 95_test_vectors.md: range font, variable width, 1 bit per pixel. -/
def Font.t0 : Font where
  unicodeFirst := 0x41
  unicodeLast := 0x43
  heightPx := 4
  bitsPerPixel := 1
  monospaceWidth := 0
  glyphCount := 3
  glyphTable := [0x00000005, 0x00000403, 0x0000080A]
  bitmap := [0x70, 0x88, 0xF8, 0x88, 0xC0, 0xA0, 0xC0, 0xE1, 0x7F, 0xC0, 0x80, 0x00, 0x80, 0x00, 0x7F, 0xC0]
  unicodeMap := none

/-- Font T1 of 95_test_vectors.md: sparse font, monospace 4, 1 bit per pixel. -/
def Font.t1 : Font where
  unicodeFirst := 0x41
  unicodeLast := 0x20AC
  heightPx := 2
  bitsPerPixel := 1
  monospaceWidth := 4
  glyphCount := 2
  glyphTable := [0x00000002, 0x00000207]
  bitmap := [0xF0, 0x90, 0x60, 0x60]
  unicodeMap := some [0x002020AC, 0x00000041]

/-- Font T2 of 95_test_vectors.md: T0 with 2 bits per pixel. -/
def Font.t2 : Font := { Font.t0 with bitsPerPixel := 2 }

/-- The reference configuration: W = 400, H = 300, N_CRAM = 4096 (R9), fonts T0, T1, T2 and an empty slot. -/
def Config.reference : Config where
  width := 400
  height := 300
  nCram := 4096
  fonts := [some Font.t0, some Font.t1, some Font.t2, none]
  polarity := .setIsBlack

end Sys2Proof
end

