-- ==== Sys2Proof/Machine/Operands.lean ====
section
/-! DEFINITION. Operand values and the point sets of the drawing commands (41_span_filler.md rule R130,
42_primitives.md rules R140 to R152), as finite unions of dots and runs. -/

namespace Sys2Proof.Machine

/-- A coordinate, radius or offset operand: the signed value of its half-word (R82, R86), then a mathematical integer
(R10). -/
def coord (h : Half) : Int := h.toInt

/-- `v = a .. b` of R12: a, a+1, ..., b, nothing when a > b. -/
def intRange (a b : Int) : List Int := (List.range (b - a + 1).toNat).map (fun (k : Nat) => a + (k : Int))

/-- A part of a point set: one point, or a horizontal or vertical run given by its two ends in any order. -/
inductive Piece where
  /-- The point (x, y). -/
  | dot (x y : Int)
  /-- HSpanSet(x0, x1, y) of R130. -/
  | hrun (x0 x1 y : Int)
  /-- VSpanSet(x, y0, y1) of R130. -/
  | vrun (x y0 y1 : Int)
deriving DecidableEq, Repr

/-- A finite point set: the union of its pieces. -/
abbrev PointSet := List Piece

/-- Is (x, y) a point of the piece (R130)? -/
def Piece.has (x y : Int) : Piece → Bool
  | .dot px py => decide (x = px ∧ y = py)
  | .hrun x0 x1 py => decide (y = py ∧ min x0 x1 ≤ x ∧ x ≤ max x0 x1)
  | .vrun px y0 y1 => decide (x = px ∧ min y0 y1 ≤ y ∧ y ≤ max y0 y1)

/-- Is (x, y) a point of the set? -/
def PointSet.has (S : PointSet) (x y : Int) : Bool := S.any (Piece.has x y)

/-! ### Lines (42_primitives.md rules R140, R141) -/

/-- The shared walk of R141 in (primary, secondary) coordinates: `n` more points from (`p`, `q`) with decision term
`d`, where `dp` and `dq` are the absolute differences and `qi` the secondary step. -/
def walk (dp dq qi : Int) : Nat → Int → Int → Int → List (Int × Int)
  | 0, _, _, _ => []
  | n + 1, p, q, d =>
    (p, q) ::
      (if d > 0 then walk dp dq qi n (p + 1) (q + qi) (d + 2 * (dq - dp))
       else walk dp dq qi n (p + 1) q (d + 2 * dq))

/-- LowWalk and HighWalk of R141 from (p0, q0) to (p1, q1), primary coordinate first; used with p0 < p1. -/
def walkFrom (p0 q0 p1 q1 : Int) : List (Int × Int) :=
  let dp := p1 - p0
  let dq := q1 - q0
  let n := (p1 - p0 + 1).toNat
  if dq < 0 then walk dp (-dq) (-1) n p0 q0 (2 * (-dq) - dp)
  else walk dp dq 1 n p0 q0 (2 * dq - dp)

/-- LowWalk (R141): x is primary. -/
def lowWalk (x0 y0 x1 y1 : Int) : PointSet := (walkFrom x0 y0 x1 y1).map (fun p => .dot p.1 p.2)

/-- HighWalk (R141): y is primary. -/
def highWalk (x0 y0 x1 y1 : Int) : PointSet := (walkFrom y0 x0 y1 x1).map (fun p => .dot p.2 p.1)

/-- LineSet (R140): dispatch by the dominant axis, equality going to the high-slope path. -/
def lineSet (x0 y0 x1 y1 : Int) : PointSet :=
  let dx := x1 - x0
  let dy := y1 - y0
  if dy.natAbs < dx.natAbs then
    if dy = 0 then [.hrun x0 x1 y0]
    else if x0 > x1 then lowWalk x1 y1 x0 y0
    else lowWalk x0 y0 x1 y1
  else
    if dx = 0 then [.vrun x0 y0 y1]
    else if y0 > y1 then highWalk x1 y1 x0 y0
    else highWalk x0 y0 x1 y1

/-! ### Rectangles (42_primitives.md rules R145, R146) -/

/-- RectSet (R145). -/
def rectSet (x0 y0 x1 y1 : Int) : PointSet :=
  [.hrun x0 x1 y0, .hrun x0 x1 y1, .vrun x0 y0 y1, .vrun x1 y0 y1]

/-- FRectSet (R146). -/
def frectSet (x0 y0 x1 y1 : Int) : PointSet :=
  (intRange (min y0 y1) (max y0 y1)).map (fun y => .hrun x0 x1 y)

/-! ### Circles (42_primitives.md rules R150 to R152) -/

/-- The loop of CircleSteps (R150) from (x, y) with decision variable `d`. `fuel` bounds the number of turns: each turn
raises x - y by at least 1, so y - x + 1 turns are enough (`circleSteps` gives them). -/
def circleLoop : Nat → Int → Int → Int → List (Int × Int)
  | 0, _, _, _ => []
  | fuel + 1, x, y, d =>
    if y ≥ x then
      (x, y) ::
        (if d > 0 then circleLoop fuel (x + 1) (y - 1) (d + 4 * (x - y) + 10)
         else circleLoop fuel (x + 1) y (d + 4 * x + 6))
    else []

/-- CircleSteps(r) (R150): the octant offsets. -/
def circleSteps (r : Int) : List (Int × Int) := circleLoop (r + 1).toNat 0 r (3 - 2 * r)

/-- Plot8 (R151). -/
def plot8 (cx cy x y : Int) : PointSet :=
  [.dot (cx + x) (cy + y), .dot (cx - x) (cy + y), .dot (cx + x) (cy - y), .dot (cx - x) (cy - y),
   .dot (cx + y) (cy + x), .dot (cx - y) (cy + x), .dot (cx + y) (cy - x), .dot (cx - y) (cy - x)]

/-- CircleSet (R151). -/
def circleSet (cx cy r : Int) : PointSet := (circleSteps r).flatMap (fun p => plot8 cx cy p.1 p.2)

/-- Span4 (R152). -/
def span4 (cx cy x y : Int) : PointSet :=
  [.hrun (cx - x) (cx + x) (cy + y), .hrun (cx - x) (cx + x) (cy - y),
   .hrun (cx - y) (cx + y) (cy + x), .hrun (cx - y) (cx + y) (cy - x)]

/-- FCircleSet (R152). -/
def fcircleSet (cx cy r : Int) : PointSet := (circleSteps r).flatMap (fun p => span4 cx cy p.1 p.2)

end Sys2Proof.Machine
end

