-- ==== Sys2Proof/Machine/State.lean ====
section
/-! DEFINITION. The machine's state (10_state.md rules R20 to R42), its outcomes' reasons, and the state after reset. -/

namespace Sys2Proof.Machine

/-- STATUS.ERRCODE (60_exceptions.md rule R220). Codes 0x06 to 0xFF are never produced, so the register is taken as a
type of six values (10_state.md rule R31, 93_implementation_defined.md U16, log entry 8). -/
inductive ErrorCode where
  /-- 0x00: no error since the last START or reset. -/
  | noError
  /-- 0x01 ERR_ILLEGAL: header OPC in 0x10..0xFF. -/
  | illegal
  /-- 0x02 ERR_RESERVED: a must-be-zero field is non-zero. -/
  | reserved
  /-- 0x03 ERR_OVERRUN: the header index or the command's last word is outside CRAM. -/
  | overrun
  /-- 0x04 ERR_NO_FONT: the font slot is out of range or empty. -/
  | noFont
  /-- 0x05 ERR_FONT_BPP: the font to render has 2 or 4 bits per pixel. -/
  | fontBpp
deriving DecidableEq, Repr

/-- The width of a host access (20_memory.md rule R61). -/
inductive AccessWidth where
  | byte
  | half
  | word
deriving DecidableEq, Repr

/-- One host access: an 18-bit byte address relative to the block's base, a width and, for a write, the data lanes
(20_memory.md rule R61). -/
inductive Access where
  | read (addr : BitVec 18) (width : AccessWidth)
  | write (addr : BitVec 18) (width : AccessWidth) (data : Word)
deriving DecidableEq, Repr

/-- The block's response to a host access (20_memory.md rules R61, R63): the data of a read in the width asked for, the
acceptance of a write, or a bus error. -/
inductive BusReply where
  | byte (v : Byte)
  | half (v : BitVec 16)
  | word (v : Word)
  | written
  | busError
deriving DecidableEq, Repr

/-- Who moves in a step that something outside the engine decides (00_scope.md rule R16, 20_memory.md rule R70,
70_reset_and_hazards.md rule R252; log entry 4). -/
inductive Turn where
  /-- The host's access takes effect. -/
  | host (a : Access)
  /-- The engine executes one command, if a run is in progress. -/
  | engine
  /-- The platform applies the reset input. -/
  | reset
deriving DecidableEq, Repr

/-- The state. Every field but the last four and `cfg` is the spec's (10_state.md rule R20); ID, HWCFG, PARAM and irq are
functions of these (rules R22, R23, R35, R38). -/
structure State where
  /-- The configuration: a constant (R7, R20); no step changes it (log entry 1). -/
  cfg : Config
  /-- FB (R50): the bytes that hold a known value, addresses strictly rising. A byte not listed holds its draw of the
  last reset (R41; log entry 2). -/
  fb : List Host.Cell
  /-- CRAM (R58): the words that hold a known value, indices strictly rising; a word not listed holds its draw of the
  last reset (R41; log entry 3). -/
  cram : List (Nat × Word)
  /-- CTRL.IE (R26). -/
  ie : Bool
  /-- STATUS.BUSY (R28). -/
  busy : Bool
  /-- STATUS.DONE (R29). -/
  done : Bool
  /-- STATUS.ERR (R30). -/
  err : Bool
  /-- STATUS.ERRCODE (R31). -/
  errCode : ErrorCode
  /-- CP (R32), an unsigned word index into CRAM. -/
  cp : BitVec 16
  /-- RESULT (R34). -/
  result : Word
  /-- The model's own: the turns still to come, the first first (log entry 4). -/
  pending : List Turn
  /-- The model's own: the replies given to host accesses, the latest last (log entry 4). -/
  replies : List BusReply
  /-- The model's own: how many resets have happened, that is which draw of FB and CRAM contents holds (R251; log
  entry 5). -/
  epoch : Nat
  /-- The model's own: how many draws host reads have taken while BUSY = 1 (R37, R67; log entry 6). -/
  draws : Nat
deriving DecidableEq, Repr

/-- Reasons to stop with a fault: none. Every error of the block is taken as the error stop of 60_exceptions.md rule
R223, a next state, and a bus error is a reply to the host (20_memory.md rule R61). -/
inductive Fault where
deriving DecidableEq, Repr

/-- Reasons to give no meaning. -/
inductive Refusal where
  /-- Raised by an arm of `exec` whose instruction has no meaning yet (none has). Safe: nothing is claimed of it. -/
  | notModelled (mnemonic : String)
  /-- Raised by `step` alone, in a state whose configuration is illegal: "a model refuses such a configuration and never
  runs it" (60_exceptions.md rule R226). Safe: the spec gives such a machine no behaviour. -/
  | illegalConfiguration
deriving DecidableEq, Repr

/-- The machine of configuration `cfg` right after its first reset (10_state.md rule R41). -/
def State.resetWith (cfg : Config) : State where
  cfg := cfg
  fb := []
  cram := []
  ie := false
  busy := false
  done := false
  err := false
  errCode := .noError
  cp := 0
  result := 0
  pending := []
  replies := []
  epoch := 0
  draws := 0

/-- The reference machine right after its first reset (00_scope.md rule R9, 10_state.md rule R41; log entry 1). -/
def State.reset : State := State.resetWith Config.reference

end Sys2Proof.Machine
end

