-- ==== Sys2Proof/Machine/Ops.lean ====
section
/-! DEFINITION. The shared operations: sparse memories, the framebuffer and its pixels, CRAM, Paint, the advance of CP,
the error stop and the restart after it. -/

namespace Sys2Proof.Machine

/-! ### Sparse memories: lists of (address, value), addresses strictly rising. An address not listed holds no known
value; what it reads as is said once, in `State.fbByte` and `State.cramWord`. -/

/-- The known value at address `a`. -/
def cellsGet {α : Type} (a : Nat) : List (Nat × α) → Option α
  | [] => none
  | (b, v) :: rest => if b = a then some v else cellsGet a rest

/-- The memory with `v` stored at address `a`, in canonical form if it was. -/
def cellsSet {α : Type} (a : Nat) (v : α) : List (Nat × α) → List (Nat × α)
  | [] => [(a, v)]
  | (b, w) :: rest =>
    if a < b then (a, v) :: (b, w) :: rest
    else if a = b then (a, v) :: rest
    else (b, w) :: cellsSet a v rest

/-- The canonical form of a memory of `size` addresses: strictly rising, and none outside. An unlisted address holds no
known value, so no entry can equal what an unlisted address holds (log entry 2). -/
def cellsWf {α : Type} (size : Nat) (cells : List (Nat × α)) : Bool :=
  decide (cells.Pairwise (fun p q => p.1 < q.1)) && cells.all (fun p => decide (p.1 < size))

end Sys2Proof.Machine

namespace Sys2Proof

/-! ### Geometry of the surface (00_scope.md rule R8, 40_framebuffer.md rule R112, 20_memory.md rule R51) -/

/-- STRIDE = ceil(W/8) (R8). -/
def Config.stride (cfg : Config) : Nat := (cfg.width + 7) / 8

/-- FBSIZE = STRIDE*H (R8, R50). -/
def Config.fbSize (cfg : Config) : Nat := cfg.stride * cfg.height

/-- OnSurface(x, y) (R112). -/
def Config.onSurface (cfg : Config) (x y : Int) : Bool :=
  decide (0 ≤ x ∧ x < (cfg.width : Int) ∧ 0 ≤ y ∧ y < (cfg.height : Int))

/-- PixelByte(x, y) (R51), for an on-surface point. -/
def Config.pixelByte (cfg : Config) (x y : Int) : Nat := y.toNat * cfg.stride + x.toNat / 8

end Sys2Proof

namespace Sys2Proof.Machine

/-- The bit number of column x in its byte (R51), for an on-surface point: 7 - (x mod 8). -/
def pixelBit (x : Int) : Nat := 7 - x.toNat % 8

/-- PixelMask(x) = 0x80 >> (x mod 8) (R51), for an on-surface point. -/
def pixelMask (x : Int) : Byte := (0x80 : Byte) >>> (x.toNat % 8)

/-! ### The framebuffer -/

/-- MemRead(FB, i, 1) (R12): the byte last written, or the draw of the last reset (R41). -/
def State.fbByte (s : State) (i : Nat) : Byte := (cellsGet i s.fb).getD (Config.freeFbByte s.epoch i)

/-- MemWrite(FB, i, 1, v) (R12). -/
def State.setFbByte (s : State) (i : Nat) (v : Byte) : State := { s with fb := cellsSet i v s.fb }

/-- The byte read-modify-write of R113 and R132: the bits of `m` take the colour `c`, the others keep their value. -/
def maskByte (c : Colour) (m b : Byte) : Byte := if c then b ||| m else b &&& ~~~m

/-- Pixel(x, y) (R51), for an on-surface point. -/
def State.pixel (s : State) (x y : Int) : Colour := s.fbByte (s.cfg.pixelByte x y) &&& pixelMask x != 0

/-- SetPixel(x, y, c) (R113). -/
def setPixel (x y : Int) (c : Colour) (s : State) : State :=
  if s.cfg.onSurface x y then
    let i := s.cfg.pixelByte x y
    s.setFbByte i (maskByte c (pixelMask x) (s.fbByte i))
  else s

/-- The points of a piece that can be on the surface: runs are cut to 0..W-1 or 0..H-1 before they are enumerated. The
points left out are off-surface, where SetPixel does nothing (R113, R114, R130). -/
def Piece.clip (cfg : Config) : Piece → List (Int × Int)
  | .dot x y => [(x, y)]
  | .hrun x0 x1 y =>
    if 0 ≤ y ∧ y < (cfg.height : Int) then
      (intRange (max (min x0 x1) 0) (min (max x0 x1) ((cfg.width : Int) - 1))).map (fun x => (x, y))
    else []
  | .vrun x y0 y1 =>
    if 0 ≤ x ∧ x < (cfg.width : Int) then
      (intRange (max (min y0 y1) 0) (min (max y0 y1) ((cfg.height : Int) - 1))).map (fun y => (x, y))
    else []

/-- SetPixel of each point of a list in turn. -/
def paintPoints (c : Colour) : List (Int × Int) → State → State
  | [], s => s
  | p :: rest, s => paintPoints c rest (setPixel p.1 p.2 c s)

/-- Paint(S, c) (R114). -/
def paint (S : PointSet) (c : Colour) (s : State) : State :=
  paintPoints c (S.flatMap (Piece.clip s.cfg)) s

/-- The byte CLEAR writes (R115). -/
def clearByte (c : Colour) : Byte := if c then 0xFF else 0x00

/-- Every framebuffer byte set to `v` (R115). -/
def State.fillFb (s : State) (v : Byte) : State :=
  { s with fb := (List.range s.cfg.fbSize).map (fun i => (i, v)) }

/-! ### The command RAM -/

/-- CRAM[i] (R12): the word last written, or the draw of the last reset (R41). -/
def State.cramWord (s : State) (i : Nat) : Word := (cellsGet i s.cram).getD (Config.freeCramWord s.epoch i)

/-- CRAM[i] <- v, by the host (R65). -/
def State.setCramWord (s : State) (i : Nat) (v : Word) : State := { s with cram := cellsSet i v s.cram }

/-! ### Registers and sequencing -/

/-- RESULT <- v (R34), for a value computed as a mathematical integer: `sext_32`. -/
def State.setResult (s : State) (v : Int) : State := { s with result := BitVec.ofInt 32 v }

/-- `cp <- CP + len` (R212). In a legal configuration CP + len <= N_CRAM <= 16384 by the length check, so that the 16
bits never wrap (R33; log entry 12). -/
def State.advance (s : State) (len : Nat) : State := { s with cp := s.cp + BitVec.ofNat 16 len }

/-- `raise Error(code)`: the error stop (60_exceptions.md rule R223). CP keeps the index of the offending header. -/
def errorStop (code : ErrorCode) (s : State) : State := { s with errCode := code, err := true, busy := false }

/-- An accepted CTRL.START (10_state.md rule R25), which is also the only way on after an error stop: there is no return
command (60_exceptions.md rule R227). A START while BUSY = 1 is ignored. -/
def startRun (s : State) : State :=
  if s.busy then s else { s with done := false, err := false, errCode := .noError, busy := true }

end Sys2Proof.Machine
end

