-- ==== Sys2Proof/Machine/FontStore.lean ====
section
/-! DEFINITION. The font store (43_font_store.md): packed entries, well-formedness, lookup, glyph records, glyph bits and
the font checks (60_exceptions.md rule R222). -/

namespace Sys2Proof

/-! ### Packed entries (R174, R175) -/

/-- Width(e) = e[7:0]. -/
def entryWidth (e : Word) : Nat := (e.extractLsb' 0 8).toNat
/-- BitmapIndex(e) = e[31:8]. -/
def entryBitmapIndex (e : Word) : Nat := (e.extractLsb' 8 24).toNat
/-- Unicode(m) = m[20:0]. -/
def entryUnicode (m : Word) : Nat := (m.extractLsb' 0 21).toNat
/-- GlyphDscIndex(m) = m[31:21]. -/
def entryGlyphIndex (m : Word) : Nat := (m.extractLsb' 21 11).toNat

/-- The 32-bit entries of a compiled table given as bytes, assembled little-endian (20_memory.md rule R56); a rest of
fewer than four bytes is no entry. -/
def entriesOfBytes : List Byte → List Word
  | b0 :: b1 :: b2 :: b3 :: rest =>
    (b0.setWidth 32 ||| b1.setWidth 32 <<< 8 ||| b2.setWidth 32 <<< 16 ||| b3.setWidth 32 <<< 24) ::
      entriesOfBytes rest
  | _ => []

/-! ### Glyph entries. In a well-formed font the index is in range (R172), so the default of `getD` is not read (log
entry 9). -/

/-- glyph_table[g]. -/
def Font.entry (font : Font) (g : Nat) : Word := font.glyphTable.getD g 0

/-- EffWidth_g: monospace_width if it is non-zero, else the stored width (R172, R179). -/
def Font.effWidth (font : Font) (g : Nat) : Nat :=
  if font.monospaceWidth ≠ 0 then font.monospaceWidth else entryWidth (font.entry g)

/-! ### Well-formedness (R170, R172) -/

/-- The ranges of R170 and the checks WF1 to WF7 of R172. -/
def Font.wellFormed (font : Font) : Bool :=
  decide (font.unicodeFirst ≤ 0x1FFFFF) && decide (font.unicodeLast ≤ 0x1FFFFF) &&
  decide (font.heightPx ≤ 255) && decide (font.monospaceWidth ≤ 255) && decide (font.glyphCount ≤ 65535) &&
  decide (font.bitmap.length < 2 ^ 24) &&
  (font.bitsPerPixel == 1 || font.bitsPerPixel == 2 || font.bitsPerPixel == 4) &&
  font.glyphTable.length == font.glyphCount &&
  (match font.unicodeMap with
    | none =>
      decide (font.unicodeFirst ≤ font.unicodeLast) &&
      decide (font.unicodeLast - font.unicodeFirst + 1 ≤ font.glyphCount)
    | some m =>
      decide (m.length ≤ 65535) &&
      m.all (fun e => decide (entryGlyphIndex e < font.glyphCount)) &&
      m.all (fun e => decide (font.unicodeFirst ≤ entryUnicode e) && decide (entryUnicode e ≤ font.unicodeLast)) &&
      decide ((m.map entryUnicode).Nodup)) &&
  (font.bitsPerPixel != 1 ||
    (List.range font.glyphCount).all (fun g =>
      decide (entryBitmapIndex (font.entry g) + font.heightPx * ((font.effWidth g + 7) / 8) ≤ font.bitmap.length)))

/-- A configuration the block can be built with: the ranges of R8, and every font well-formed (R172). -/
def Config.legal (cfg : Config) : Bool :=
  decide (1 ≤ cfg.width) && decide (cfg.width ≤ 32767) && decide (1 ≤ cfg.height) && decide (cfg.height ≤ 32767) &&
  decide (cfg.fbSize ≤ 131072) && decide (1 ≤ cfg.nCram) && decide (cfg.nCram ≤ 16384) &&
  decide (cfg.fonts.length ≤ 16) &&
  cfg.fonts.all (fun slot => match slot with | none => true | some font => font.wellFormed)

/-! ### Lookup (R176 to R179) -/

/-- LookupRange (R176). -/
def Font.lookupRange (font : Font) (cp : Nat) : Option Nat :=
  if font.unicodeFirst ≤ cp ∧ cp ≤ font.unicodeLast then some (cp - font.unicodeFirst) else none

/-- LookupSparse (R177) over the map entries. -/
def lookupSparse (cp : Nat) : List Word → Option Nat
  | [] => none
  | m :: rest => if entryUnicode m = cp then some (entryGlyphIndex m) else lookupSparse cp rest

/-- Lookup (R178). -/
def Font.lookup (font : Font) (cp : Nat) : Option Nat :=
  match font.unicodeMap with
  | none => font.lookupRange cp
  | some m => lookupSparse cp m

/-- GlyphWidth (R179): the effective width, or -1 for an absent codepoint. -/
def Font.glyphWidth (font : Font) (cp : Nat) : Int :=
  match font.lookup cp with
  | none => -1
  | some g => (font.effWidth g : Int)

/-- The derived glyph record (R179). -/
structure Glyph where
  widthPx : Nat
  heightPx : Nat
  rowStrideBytes : Nat
  bitmapOffset : Nat
deriving DecidableEq, Repr

/-- Glyph (R179): the record of a present codepoint. -/
def Font.glyph (font : Font) (cp : Nat) : Option Glyph :=
  match font.lookup cp with
  | none => none
  | some g => some {
      widthPx := font.effWidth g
      heightPx := font.heightPx
      rowStrideBytes := (font.effWidth g + 7) / 8
      bitmapOffset := entryBitmapIndex (font.entry g) }

end Sys2Proof

namespace Sys2Proof.Machine

/-- MemRead(font.bitmap, i, 1) (R12). In a legal configuration the blitter reads only bytes of the blob (WF7 of R172;
log entry 9). -/
def glyphByte (font : Font) (i : Nat) : Byte := font.bitmap.getD i 0

/-- GlyphBit(G, r, k) (44_glyph_text.md rule R192). -/
def glyphBit (font : Font) (G : Glyph) (r k : Nat) : Bool :=
  (glyphByte font (G.bitmapOffset + r * G.rowStrideBytes + k / 8)).getLsbD (7 - k % 8)

/-- GlyphSet (44_glyph_text.md rule R194) of a present glyph: the points of its 1 bits. -/
def glyphSet (font : Font) (G : Glyph) (x y : Int) : PointSet :=
  (List.range G.heightPx).flatMap (fun (r : Nat) =>
    ((List.range G.widthPx).filter (fun k => glyphBit font G r k)).map (fun (k : Nat) => .dot (x + (k : Int)) (y + (r : Int))))

/-- FONT[f], if f < N_FONTS and the slot is not empty (00_scope.md rule R8). -/
def State.font (s : State) (f : FontSlot) : Option Font := (s.cfg.fonts[f.toNat]?).join

/-- FontChecks (60_exceptions.md rule R222), checks 5 and 6: the font of slot `f`, or the error. `renders` is true for
GLYPH and TEXT. -/
def fontChecks (renders : Bool) (f : FontSlot) (s : State) : Except ErrorCode Font :=
  match s.font f with
  | none => .error .noFont
  | some font => if renders && font.bitsPerPixel != 1 then .error .fontBpp else .ok font

end Sys2Proof.Machine
end

