-- ==== Sys2Proof/Machine/FontQueries.lean ====
section
/-! DEFINITION. GWIDTH and FHEIGHT (43_font_store.md). -/

namespace Sys2Proof.Machine

/-- GWIDTH (R180): fonts of any depth. -/
def execGwidth (f : FontSlot) (cp : Codepoint) (s : State) : Host.Outcome State Fault Refusal :=
  match fontChecks false f s with
  | .error e => .next (errorStop e s)
  | .ok font => .next ((s.setResult (font.glyphWidth cp.toNat)).advance 2)

/-- FHEIGHT (R181, R182): fonts of any depth. -/
def execFheight (f : FontSlot) (s : State) : Host.Outcome State Fault Refusal :=
  match fontChecks false f s with
  | .error e => .next (errorStop e s)
  | .ok font => .next ((s.setResult (font.heightPx : Int)).advance 1)

end Sys2Proof.Machine
end

