-- ==== Sys2Proof/Machine/Framebuffer.lean ====
section
/-! DEFINITION. CLEAR, SETPIX, GETPIX (40_framebuffer.md). -/

namespace Sys2Proof.Machine

/-- CLEAR (R115): every byte of FB, padding bits included. -/
def execClear (c : Colour) (s : State) : Host.Outcome State Fault Refusal :=
  .next ((s.fillFb (clearByte c)).advance 1)

/-- SETPIX (R116). -/
def execSetpix (x y : Half) (c : Colour) (s : State) : Host.Outcome State Fault Refusal :=
  .next ((setPixel (coord x) (coord y) c s).advance 2)

/-- The value GETPIX reads (R118): 1 or 0 on the surface, -1 off it. -/
def getPixelValue (x y : Int) (s : State) : Int :=
  if s.cfg.onSurface x y then (if s.pixel x y then 1 else 0) else -1

/-- GETPIX (R118). -/
def execGetpix (x y : Half) (s : State) : Host.Outcome State Fault Refusal :=
  .next ((s.setResult (getPixelValue (coord x) (coord y) s)).advance 2)

end Sys2Proof.Machine
end

