-- ==== Sys2Proof/Machine/GlyphText.lean ====
section
/-! DEFINITION. GLYPH and TEXT (44_glyph_text.md). -/

namespace Sys2Proof.Machine

/-- The body of GLYPH after the font checks (R195): a missing glyph draws nothing and returns the caret x, a present one
is painted and returns x + width. -/
def drawGlyph (font : Font) (cp : Codepoint) (x y : Int) (c : Colour) (s : State) : State :=
  match font.glyph cp.toNat with
  | none => s.setResult x
  | some G => (paint (glyphSet font G x y) c s).setResult (x + (G.widthPx : Int))

/-- GLYPH (R195), with the errors of R190 and R222. -/
def execGlyph (cp : Codepoint) (x y : Half) (c : Colour) (f : FontSlot) (s : State) :
    Host.Outcome State Fault Refusal :=
  match fontChecks true f s with
  | .error e => .next (errorStop e s)
  | .ok font => .next ((drawGlyph font cp (coord x) (coord y) c s).advance 3)

/-- TextRun (R197) from the caret `x`, every glyph with its top row at `top` (R199): the stop test is made before each
codepoint (R198), a missing glyph adds nothing to the caret (R201). Returns the state and the final caret. -/
def textRun (font : Font) (top : Int) (c : Colour) (xo : Int) : List Codepoint → Int → State → State × Int
  | [], x, s => (s, x)
  | cp :: rest, x, s =>
    if (s.cfg.width : Int) ≤ x then (s, x)
    else
      match font.glyph cp.toNat with
      | none => textRun font top c xo rest x s
      | some G =>
        textRun font top c xo rest (x + (G.widthPx : Int) + xo) (paint (glyphSet font G x top) c s)

/-- The body of TEXT after the font checks (R200). -/
def drawText (font : Font) (cps : List Codepoint) (x y : Int) (c : Colour) (xo yo : Int) (s : State) : State :=
  let r := textRun font (y + yo) c xo cps x s
  r.1.setResult r.2

/-- TEXT (R200), with the errors of R190 and R222. -/
def execText (cps : List Codepoint) (x y : Half) (c : Colour) (f : FontSlot) (xo yo : Half) (s : State) :
    Host.Outcome State Fault Refusal :=
  match fontChecks true f s with
  | .error e => .next (errorStop e s)
  | .ok font =>
    .next ((drawText font cps (coord x) (coord y) c (coord xo) (coord yo) s).advance (3 + cps.length))

end Sys2Proof.Machine
end

