-- ==== Sys2Proof/Machine/Primitives.lean ====
section
/-! DEFINITION. LINE, RECT, FRECT, CIRCLE, FCIRCLE (42_primitives.md). -/

namespace Sys2Proof.Machine

/-- LINE (R142). -/
def execLine (x0 y0 x1 y1 : Half) (c : Colour) (s : State) : Host.Outcome State Fault Refusal :=
  .next ((paint (lineSet (coord x0) (coord y0) (coord x1) (coord y1)) c s).advance 3)

/-- RECT (R147). -/
def execRect (x0 y0 x1 y1 : Half) (c : Colour) (s : State) : Host.Outcome State Fault Refusal :=
  .next ((paint (rectSet (coord x0) (coord y0) (coord x1) (coord y1)) c s).advance 3)

/-- FRECT (R149). -/
def execFrect (x0 y0 x1 y1 : Half) (c : Colour) (s : State) : Host.Outcome State Fault Refusal :=
  .next ((paint (frectSet (coord x0) (coord y0) (coord x1) (coord y1)) c s).advance 3)

/-- CIRCLE (R154). -/
def execCircle (cx cy r : Half) (c : Colour) (s : State) : Host.Outcome State Fault Refusal :=
  .next ((paint (circleSet (coord cx) (coord cy) (coord r)) c s).advance 3)

/-- FCIRCLE (R156). -/
def execFcircle (cx cy r : Half) (c : Colour) (s : State) : Host.Outcome State Fault Refusal :=
  .next ((paint (fcircleSet (coord cx) (coord cy) (coord r)) c s).advance 3)

end Sys2Proof.Machine
end

