-- ==== Sys2Proof/Machine/Flags.lean ====
section
/-! DEFINITION. The status flags (10_state.md rules R27 to R31, R38, R39): the STATUS word, what END and a host write do
to the flags, and the interrupt output. -/

namespace Sys2Proof.Machine

/-- The code of an error (60_exceptions.md rule R220). -/
def ErrorCode.code : ErrorCode → Byte
  | .noError => 0x00
  | .illegal => 0x01
  | .reserved => 0x02
  | .overrun => 0x03
  | .noFont => 0x04
  | .fontBpp => 0x05

/-- The STATUS word (R27): BUSY [0], DONE [1], ERR [2], ERRCODE [15:8], the rest 0. -/
def State.statusWord (s : State) : Word :=
  (BitVec.ofBool s.busy).setWidth 32 ||| (BitVec.ofBool s.done).setWidth 32 <<< 1 |||
    (BitVec.ofBool s.err).setWidth 32 <<< 2 ||| s.errCode.code.setWidth 32 <<< 8

/-- The CTRL word as read (R24): START reads 0, IE is bit 1. -/
def State.ctrlWord (s : State) : Word := (BitVec.ofBool s.ie).setWidth 32 <<< 1

/-- The irq output (R38, 60_exceptions.md rule R230). -/
def State.irq (s : State) : Bool := s.ie && (s.done || s.err)

/-- The stop of END (45_sequencing.md rule R211), after CP has advanced. -/
def endStop (s : State) : State := { s with busy := false, done := true }

/-- A host write to STATUS (R28 to R31): bit 1 clears DONE, bit 2 clears ERR; BUSY and ERRCODE are read-only. -/
def writeStatus (d : Word) (s : State) : State :=
  { s with done := s.done && !d.getLsbD 1, err := s.err && !d.getLsbD 2 }

/-- A host write to CTRL (R24 to R26): IE takes bit 1, bit 0 is START. -/
def writeCtrl (d : Word) (s : State) : State :=
  let s1 := { s with ie := d.getLsbD 1 }
  if d.getLsbD 0 then startRun s1 else s1

end Sys2Proof.Machine
end

