-- ==== Sys2Proof/Machine/Sequencing.lean ====
section
/-! DEFINITION. NOP and END (45_sequencing.md). -/

namespace Sys2Proof.Machine

/-- NOP (R213): CP advances by 1. -/
def execNop (s : State) : Host.Outcome State Fault Refusal := .next (s.advance 1)

/-- END (R211): CP advances by 1, BUSY falls, DONE is set. -/
def execEnd (s : State) : Host.Outcome State Fault Refusal := .next (endStop (s.advance 1))

end Sys2Proof.Machine
end

