-- ==== Sys2Proof/Machine/Spans.lean ====
section
/-! DEFINITION. HSPAN and VSPAN (41_span_filler.md). -/

namespace Sys2Proof.Machine

/-- HSPAN (R131). -/
def execHspan (x0 x1 y : Half) (c : Colour) (s : State) : Host.Outcome State Fault Refusal :=
  .next ((paint [.hrun (coord x0) (coord x1) (coord y)] c s).advance 3)

/-- VSPAN (R134). -/
def execVspan (x y0 y1 : Half) (c : Colour) (s : State) : Host.Outcome State Fault Refusal :=
  .next ((paint [.vrun (coord x) (coord y0) (coord y1)] c s).advance 3)

end Sys2Proof.Machine
end

