-- ==== Sys2Proof/Machine/Dispatch.lean ====
section
/-! DEFINITION. exec: the meaning of one decoded command, the font checks and the advance of CP included
(45_sequencing.md rule R212). -/

namespace Sys2Proof.Machine

def exec (i : Instr) (s : State) : Host.Outcome State Fault Refusal :=
  match i with
  | .nop => Sys2Proof.Machine.execNop s
  | .endRun => Sys2Proof.Machine.execEnd s
  | .clear c => Sys2Proof.Machine.execClear c s
  | .setpix x y c => Sys2Proof.Machine.execSetpix x y c s
  | .getpix x y => Sys2Proof.Machine.execGetpix x y s
  | .hspan x0 x1 y c => Sys2Proof.Machine.execHspan x0 x1 y c s
  | .vspan x y0 y1 c => Sys2Proof.Machine.execVspan x y0 y1 c s
  | .line x0 y0 x1 y1 c => Sys2Proof.Machine.execLine x0 y0 x1 y1 c s
  | .rect x0 y0 x1 y1 c => Sys2Proof.Machine.execRect x0 y0 x1 y1 c s
  | .frect x0 y0 x1 y1 c => Sys2Proof.Machine.execFrect x0 y0 x1 y1 c s
  | .circle cx cy r c => Sys2Proof.Machine.execCircle cx cy r c s
  | .fcircle cx cy r c => Sys2Proof.Machine.execFcircle cx cy r c s
  | .glyph cp x y c f => Sys2Proof.Machine.execGlyph cp x y c f s
  | .text cps x y c f xo yo => Sys2Proof.Machine.execText cps x y c f xo yo s
  | .gwidth f cp => Sys2Proof.Machine.execGwidth f cp s
  | .fheight f => Sys2Proof.Machine.execFheight f s

end Sys2Proof.Machine
end

