-- ==== Sys2Proof/Machine/Engine.lean ====
section
/-! DEFINITION. The engine: fetch, decode, execute (45_sequencing.md rules R210, R212; 20_memory.md rule R59), and the
words of an instruction placed where it fetches. -/

namespace Sys2Proof.Machine

/-- How many words the engine fetches at CP = p (R59, R221): none where there is no header word, the header alone where
it is illegal or its command does not fit in CRAM, else the whole command. -/
def fetchCount (s : State) : Nat :=
  let p := s.cp.toNat
  if p < s.cfg.nCram then
    match commandLen (s.cramWord p) with
    | none => 1
    | some n => if p + n ≤ s.cfg.nCram then n else 1
  else 0

/-- The words the engine fetches at CP. -/
def fetchWords (s : State) : List Word := (List.range (fetchCount s)).map (fun k => s.cramWord (s.cp.toNat + k))

/-- The error a failed decode raises (R90). -/
def decodeErrorCode : DecodeError → ErrorCode
  | .overrun => .overrun
  | .illegal => .illegal
  | .reserved => .reserved

/-- Step of R212: the command at CP completely, or the error stop before any effect. -/
def engineStep (s : State) : Host.Outcome State Fault Refusal :=
  match decode (fetchWords s) with
  | .error e => .next (errorStop (decodeErrorCode e) s)
  | .ok i => exec i s

/-- The engine's turn (R210): one Step while BUSY = 1; an idle engine does nothing (R41). -/
def engineTurn (s : State) : Host.Outcome State Fault Refusal :=
  if s.busy then engineStep s else .next s

/-- CRAM with `ws` stored from word index `p` on. -/
def storeWords : List Word → Nat → State → State
  | [], _, s => s
  | w :: rest, p, s => storeWords rest (p + 1) (s.setCramWord p w)

/-- The words of `tableWords nbits w` that CRAM has room for from CP on. -/
def placedWords (nbits w : Nat) (s : State) : List Word :=
  (tableWords nbits w).take (s.cfg.nCram - s.cp.toNat)

end Sys2Proof.Machine
end

