-- ==== Sys2Proof/Machine/HostBus.lean ====
section
/-! DEFINITION. The host's side of the block: the register map (10_state.md rules R22 to R37), the bus
(20_memory.md rules R61 to R68) and the reset input (70_reset_and_hazards.md rules R250 to R252). -/

namespace Sys2Proof

/-- ID (R22): the bytes of BRL1. -/
def idWord : Word := 0x42524C31

/-- HWCFG (R23): W in [15:0], H in [31:16]. -/
def Config.hwcfgWord (cfg : Config) : Word :=
  (BitVec.ofNat 16 cfg.width).setWidth 32 ||| (BitVec.ofNat 16 cfg.height).setWidth 32 <<< 16

/-- PARAM (R35): N_CRAM in [15:0], N_FONTS in [20:16]. -/
def Config.paramWord (cfg : Config) : Word :=
  (BitVec.ofNat 16 cfg.nCram).setWidth 32 ||| (BitVec.ofNat 5 cfg.fonts.length).setWidth 32 <<< 16

end Sys2Proof

namespace Sys2Proof.Machine

/-! ### Registers -/

/-- The seven registers that R20, R62 and 10_state.md name, and the reserved offsets (R36). DESIGN CHOICE, unsafe: R60
counts "8 registers" and no ruling settles it; no rule names an eighth, and the model holds seven (log entry 21). -/
inductive Reg where
  | id | hwcfg | ctrl | status | cp | result | param | reserved
deriving DecidableEq, Repr

/-- The register at an aligned offset of the register window: the seven of the register map at 0x000 to 0x018 (no eighth:
log entry 21), and from 0x01C on the reserved offsets (R36). -/
def regAt (offset : Nat) : Reg :=
  match offset with
  | 0x000 => .id
  | 0x004 => .hwcfg
  | 0x008 => .ctrl
  | 0x00C => .status
  | 0x010 => .cp
  | 0x014 => .result
  | 0x018 => .param
  | _ => .reserved

/-- The next free draw of a bus word (R37, U10). -/
def drawWord (s : State) : Word × State := (Config.freeBusWord s.draws, { s with draws := s.draws + 1 })

/-- A 32-bit read of a register (R22 to R37): while BUSY = 1, CP and RESULT read as free draws. -/
def readReg (r : Reg) (s : State) : Word × State :=
  match r with
  | .id => (idWord, s)
  | .hwcfg => (s.cfg.hwcfgWord, s)
  | .ctrl => (s.ctrlWord, s)
  | .status => (s.statusWord, s)
  | .cp => if s.busy then drawWord s else (s.cp.setWidth 32, s)
  | .result => if s.busy then drawWord s else (s.result, s)
  | .param => (s.cfg.paramWord, s)
  | .reserved => (0, s)

/-- A host write of CP (R32): ignored while BUSY = 1. -/
def writeCp (d : Word) (s : State) : State := if s.busy then s else { s with cp := d.extractLsb' 0 16 }

/-- A 32-bit write of a register (R22 to R36); writes to read-only and reserved registers are ignored. -/
def writeReg (r : Reg) (d : Word) (s : State) : State :=
  match r with
  | .id => s
  | .hwcfg => s
  | .ctrl => writeCtrl d s
  | .status => writeStatus d s
  | .cp => writeCp d s
  | .result => s
  | .param => s
  | .reserved => s

/-! ### The bus -/

/-- The width of an access in bytes (R61). -/
def AccessWidth.bytes : AccessWidth → Nat
  | .byte => 1
  | .half => 2
  | .word => 4

/-- The three regions of the address map (R62), with the offset inside the region. -/
inductive Region where
  | register (offset : Nat)
  | cram (offset : Nat)
  | fb (offset : Nat)
deriving DecidableEq, Repr

/-- The region of an address (R62). -/
def regionOf (addr : BitVec 18) : Region :=
  let a := addr.toNat
  if a < 0x10000 then .register a
  else if a < 0x20000 then .cram (a - 0x10000)
  else .fb (a - 0x20000)

/-- One byte lane of a read of FB byte `b` (R66, R67): the byte while idle, a free draw while BUSY = 1. -/
def readFbLane (b : Nat) (s : State) : Byte × State :=
  if s.busy then (Config.freeBusByte s.draws, { s with draws := s.draws + 1 }) else (s.fbByte b, s)

/-- A read of the FB aperture at FB byte offset `b`, all of whose bytes exist, little-endian (R63). -/
def readFb (w : AccessWidth) (b : Nat) (s : State) : BusReply × State :=
  match w with
  | .byte =>
    let l0 := readFbLane b s
    (.byte l0.1, l0.2)
  | .half =>
    let l0 := readFbLane b s
    let l1 := readFbLane (b + 1) l0.2
    (.half (l0.1.setWidth 16 ||| l1.1.setWidth 16 <<< 8), l1.2)
  | .word =>
    let l0 := readFbLane b s
    let l1 := readFbLane (b + 1) l0.2
    let l2 := readFbLane (b + 2) l1.2
    let l3 := readFbLane (b + 3) l2.2
    (.word (l0.1.setWidth 32 ||| l1.1.setWidth 32 <<< 8 ||| l2.1.setWidth 32 <<< 16 ||| l3.1.setWidth 32 <<< 24), l3.2)

/-- A host read (R61 to R68): misaligned, of the wrong width or outside the populated part, it is a bus error and changes
nothing. -/
def hostRead (addr : BitVec 18) (w : AccessWidth) (s : State) : BusReply × State :=
  if addr.toNat % w.bytes ≠ 0 then (.busError, s)
  else
    match regionOf addr with
    | .register o =>
      if w = .word then
        let r := readReg (regAt o) s
        (.word r.1, r.2)
      else (.busError, s)
    | .cram o => if w = .word ∧ o / 4 < s.cfg.nCram then (.word (s.cramWord (o / 4)), s) else (.busError, s)
    | .fb b => if b + w.bytes ≤ s.cfg.fbSize then readFb w b s else (.busError, s)

/-- A host write of CRAM word `i` (R65): ignored while BUSY = 1. -/
def writeCram (i : Nat) (d : Word) (s : State) : State := if s.busy then s else s.setCramWord i d

/-- A host write (R61 to R68): every write to the FB aperture is a bus error (R66). -/
def hostWrite (addr : BitVec 18) (w : AccessWidth) (d : Word) (s : State) : BusReply × State :=
  if addr.toNat % w.bytes ≠ 0 then (.busError, s)
  else
    match regionOf addr with
    | .register o => if w = .word then (.written, writeReg (regAt o) d s) else (.busError, s)
    | .cram o => if w = .word ∧ o / 4 < s.cfg.nCram then (.written, writeCram (o / 4) d s) else (.busError, s)
    | .fb _ => (.busError, s)

/-- One host access: the block's reply and the state after it. -/
def hostAccess (a : Access) (s : State) : BusReply × State :=
  match a with
  | .read addr w => hostRead addr w s
  | .write addr w d => hostWrite addr w d s

/-- A host turn: the access takes effect and its reply is recorded. -/
def hostTurn (a : Access) (s : State) : State :=
  let r := hostAccess a s
  { r.2 with replies := r.2.replies ++ [r.1] }

/-! ### The reset input -/

/-- Reset (R41, R250, R251): every register at its reset value, a run in progress abandoned, FB and CRAM contents drawn
anew; the configuration and what the other agents have still to do or have been told are kept. -/
def resetTurn (s : State) : State :=
  { State.resetWith s.cfg with pending := s.pending, replies := s.replies, epoch := s.epoch + 1, draws := s.draws }

end Sys2Proof.Machine
end

