-- ==== Sys2Proof/Machine/Step.lean ====
section
/-! DEFINITION. One step of the machine: whose turn it is and what the turn does. -/

namespace Sys2Proof.Machine

/-- One step. A machine of illegal configuration is refused (60_exceptions.md rule R226). Otherwise the first pending
turn is taken; with none pending the engine moves (00_scope.md rule R16, 20_memory.md rule R70; log entry 4). -/
def step (s : State) : Host.Outcome State Fault Refusal :=
  if s.cfg.legal then
    match s.pending with
    | [] => engineTurn s
    | .host a :: rest => .next (hostTurn a { s with pending := rest })
    | .engine :: rest => engineTurn { s with pending := rest }
    | .reset :: rest => .next (resetTurn { s with pending := rest })
  else .refused .illegalConfiguration

/-- `s` in a run (BUSY = 1) with nothing pending from outside, and the instruction with low bits `w` stored in CRAM
from CP on, so that the very next step fetches and runs it (log entry 7). -/
def State.withFetchWord (s : State) (nbits w : Nat) : State :=
  storeWords (placedWords nbits w s) s.cp.toNat { s with busy := true, pending := [] }

end Sys2Proof.Machine
end

