-- ==== Sys2Proof/Machine/ByteForms.lean ====
section
/-! DEFINITION. The byte-level forms of HSPAN, VSPAN and the glyph blit, which the spec gives as informative
(41_span_filler.md rules R132, R135; 44_glyph_text.md rule R193). `exec` does not use them; statements compare them with
the point-set meanings. -/

namespace Sys2Proof.Machine

/-- The byte read-modify-writes of a list of (byte index, mask) pairs, in turn. -/
def writeMasks (c : Colour) : List (Nat × Byte) → State → State
  | [], s => s
  | (i, m) :: rest, s => writeMasks c rest (s.setFbByte i (maskByte c m (s.fbByte i)))

/-- The masks of HSpanBytes (R132) for a run cut to the columns xs..xe, by byte of the row. -/
def hspanMasks (xs xe : Nat) : List (Nat × Byte) :=
  let bs := xs / 8
  let be := xe / 8
  let lead : Byte := (0xFF : Byte) >>> (xs % 8)
  let trail : Byte := ~~~((0xFF : Byte) >>> (xe % 8 + 1))
  if bs = be then [(bs, lead &&& trail)]
  else (bs, lead) :: ((List.range (be - bs - 1)).map (fun k => (bs + 1 + k, (0xFF : Byte))) ++ [(be, trail)])

/-- HSpanBytes (R132). -/
def hspanBytes (x0 x1 y : Int) (c : Colour) (s : State) : State :=
  if y < 0 ∨ (s.cfg.height : Int) ≤ y then s
  else
    let xs := max (min x0 x1) 0
    let xe := min (max x0 x1) ((s.cfg.width : Int) - 1)
    if xs > xe then s
    else
      let row := y.toNat * s.cfg.stride
      writeMasks c ((hspanMasks xs.toNat xe.toNat).map (fun p => (row + p.1, p.2))) s

/-- VSpanBytes (R135). -/
def vspanBytes (x y0 y1 : Int) (c : Colour) (s : State) : State :=
  if x < 0 ∨ (s.cfg.width : Int) ≤ x then s
  else
    let ys := max (min y0 y1) 0
    let ye := min (max y0 y1) ((s.cfg.height : Int) - 1)
    writeMasks c ((intRange ys ye).map (fun y => (s.cfg.pixelByte x y, pixelMask x))) s

/-- The two (destination byte of the row, bits) pairs of glyph byte `i` of row `r` for a glyph at column `x` (R193): the
glyph byte without its padding columns, shifted into a 16-bit window. -/
def glyphWindow (font : Font) (G : Glyph) (x : Int) (r i : Nat) : List (Int × Byte) :=
  let v := min 8 (G.widthPx - 8 * i)
  let gb := glyphByte font (G.bitmapOffset + r * G.rowStrideBytes + i) &&& ((0xFF : Byte) <<< (8 - v))
  let win : BitVec 16 := gb.setWidth 16 <<< (8 - (x % 8).toNat)
  [(x / 8 + (i : Int), win.extractLsb' 8 8), (x / 8 + (i : Int) + 1, win.extractLsb' 0 8)]

/-- The write of one window byte (R193): skipped outside the row, and without the framebuffer's padding bits. -/
def windowMask (cfg : Config) (row : Nat) (p : Int × Byte) : List (Nat × Byte) :=
  if p.1 < 0 ∨ (cfg.stride : Int) ≤ p.1 then []
  else
    let j := p.1.toNat
    [(row * cfg.stride + j, if 8 * j + 8 > cfg.width then p.2 &&& ((0xFF : Byte) <<< (8 * j + 8 - cfg.width)) else p.2)]

/-- GlyphBlitBytes (R193). -/
def glyphBlitBytes (font : Font) (G : Glyph) (x y : Int) (c : Colour) (s : State) : State :=
  writeMasks c
    ((List.range G.heightPx).flatMap (fun (r : Nat) =>
      if y + (r : Int) < 0 ∨ (s.cfg.height : Int) ≤ y + (r : Int) then []
      else
        (List.range G.rowStrideBytes).flatMap (fun (i : Nat) =>
          (glyphWindow font G x r i).flatMap (windowMask s.cfg (y + (r : Int)).toNat))))
    s

end Sys2Proof.Machine
end

