-- ==== Sys2Proof/Safety.lean ====
section
/-! DEFINITION. The terms the statements use: the invariant of a sound machine, what a painting changes, and what an
instruction leaves alone. -/

namespace Sys2Proof.Machine

/-- A sound state: a legal configuration (R226), memories in canonical form inside FB and CRAM (R52, R58), no flag or
error code during a run (R28), never DONE with ERR (R229), and an error code exactly as END and the error stop leave it
(R31, R211, R223). -/
structure Inv (s : State) : Prop where
  legal : s.cfg.legal = true
  fbWf : cellsWf s.cfg.fbSize s.fb = true
  cramWf : cellsWf s.cfg.nCram s.cram = true
  busyClear : s.busy = true → s.done = false ∧ s.err = false ∧ s.errCode = .noError
  oneOutcome : ¬(s.done = true ∧ s.err = true)
  errCoded : s.err = true → s.errCode ≠ .noError
  doneClear : s.done = true → s.errCode = .noError

/-- Bit `j` of framebuffer byte `i` is an on-surface pixel of the point set `S` (R51, R114). -/
def Painted (cfg : Config) (S : Int → Int → Prop) (i j : Nat) : Prop :=
  ∃ x y : Int, cfg.onSurface x y = true ∧ S x y ∧ cfg.pixelByte x y = i ∧ pixelBit x = j

/-- FB goes from `s` to `t` by Paint(S, c) (R114): the bits of the on-surface points of `S` are `c`; every other bit of
every byte, padding bits among them, is as before. -/
def PaintsExactly (S : Int → Int → Prop) (c : Colour) (s t : State) : Prop :=
  ∀ i j : Nat, j < 8 →
    (Painted s.cfg S i j → (t.fbByte i).getLsbD j = c) ∧
    (¬Painted s.cfg S i j → (t.fbByte i).getLsbD j = (s.fbByte i).getLsbD j)

/-- Every byte of FB reads as before. -/
def SameFb (s t : State) : Prop := ∀ i : Nat, t.fbByte i = s.fbByte i

/-- Everything but FB, CP and RESULT is as before: the configuration, CRAM, every bit of CTRL and STATUS, and the
model's own fields. -/
structure SameControl (s t : State) : Prop where
  cfg : t.cfg = s.cfg
  cram : t.cram = s.cram
  cramWord : ∀ i, t.cramWord i = s.cramWord i
  ie : t.ie = s.ie
  busy : t.busy = s.busy
  done : t.done = s.done
  err : t.err = s.err
  errCode : t.errCode = s.errCode
  pending : t.pending = s.pending
  replies : t.replies = s.replies
  epoch : t.epoch = s.epoch
  draws : t.draws = s.draws

/-- All that a drawing command of `len` words does: Paint(S, c), CP past the command, nothing else; the bytes that hold
no painted point read as before. -/
structure Draws (S : Int → Int → Prop) (c : Colour) (len : Nat) (s t : State) : Prop where
  bits : PaintsExactly S c s t
  bytes : ∀ i, (∀ j, ¬Painted s.cfg S i j) → t.fbByte i = s.fbByte i
  control : SameControl s t
  result : t.result = s.result
  cp : t.cp = s.cp + BitVec.ofNat 16 len

/-- All that a query of `len` words with answer `v` does: RESULT and CP, nothing else. -/
structure Answers (v : Int) (len : Nat) (s t : State) : Prop where
  result : t.result = BitVec.ofInt 32 v
  fb : SameFb s t
  control : SameControl s t
  cp : t.cp = s.cp + BitVec.ofNat 16 len

/-- All that the error stop does (R223): ERRCODE, ERR and BUSY; CP and everything else as before. -/
structure StopsWith (code : ErrorCode) (s t : State) : Prop where
  errCode : t.errCode = code
  err : t.err = true
  busy : t.busy = false
  cfg : t.cfg = s.cfg
  fb : t.fb = s.fb
  fbBytes : SameFb s t
  cram : t.cram = s.cram
  ie : t.ie = s.ie
  done : t.done = s.done
  cp : t.cp = s.cp
  result : t.result = s.result
  pending : t.pending = s.pending
  replies : t.replies = s.replies
  epoch : t.epoch = s.epoch
  draws : t.draws = s.draws

/-- `exec i` completes in a next state of which `P` holds. -/
def Completes (i : Instr) (s : State) (P : State → Prop) : Prop := ∃ t, exec i s = .next t ∧ P t

/-- A step of the machine completes in a next state of which `P` holds. -/
def StepsTo (s : State) (P : State → Prop) : Prop := ∃ t, step s = .next t ∧ P t

/-- A step of `s` is the engine's move (R212), with the model's turns (log entry 4): nothing is pending, or an engine turn
is, which the step takes off; `u` is the state the engine then moves from. -/
def EngineMoves (s u : State) : Prop :=
  (s.pending = [] ∧ u = s) ∨ ∃ rest, s.pending = .engine :: rest ∧ u = { s with pending := rest }

/-- The commands of a list executed one after another. -/
def execAll (is : List Instr) (s : State) : Option State :=
  is.foldlM (fun (v : State) i => match exec i v with
    | .next w => some w
    | .fault _ => none
    | .refused _ => none) s

/-- The command `i` and the words `ws` stand for each other (R93). -/
def Encodes (i : Instr) (ws : List Word) : Prop := encode i = ws ∧ decode ws = .ok i

/-! ### Words written as numbers, apart from the encoder (30_encoding.md rules R81 to R83) -/

/-- A header word: OPC + 2^8 C + 2^12 F + 2^16 N (R81). -/
def hdrWord (opc : Nat) (c : Colour) (f n : Nat) : Word := BitVec.ofNat 32 (opc + 256 * c.toNat + 4096 * f + 65536 * n)

/-- P(a, b) (R82). -/
def pWord (a b : Half) : Word := BitVec.ofNat 32 (a.toNat + 65536 * b.toNat)

/-- U(cp) (R83). -/
def uWord (u : Codepoint) : Word := BitVec.ofNat 32 u.toNat

/-- The must-be-zero bits of the header (R87), from the masks of spec/opcode_table.json. -/
def headerZeroMask : Op → Word
  | .nop | .endRun | .getpix => 0xFFFFFF00
  | .clear | .setpix | .hspan | .vspan | .line | .rect | .frect | .circle | .fcircle => 0xFFFFFE00
  | .glyph => 0xFFFF0E00
  | .text => 0x00000E00
  | .gwidth | .fheight => 0xFFFF0F00

/-- The must-be-zero bits of argument word `k` (R87), from spec/opcode_table.json. -/
def argZeroMask (op : Op) (k : Nat) : Word :=
  match op with
  | .hspan | .circle | .fcircle => if k = 2 then 0xFFFF0000 else 0
  | .vspan => if k = 2 then 0x0000FFFF else 0
  | .glyph => if k = 2 then 0xFFE00000 else 0
  | .text => if 3 ≤ k then 0xFFE00000 else 0
  | .gwidth => if k = 1 then 0xFFE00000 else 0
  | .nop | .endRun | .clear | .setpix | .getpix | .line | .rect | .frect | .fheight => 0

/-- Some must-be-zero field of the command with header `h` and words `W k` is non-zero (R87). -/
def ReservedSet (op : Op) (h : Word) (W : Nat → Word) : Prop :=
  h &&& headerZeroMask op ≠ 0 ∨ ∃ k, 1 ≤ k ∧ k < op.len h ∧ W k &&& argZeroMask op k ≠ 0

/-! ### Circles -/

/-- One turn of the circle walk (R150), (x, y, d) to (x, y, d), apart from the loop of `circleSteps`. -/
def circleNext (p : Int × Int × Int) : Int × Int × Int :=
  if p.2.2 > 0 then (p.1 + 1, p.2.1 - 1, p.2.2 + 4 * (p.1 - p.2.1) + 10)
  else (p.1 + 1, p.2.1, p.2.2 + 4 * p.1 + 6)

/-! ### Fonts and text -/

/-- FONT[f] is empty or f >= N_FONTS (R222). -/
def NoFont (s : State) (f : FontSlot) : Prop := s.cfg.fonts[f.toNat]? = none ∨ s.cfg.fonts[f.toNat]? = some none

/-- FONT[f] is `font`. -/
def HasFont (s : State) (f : FontSlot) (font : Font) : Prop := s.cfg.fonts[f.toNat]? = some (some font)

/-- (px, py) is a point of GlyphSet for the glyph `G` at (x, y) (R192, R194). -/
def GlyphPoint (font : Font) (G : Glyph) (x y px py : Int) : Prop :=
  ∃ r k : Nat, r < G.heightPx ∧ k < G.widthPx ∧
    (glyphByte font (G.bitmapOffset + r * G.rowStrideBytes + k / 8)).getLsbD (7 - k % 8) = true ∧
    px = x + (k : Int) ∧ py = y + (r : Int)

/-- The glyphs TEXT draws with the caret each is drawn at, and the final caret (R197), on a surface of width `W`. -/
def textPlaces (font : Font) (W xo : Int) : List Codepoint → Int → List (Glyph × Int) × Int
  | [], x => ([], x)
  | cp :: rest, x =>
    if W ≤ x then ([], x)
    else
      match font.glyph cp.toNat with
      | none => textPlaces font W xo rest x
      | some G =>
        let r := textPlaces font W xo rest (x + (G.widthPx : Int) + xo)
        ((G, x) :: r.1, r.2)

/-! ### Runs -/

/-- Two states that differ at most in what the engine never reads: CTRL.IE and the model's own fields but the reset
counter. -/
structure SameRun (s t : State) : Prop where
  cfg : t.cfg = s.cfg
  fb : t.fb = s.fb
  cram : t.cram = s.cram
  busy : t.busy = s.busy
  done : t.done = s.done
  err : t.err = s.err
  errCode : t.errCode = s.errCode
  cp : t.cp = s.cp
  result : t.result = s.result
  epoch : t.epoch = s.epoch

end Sys2Proof.Machine
end

