-- ==== Sys2Proof/Certificates/Slice0/Obligations.lean ====
section
/-! DEFINITION. The statements for the provers. Each docstring names the rule it formalises. -/

open Sys2Proof Sys2Proof.Machine

/-! ### Reset and the invariant -/

/-- R41: what every register reads as after reset, that irq is 0, and that an idle engine does nothing, after reset and in
every state of a legal configuration with BUSY = 0, with nothing pending or an engine turn pending. That the bytes of FB
and the words of CRAM are the free draws of reset 0, counted by the model's own reset counter, and the turns are the
model's choice (log entries 2, 3, 4 and 5). -/
def Obligations.ResetLeavesEveryRegisterAsStated : Prop :=
  (∀ cfg : Config, cfg.legal = true →
    let s := State.resetWith cfg
    hostRead 0x00 .word s = (.word 0x42524C31, s) ∧
    hostRead 0x04 .word s = (.word (BitVec.ofNat 32 (cfg.width + 65536 * cfg.height)), s) ∧
    hostRead 0x08 .word s = (.word 0, s) ∧ s.ie = false ∧
    hostRead 0x0C .word s = (.word 0, s) ∧ s.busy = false ∧ s.done = false ∧ s.err = false ∧ s.errCode = .noError ∧
    hostRead 0x10 .word s = (.word 0, s) ∧ s.cp = 0 ∧
    hostRead 0x14 .word s = (.word 0, s) ∧ s.result = 0 ∧
    hostRead 0x18 .word s = (.word (BitVec.ofNat 32 (cfg.nCram + 65536 * cfg.fonts.length)), s) ∧
    (∀ i, i < cfg.nCram → s.cramWord i = Config.freeCramWord 0 i) ∧
    (∀ i, i < cfg.fbSize → s.fbByte i = Config.freeFbByte 0 i) ∧
    s.irq = false ∧ step s = .next s) ∧
  (∀ s u : State, s.cfg.legal = true → s.busy = false → EngineMoves s u → step s = .next u)

/-- R42, R250, R251: whatever the state was, a reset gives every register its reset value, draws FB and CRAM anew,
keeps the configuration and leaves no DONE, ERR or irq. That a reset is a pending turn, counted by `epoch`, and keeps
the model's own fields is the model's choice (log entries 4, 5, 14). -/
def Obligations.ResetInputIsComplete : Prop :=
  ∀ (s : State) (rest : List Turn), s.cfg.legal = true → s.pending = .reset :: rest →
    StepsTo s (fun t =>
      t.cfg = s.cfg ∧ t.ie = false ∧ t.busy = false ∧ t.done = false ∧ t.err = false ∧ t.errCode = .noError ∧
      t.cp = 0 ∧ t.result = 0 ∧ t.irq = false ∧
      (∀ i, t.cramWord i = Config.freeCramWord (s.epoch + 1) i) ∧
      (∀ i, t.fbByte i = Config.freeFbByte (s.epoch + 1) i) ∧
      t.pending = rest ∧ t.replies = s.replies ∧ t.draws = s.draws)

/-- The model's invariant holds after the first reset of every legal configuration, the reference one (log entry 1)
among them. -/
def Obligations.InvariantHoldsAtReset : Prop :=
  (∀ cfg : Config, cfg.legal = true → Inv (State.resetWith cfg)) ∧ Inv State.reset

/-- The model's invariant (R28, R52, R58, R229 and the canonical form of log entries 2 and 3) is kept by every step
from every state that has it. -/
def Obligations.InvariantKeptByEveryStep : Prop :=
  ∀ s t : State, Inv s → step s = .next t → Inv t

/-- R226: a zero-sized surface and a malformed font make the configuration illegal, and a machine of illegal
configuration is refused and never run. That the refusal comes at every step, host accesses and resets included, and that
a legal configuration is never refused and never faults, is the model's reading (log entry 10). -/
def Obligations.IllegalConfigurationIsRefused : Prop :=
  (∀ cfg : Config, cfg.width = 0 ∨ cfg.height = 0 ∨ (∃ font, some font ∈ cfg.fonts ∧ font.wellFormed = false) →
    cfg.legal = false) ∧
  (∀ s : State, s.cfg.legal = false → step s = .refused .illegalConfiguration) ∧
  (∀ s : State, s.cfg.legal = true → ∃ t, step s = .next t)

/-! ### Encoding -/

/-- The worked encodings that the spec derives in R93 ("Encodings these rules give"): for every row the command encodes to
the row's words and they decode to it. -/
def Obligations.WorkedEncodingsDecode : Prop :=
  Encodes .nop [0x00000000] ∧
  Encodes .endRun [0x00000001] ∧
  Encodes (.clear true) [0x00000102] ∧
  Encodes (.setpix (-1) 5 true) [0x00000103, 0x0005FFFF] ∧
  Encodes (.getpix 399 299) [0x00000004, 0x012B018F] ∧
  Encodes (.hspan (-3) 12 2 true) [0x00000105, 0x0002FFFD, 0x0000000C] ∧
  Encodes (.vspan 7 9 (-2) false) [0x00000006, 0x00090007, 0xFFFE0000] ∧
  Encodes (.line 0 0 7 3 true) [0x00000107, 0x00000000, 0x00030007] ∧
  Encodes (.rect 1 1 6 4 true) [0x00000108, 0x00010001, 0x00040006] ∧
  Encodes (.frect 6 4 1 1 false) [0x00000009, 0x00040006, 0x00010001] ∧
  Encodes (.circle 10 5 3 false) [0x0000000A, 0x0005000A, 0x00000003] ∧
  Encodes (.fcircle 10 5 (-1) true) [0x0000010B, 0x0005000A, 0x0000FFFF] ∧
  Encodes (.glyph 0x41 2 1 true 0) [0x0000010C, 0x00010002, 0x00000041] ∧
  Encodes (.text [0x41, 0x42] 0 0 true 2 1 0) [0x0002210D, 0x00000000, 0x00000001, 0x00000041, 0x00000042] ∧
  Encodes (.gwidth 3 0x1F600) [0x0000300E, 0x0001F600] ∧
  Encodes (.fheight 15) [0x0000F00F]

/-- Decoding the words of a well-formed instruction, whatever follows them in CRAM, gives it back. -/
def Obligations.DecodeInvertsEncode : Prop :=
  ∀ (i : Instr) (rest : List Word), i.wellFormed = true → decode (encode i ++ rest) = .ok i

/-- Words that decode to an instruction are exactly its encoding: no bit of a command is dropped. -/
def Obligations.EncodeInvertsDecode : Prop :=
  ∀ (ws : List Word) (i : Instr), decode ws = .ok i →
    i.wellFormed = true ∧ encode i = ws.take (encode i).length ∧ (encode i).length ≤ ws.length

/-- R85: the length of a command as a function of its header. -/
def Obligations.LengthIsAFunctionOfTheHeader : Prop :=
  ∀ h : Word,
    ((h &&& 0xFF) = 0x0D → commandLen h = some (3 + (h >>> 16).toNat)) ∧
    ((h &&& 0xFF) ∈ [0x00#32, 0x01, 0x02, 0x0F] → commandLen h = some 1) ∧
    ((h &&& 0xFF) ∈ [0x03#32, 0x04, 0x0E] → commandLen h = some 2) ∧
    ((h &&& 0xFF) ∈ [0x05#32, 0x06, 0x07, 0x08, 0x09, 0x0A, 0x0B, 0x0C] → commandLen h = some 3) ∧
    (0x0F < (h &&& 0xFF).toNat → commandLen h = none) ∧
    (∀ n, commandLen h = some n → n ≤ 65538)

/-- The must-be-zero fields of R87 at the decoder: a command whose words are all there is rejected as reserved exactly
when one of its must-be-zero bits is set. -/
def Obligations.ReservedFieldsAreRejected : Prop :=
  ∀ (op : Op) (h : Word) (args rest : List Word), opOf (hdrOpc h) = some op → args.length + 1 = op.len h →
    (decode (h :: args ++ rest) = .error .reserved ↔ ReservedSet op h (fun k => (h :: args).getD k 0))

/-! ### Fetch, order of checks, errors -/

/-- R212, with the model's turns (log entry 4): in a run, a step in which the engine moves is `exec` of the instruction
that the fetched words decode to, or the error stop where they do not decode; in a step with a host access pending the
access, a read or a write, takes effect, busy or idle, its turn is taken off and its reply recorded after the earlier
ones. -/
def Obligations.StepRunsTheDecodedInstruction : Prop :=
  ∀ s : State, s.cfg.legal = true →
    (∀ u, EngineMoves s u → s.busy = true →
      (∀ i, decode (fetchWords u) = .ok i → step s = exec i u) ∧
      (∀ e, decode (fetchWords u) = .error e → step s = .next (errorStop (decodeErrorCode e) u))) ∧
    (∀ a rest, s.pending = .host a :: rest →
      step s = .next { (hostAccess a s).2 with pending := rest, replies := s.replies ++ [(hostAccess a s).1] }) ∧
    (∀ addr w, hostAccess (.read addr w) s = hostRead addr w s) ∧
    (∀ addr w d, hostAccess (.write addr w d) s = hostWrite addr w d s)

/-- A well-formed instruction whose encoding stands in CRAM from CP on is what the engine's next move in a run executes
(R59, R212; one command a step, turns: log entry 4). -/
def Obligations.CommandStoredAtCpIsExecuted : Prop :=
  ∀ (s u : State) (i : Instr), s.cfg.legal = true → s.busy = true → EngineMoves s u → i.wellFormed = true →
    s.cp.toNat + (encode i).length ≤ s.cfg.nCram →
    (∀ k, k < (encode i).length → s.cramWord (s.cp.toNat + k) = (encode i).getD k 0) →
    step s = exec i u

/-- R222: the first error that applies, in the order of the rule, stops the run, with nothing pending or an engine turn
pending. -/
def Obligations.ErrorsAreCheckedInOrder : Prop :=
  ∀ s u : State, s.cfg.legal = true → s.busy = true → EngineMoves s u →
    let p := s.cp.toNat
    let h := s.cramWord p
    let W := fun k => s.cramWord (p + k)
    (s.cfg.nCram ≤ p → StepsTo s (StopsWith .overrun u)) ∧
    (p < s.cfg.nCram →
      (0x0F < (hdrOpc h).toNat → StepsTo s (StopsWith .illegal u)) ∧
      (∀ op, opOf (hdrOpc h) = some op →
        (s.cfg.nCram < p + op.len h → StepsTo s (StopsWith .overrun u)) ∧
        (p + op.len h ≤ s.cfg.nCram →
          (ReservedSet op h W → StepsTo s (StopsWith .reserved u)) ∧
          (¬ReservedSet op h W →
            (op ∈ [Op.glyph, .text, .gwidth, .fheight] → NoFont s (hdrF h) → StepsTo s (StopsWith .noFont u)) ∧
            (op ∈ [Op.glyph, .text] → ∀ font, HasFont s (hdrF h) font → font.bitsPerPixel ≠ 1 →
              StepsTo s (StopsWith .fontBpp u))))))

/-- The precision that the spec derives in R224, with R212, R223 and R33: a step of a run in which the engine moves
(turns: log entry 4) either raises one error, with the error stop as its only effect (CP stays at the header), or
completes its command: it is `exec` of the instruction at CP, ERR and ERRCODE are clear, and CP is past the command's
words, never past N_CRAM. -/
def Obligations.CommandsCompleteOrHaveNoEffect : Prop :=
  ∀ s u t : State, Inv s → s.busy = true → EngineMoves s u → step s = .next t →
    (t.err = true → ∃ code, code ≠ .noError ∧ StopsWith code u t) ∧
    (t.err = false → t.errCode = .noError ∧
      (∃ i, decode (fetchWords u) = .ok i ∧ exec i u = .next t) ∧
      ∃ n, commandLen (s.cramWord s.cp.toNat) = some n ∧ 1 ≤ n ∧ t.cp.toNat = s.cp.toNat + n ∧
        t.cp.toNat ≤ s.cfg.nCram)

/-- The spec's inference R17, "Every run terminates": after at most one step for each CRAM word and one for the
overrun (one command a step: log entry 4). -/
def Obligations.EveryRunTerminates : Prop :=
  ∀ s : State, Inv s → s.pending = [] →
    ∃ (k : Nat) (t : State), k ≤ s.cfg.nCram + 1 ∧ Host.Core.run Sys2Proof.core k s = .next t ∧ t.busy = false

/-- The spec's inference R74: CRAM, the configuration and the fonts in it are the same after any number of engine
steps, and after any step of a run but a reset, host accesses included (turns: log entry 4). -/
def Obligations.RunsNeverChangeCram : Prop :=
  (∀ (k : Nat) (s t : State), s.pending = [] → Host.Core.run Sys2Proof.core k s = .next t →
    t.cram = s.cram ∧ (∀ i, t.cramWord i = s.cramWord i) ∧ t.cfg = s.cfg) ∧
  (∀ s t : State, s.busy = true → (∀ rest, s.pending ≠ .reset :: rest) → step s = .next t →
    t.cram = s.cram ∧ (∀ i, t.cramWord i = s.cramWord i) ∧ t.cfg = s.cfg)

/-! ### Sequencing commands -/

/-- R213: NOP. -/
def Obligations.NopOnlyAdvances : Prop :=
  encode .nop = [0x00000000] ∧
  (∀ rest, decode (0x00000000 :: rest) = .ok .nop) ∧
  (∀ (h : Word) (rest : List Word), h &&& 0xFF = 0x00 → h ≠ 0x00000000 → decode (h :: rest) = .error .reserved) ∧
  ∀ s : State, Completes .nop s (fun t =>
    SameFb s t ∧ SameControl s t ∧ t.result = s.result ∧ t.cp = s.cp + 1)

/-- R211: END. -/
def Obligations.EndStopsTheRun : Prop :=
  encode .endRun = [0x00000001] ∧
  (∀ rest, decode (0x00000001 :: rest) = .ok .endRun) ∧
  (∀ (h : Word) (rest : List Word), h &&& 0xFF = 0x01 → h ≠ 0x00000001 → decode (h :: rest) = .error .reserved) ∧
  ∀ s : State, Completes .endRun s (fun t =>
    t.cp = s.cp + 1 ∧ t.busy = false ∧ t.done = true ∧ t.result = s.result ∧ SameFb s t ∧
    t.cfg = s.cfg ∧ t.cram = s.cram ∧ (∀ i, t.cramWord i = s.cramWord i) ∧ t.ie = s.ie ∧ t.err = s.err ∧
    t.errCode = s.errCode ∧ t.pending = s.pending ∧ t.replies = s.replies ∧ t.epoch = s.epoch ∧ t.draws = s.draws)

/-! ### Framebuffer commands -/

/-- R115: CLEAR writes every byte of FB, padding bits included. -/
def Obligations.ClearFillsEveryByte : Prop :=
  ∀ (c : Colour) (s : State),
    encode (.clear c) = [hdrWord 0x02 c 0 0] ∧
    Completes (.clear c) s (fun t =>
      (∀ i, i < s.cfg.fbSize → t.fbByte i = if c then 0xFF else 0x00) ∧
      (cellsWf s.cfg.fbSize s.fb = true → ∀ i, s.cfg.fbSize ≤ i → t.fbByte i = s.fbByte i) ∧
      SameControl s t ∧ t.result = s.result ∧ t.cp = s.cp + 1)

/-- R116: SETPIX writes its pixel if it is on the surface, and nothing else. -/
def Obligations.SetpixWritesOnePixel : Prop :=
  ∀ (x y : Half) (c : Colour) (s : State),
    encode (.setpix x y c) = [hdrWord 0x03 c 0 0, pWord x y] ∧
    Completes (.setpix x y c) s (Draws (fun px py => px = x.toInt ∧ py = y.toInt) c 2 s)

/-- R118: GETPIX reads the pixel's bit into RESULT, and -1 off the surface. -/
def Obligations.GetpixReadsOnePixel : Prop :=
  ∀ (x y : Half) (s : State),
    encode (.getpix x y) = [hdrWord 0x04 false 0 0, pWord x y] ∧
    Completes (.getpix x y) s (Answers
      (if 0 ≤ x.toInt ∧ x.toInt < (s.cfg.width : Int) ∧ 0 ≤ y.toInt ∧ y.toInt < (s.cfg.height : Int) then
        (if (s.fbByte (y.toInt.toNat * s.cfg.stride + x.toInt.toNat / 8)).getLsbD (7 - x.toInt.toNat % 8) then 1 else 0)
      else -1) 2 s)

/-- The spec's inference R117: a pixel set (cleared) by SETPIX reads 1 (0) by GETPIX if it is in range; out of range
FB is unchanged. -/
def Obligations.SetpixThenGetpixRoundTrips : Prop :=
  ∀ (x y : Half) (c : Colour) (s t u : State), exec (.setpix x y c) s = .next t → exec (.getpix x y) t = .next u →
    (s.cfg.onSurface x.toInt y.toInt = true → u.result = if c then 1 else 0) ∧
    (s.cfg.onSurface x.toInt y.toInt = false → SameFb s t)

/-- The spec's inference R119: CLEAR c leaves every byte of FB c's byte whatever commands ran before it, and is
idempotent. -/
def Obligations.ClearForgetsWhatWasDrawn : Prop :=
  ∀ (is : List Instr) (c : Colour) (s t u : State), execAll is s = some t → exec (.clear c) t = .next u →
    (∀ i, i < s.cfg.fbSize → u.fbByte i = if c then 0xFF else 0x00) ∧
    (∀ v, exec (.clear c) u = .next v → v.fb = u.fb)

/-- The confinement of writes that the spec infers in R52: no command writes a byte of FB outside 0..FBSIZE-1, and FB
keeps its canonical form (log entry 2). -/
def Obligations.NoCommandWritesOutsideTheFramebuffer : Prop :=
  ∀ (i : Instr) (s t : State), cellsWf s.cfg.fbSize s.fb = true → exec i s = .next t →
    cellsWf s.cfg.fbSize t.fb = true ∧ ∀ a, s.cfg.fbSize ≤ a → t.fbByte a = s.fbByte a

/-- The writing part of R53: no command but CLEAR writes a padding bit (the low-order 8*STRIDE - W bits of a row's
last byte). -/
def Obligations.OnlyClearWritesPaddingBits : Prop :=
  ∀ (i : Instr) (s t : State) (y j : Nat), exec i s = .next t → (∀ c, i ≠ .clear c) → y < s.cfg.height →
    j < 8 * s.cfg.stride - s.cfg.width →
    (t.fbByte (y * s.cfg.stride + s.cfg.stride - 1)).getLsbD j =
      (s.fbByte (y * s.cfg.stride + s.cfg.stride - 1)).getLsbD j

/-- Parts of R34, R39 and R58: only GETPIX, GLYPH, TEXT, GWIDTH and FHEIGHT write RESULT; only END and the error stop
write a flag; no command writes CRAM, CTRL.IE or the configuration. -/
def Obligations.CommandsWriteOnlyTheirOwnRegisters : Prop :=
  ∀ (i : Instr) (s t : State), exec i s = .next t →
    t.cfg = s.cfg ∧ t.cram = s.cram ∧ t.ie = s.ie ∧ t.pending = s.pending ∧ t.replies = s.replies ∧
    t.epoch = s.epoch ∧ t.draws = s.draws ∧
    (t.result ≠ s.result → (∃ x y, i = .getpix x y) ∨ (∃ cp x y c f, i = .glyph cp x y c f) ∨
      (∃ cps x y c f xo yo, i = .text cps x y c f xo yo) ∨ (∃ f cp, i = .gwidth f cp) ∨ (∃ f, i = .fheight f)) ∧
    ((t.busy = s.busy ∧ t.done = s.done ∧ t.err = s.err ∧ t.errCode = s.errCode) ∨ i = .endRun ∨
      ∃ code, StopsWith code s t)

/-! ### Spans -/

/-- R131: HSPAN paints the run between its ends, both inclusive, in any order. -/
def Obligations.HspanPaintsTheRun : Prop :=
  ∀ (x0 x1 y : Half) (c : Colour) (s : State),
    encode (.hspan x0 x1 y c) = [hdrWord 0x05 c 0 0, pWord x0 y, pWord x1 0] ∧
    (∀ (w1 w2 : Word) (rest : List Word), w2 &&& 0xFFFF0000 ≠ 0 →
      decode (hdrWord 0x05 c 0 0 :: w1 :: w2 :: rest) = .error .reserved) ∧
    Completes (.hspan x0 x1 y c) s
      (Draws (fun px py => py = y.toInt ∧ min x0.toInt x1.toInt ≤ px ∧ px ≤ max x0.toInt x1.toInt) c 3 s)

/-- R134: VSPAN paints the vertical run between its ends, both inclusive, in any order. -/
def Obligations.VspanPaintsTheRun : Prop :=
  ∀ (x y0 y1 : Half) (c : Colour) (s : State),
    encode (.vspan x y0 y1 c) = [hdrWord 0x06 c 0 0, pWord x y0, pWord 0 y1] ∧
    (∀ (w1 w2 : Word) (rest : List Word), w2 &&& 0x0000FFFF ≠ 0 →
      decode (hdrWord 0x06 c 0 0 :: w1 :: w2 :: rest) = .error .reserved) ∧
    Completes (.vspan x y0 y1 c) s
      (Draws (fun px py => px = x.toInt ∧ min y0.toInt y1.toInt ≤ py ∧ py ≤ max y0.toInt y1.toInt) c 3 s)

/-- The spec's inference R133: a span gives the framebuffer that the SETPIX commands of its points, executed one after
another, give. -/
def Obligations.SpansMatchPixelWrites : Prop :=
  ∀ (a b k : Half) (c : Colour) (s : State),
    let run := intRange (min a.toInt b.toInt) (max a.toInt b.toInt)
    (∀ t, exec (.hspan a b k c) s = .next t →
      ∃ u, execAll (run.map (fun x => .setpix (BitVec.ofInt 16 x) k c)) s = some u ∧ SameFb u t) ∧
    (∀ t, exec (.vspan k a b c) s = .next t →
      ∃ u, execAll (run.map (fun y => .setpix k (BitVec.ofInt 16 y) c)) s = some u ∧ SameFb u t)

/-- The informative byte-level forms of R132 and R135 give exactly the framebuffers of HSPAN and VSPAN, as the spec
infers, and change nothing else. -/
def Obligations.SpanByteFormsAreEquivalent : Prop :=
  ∀ (a b k : Int) (c : Colour) (s : State),
    (SameFb (paint [.hrun a b k] c s) (hspanBytes a b k c s) ∧ SameControl s (hspanBytes a b k c s) ∧
      (hspanBytes a b k c s).cp = s.cp ∧ (hspanBytes a b k c s).result = s.result) ∧
    (SameFb (paint [.vrun k a b] c s) (vspanBytes k a b c s) ∧ SameControl s (vspanBytes k a b c s) ∧
      (vspanBytes k a b c s).cp = s.cp ∧ (vspanBytes k a b c s).result = s.result)

/-! ### Lines, rectangles, circles -/

/-- LINE (R142) paints LineSet of its endpoints. The walk is the spec's choice: "This is the standard integer
Bresenham formulation" (R141, from general knowledge). -/
def Obligations.LinePaintsItsPointSet : Prop :=
  ∀ (x0 y0 x1 y1 : Half) (c : Colour) (s : State),
    encode (.line x0 y0 x1 y1 c) = [hdrWord 0x07 c 0 0, pWord x0 y0, pWord x1 y1] ∧
    Completes (.line x0 y0 x1 y1 c) s
      (Draws (fun px py => (lineSet x0.toInt y0.toInt x1.toInt y1.toInt).has px py = true) c 3 s)

/-- The line laws that the spec infers in R143 from R140 and R141. -/
def Obligations.LineSetsObeyTheLineLaws : Prop :=
  ∀ x0 y0 x1 y1 : Int,
    let L := lineSet x0 y0 x1 y1
    (L.has x0 y0 = true ∧ L.has x1 y1 = true) ∧
    ((y1 - y0).natAbs < (x1 - x0).natAbs →
      (∀ x, (∃ y, L.has x y = true) ↔ min x0 x1 ≤ x ∧ x ≤ max x0 x1) ∧
      (∀ x y y', L.has x y = true → L.has x y' = true → y = y') ∧
      (∀ x y y', L.has x y = true → L.has (x + 1) y' = true → (y' - y).natAbs ≤ 1)) ∧
    ((x1 - x0).natAbs ≤ (y1 - y0).natAbs →
      (∀ y, (∃ x, L.has x y = true) ↔ min y0 y1 ≤ y ∧ y ≤ max y0 y1) ∧
      (∀ x x' y, L.has x y = true → L.has x' y = true → x = x') ∧
      (∀ x x' y, L.has x y = true → L.has x' (y + 1) = true → (x' - x).natAbs ≤ 1)) ∧
    (∀ x y, L.has x y = (lineSet x1 y1 x0 y0).has x y) ∧
    ({p : Int × Int | L.has p.1 p.2 = true}.ncard = max (x1 - x0).natAbs (y1 - y0).natAbs + 1) ∧
    (∀ x y, (lineSet x0 y0 x0 y0).has x y = true ↔ x = x0 ∧ y = y0)

/-- What the walk of R141 (the spec's choice, "the standard integer Bresenham formulation") computes, in closed form:
on each column of a low-slope line (each row of a high-slope one), counted from the end the walk starts at, the
secondary coordinate is the ideal one rounded to the nearest integer, halves staying back. -/
def Obligations.LineWalkRoundsTheIdealLine : Prop :=
  ∀ p0 q0 p1 q1 : Int, p0 < p1 → (q1 - q0).natAbs ≤ (p1 - p0).natAbs →
    walkFrom p0 q0 p1 q1 =
      (List.range ((p1 - p0).toNat + 1)).map (fun (k : Nat) =>
        (p0 + (k : Int),
          q0 + (if q1 < q0 then -1 else 1) *
            ((2 * ((q1 - q0).natAbs : Int) * (k : Int) + (p1 - p0) - 1) / (2 * (p1 - p0)))))

/-- R147: RECT paints the four edges of the rectangle with its corners, both inclusive, in any order. -/
def Obligations.RectPaintsTheBorder : Prop :=
  ∀ (x0 y0 x1 y1 : Half) (c : Colour) (s : State),
    encode (.rect x0 y0 x1 y1 c) = [hdrWord 0x08 c 0 0, pWord x0 y0, pWord x1 y1] ∧
    Completes (.rect x0 y0 x1 y1 c) s (Draws (fun px py =>
      (min x0.toInt x1.toInt ≤ px ∧ px ≤ max x0.toInt x1.toInt ∧ (py = y0.toInt ∨ py = y1.toInt)) ∨
      (min y0.toInt y1.toInt ≤ py ∧ py ≤ max y0.toInt y1.toInt ∧ (px = x0.toInt ∨ px = x1.toInt))) c 3 s)

/-- R149: FRECT paints every point of the rectangle with its corners, both inclusive, in any order. -/
def Obligations.FrectPaintsTheRectangle : Prop :=
  ∀ (x0 y0 x1 y1 : Half) (c : Colour) (s : State),
    encode (.frect x0 y0 x1 y1 c) = [hdrWord 0x09 c 0 0, pWord x0 y0, pWord x1 y1] ∧
    Completes (.frect x0 y0 x1 y1 c) s (Draws (fun px py =>
      min x0.toInt x1.toInt ≤ px ∧ px ≤ max x0.toInt x1.toInt ∧
      min y0.toInt y1.toInt ≤ py ∧ py ≤ max y0.toInt y1.toInt) c 3 s)

/-- The spec's inference R148: the rectangle sets do not depend on the order of the corners, and the border lies in
the filled set. -/
def Obligations.RectangleSetsHoldForEveryCornerOrder : Prop :=
  ∀ x0 y0 x1 y1 x y : Int,
    (rectSet x1 y0 x0 y1).has x y = (rectSet x0 y0 x1 y1).has x y ∧
    (rectSet x0 y1 x1 y0).has x y = (rectSet x0 y0 x1 y1).has x y ∧
    (rectSet x1 y1 x0 y0).has x y = (rectSet x0 y0 x1 y1).has x y ∧
    (frectSet x1 y0 x0 y1).has x y = (frectSet x0 y0 x1 y1).has x y ∧
    (frectSet x0 y1 x1 y0).has x y = (frectSet x0 y0 x1 y1).has x y ∧
    (frectSet x1 y1 x0 y0).has x y = (frectSet x0 y0 x1 y1).has x y ∧
    ((rectSet x0 y0 x1 y1).has x y = true → (frectSet x0 y0 x1 y1).has x y = true)

/-- R154: CIRCLE paints CircleSet; for radius 0 the centre, for radius 1 four points. That a negative radius paints
nothing is an inference the spec marks as its own ("derived: from rule R150"). -/
def Obligations.CirclePaintsTheOutline : Prop :=
  ∀ (cx cy r : Half) (c : Colour) (s : State),
    let S := circleSet cx.toInt cy.toInt r.toInt
    encode (.circle cx cy r c) = [hdrWord 0x0A c 0 0, pWord cx cy, pWord r 0] ∧
    (∀ (w1 w2 : Word) (rest : List Word), w2 &&& 0xFFFF0000 ≠ 0 →
      decode (hdrWord 0x0A c 0 0 :: w1 :: w2 :: rest) = .error .reserved) ∧
    Completes (.circle cx cy r c) s (Draws (fun px py => S.has px py = true) c 3 s) ∧
    (r.toInt = 0 → ∀ x y, S.has x y = true ↔ x = cx.toInt ∧ y = cy.toInt) ∧
    (r.toInt = 1 → ∀ x y, S.has x y = true ↔
      ((x = cx.toInt + 1 ∨ x = cx.toInt - 1) ∧ y = cy.toInt) ∨
      (x = cx.toInt ∧ (y = cy.toInt + 1 ∨ y = cy.toInt - 1))) ∧
    (r.toInt < 0 → ∀ x y, S.has x y = false)

/-- R156: FCIRCLE paints FCircleSet; for radius 0 the centre, for a negative radius nothing. -/
def Obligations.FcirclePaintsTheDisc : Prop :=
  ∀ (cx cy r : Half) (c : Colour) (s : State),
    let S := fcircleSet cx.toInt cy.toInt r.toInt
    encode (.fcircle cx cy r c) = [hdrWord 0x0B c 0 0, pWord cx cy, pWord r 0] ∧
    (∀ (w1 w2 : Word) (rest : List Word), w2 &&& 0xFFFF0000 ≠ 0 →
      decode (hdrWord 0x0B c 0 0 :: w1 :: w2 :: rest) = .error .reserved) ∧
    Completes (.fcircle cx cy r c) s (Draws (fun px py => S.has px py = true) c 3 s) ∧
    (r.toInt = 0 → ∀ x y, S.has x y = true ↔ x = cx.toInt ∧ y = cy.toInt) ∧
    (r.toInt < 0 → ∀ x y, S.has x y = false)

/-- The circle walk and its laws. The walk is R150's, in the update order the spec decides (decision D8): CircleSteps(r)
is the points (x, y) of the walk from (0, r, 3 - 2r) before the first at which y < x, and the model's bound r + 1 on the
turns of the loop cuts nothing off (log entry 20): every larger bound gives the same list. The laws are the spec's
inference R155: every octant offset has 0 <= x <= y and lies within half a pixel of the ideal circle, and every plotted
offset is plotted with its eight reflections. -/
def Obligations.CircleOffsetsObeyTheCircleLaws : Prop :=
  (∀ r : Int, ∃ n : Nat,
    (∀ k, k < n → (circleNext^[k] (0, r, 3 - 2 * r)).1 ≤ (circleNext^[k] (0, r, 3 - 2 * r)).2.1) ∧
    (circleNext^[n] (0, r, 3 - 2 * r)).2.1 < (circleNext^[n] (0, r, 3 - 2 * r)).1 ∧
    circleSteps r = (List.range n).map (fun k =>
      ((circleNext^[k] (0, r, 3 - 2 * r)).1, (circleNext^[k] (0, r, 3 - 2 * r)).2.1))) ∧
  (∀ (r : Int) (fuel : Nat), (r + 1).toNat ≤ fuel → circleLoop fuel 0 r (3 - 2 * r) = circleSteps r) ∧
  (∀ (r : Int), ∀ p ∈ circleSteps r, 0 ≤ p.1 ∧ p.1 ≤ p.2 ∧
    |Real.sqrt ((p.1 : ℝ) ^ 2 + (p.2 : ℝ) ^ 2) - (r : ℝ)| < 1 / 2) ∧
  (∀ cx cy r a b : Int, (circleSet cx cy r).has (cx + a) (cy + b) = true →
    (circleSet cx cy r).has (cx - a) (cy + b) = true ∧ (circleSet cx cy r).has (cx + a) (cy - b) = true ∧
    (circleSet cx cy r).has (cx - a) (cy - b) = true ∧ (circleSet cx cy r).has (cx + b) (cy + a) = true ∧
    (circleSet cx cy r).has (cx - b) (cy + a) = true ∧ (circleSet cx cy r).has (cx + b) (cy - a) = true ∧
    (circleSet cx cy r).has (cx - b) (cy - a) = true)

/-- The filled-circle laws that the spec infers in R157: the disc contains the outline, meets exactly the rows cy - r
.. cy + r, and on each row is one run symmetric about cx. -/
def Obligations.DiscsHaveNoHoles : Prop :=
  ∀ cx cy r : Int,
    (∀ x y, (circleSet cx cy r).has x y = true → (fcircleSet cx cy r).has x y = true) ∧
    (0 ≤ r → ∀ y, (∃ x, (fcircleSet cx cy r).has x y = true) ↔ cy - r ≤ y ∧ y ≤ cy + r) ∧
    (∀ x x' y, (fcircleSet cx cy r).has x y = true → (x' - cx).natAbs ≤ (x - cx).natAbs →
      (fcircleSet cx cy r).has x' y = true)

/-! ### Fonts, glyphs and text -/

/-- The two lookups. R176: in a range font a codepoint is found exactly when it is in the range, at its distance from the
range's start. R177 and its inference: in a well-formed sparse font a codepoint is found exactly through its map entry,
whatever the order of the map and whether or not the range is also checked. -/
def Obligations.SparseLookupFindsTheEntry : Prop :=
  ∀ (font : Font) (cp : Nat),
    (font.unicodeMap = none →
      (font.unicodeFirst ≤ cp → cp ≤ font.unicodeLast → font.lookup cp = some (cp - font.unicodeFirst)) ∧
      (cp < font.unicodeFirst ∨ font.unicodeLast < cp → font.lookup cp = none)) ∧
    (∀ m, font.wellFormed = true → font.unicodeMap = some m →
      (∀ e ∈ m, entryUnicode e = cp → font.lookup cp = some (entryGlyphIndex e) ∧
        font.unicodeFirst ≤ cp ∧ cp ≤ font.unicodeLast) ∧
      ((∀ e ∈ m, entryUnicode e ≠ cp) → font.lookup cp = none) ∧
      (∀ m', m'.Perm m → lookupSparse cp m' = lookupSparse cp m))

/-- The glyph record of R179 (the fields of its entry packed as R174 takes "from general knowledge, not in source", log
entry 18), and what the checks of R172 and the rows of R191 give: in a well-formed font every lookup gives an index of the
glyph table, and with 1 bit per pixel every row byte the blitter reads lies in the blob. -/
def Obligations.GlyphReadsStayInTheFont : Prop :=
  ∀ (font : Font) (cp : Nat),
    (font.lookup cp = none → font.glyph cp = none) ∧
    (∀ g e, font.lookup cp = some g → font.glyphTable[g]? = some e →
      ∃ G, font.glyph cp = some G ∧
        G.widthPx = (if font.monospaceWidth ≠ 0 then font.monospaceWidth else e.toNat % 2 ^ 8) ∧
        G.heightPx = font.heightPx ∧
        G.widthPx ≤ 8 * G.rowStrideBytes ∧ 8 * G.rowStrideBytes < G.widthPx + 8 ∧
        G.bitmapOffset = e.toNat / 2 ^ 8) ∧
    (font.wellFormed = true →
      (∀ g, font.lookup cp = some g → g < font.glyphTable.length) ∧
      (font.bitsPerPixel = 1 → ∀ G, font.glyph cp = some G → ∀ r k, r < G.heightPx → k < G.widthPx →
        G.bitmapOffset + r * G.rowStrideBytes + k / 8 < font.bitmap.length))

/-- R180: GWIDTH answers the effective width of the glyph, -1 for an absent codepoint, or stops without a font. -/
def Obligations.GwidthAnswersTheWidth : Prop :=
  ∀ (f : FontSlot) (cp : Codepoint) (s : State),
    encode (.gwidth f cp) = [hdrWord 0x0E false f.toNat 0, uWord cp] ∧
    (NoFont s f → Completes (.gwidth f cp) s (StopsWith .noFont s)) ∧
    (∀ font, HasFont s f font → Completes (.gwidth f cp) s (Answers
      (match font.lookup cp.toNat with
        | none => -1
        | some g =>
          if font.monospaceWidth ≠ 0 then (font.monospaceWidth : Int)
          else (((font.glyphTable.getD g 0) &&& 0xFF).toNat : Int)) 2 s))

/-- R182: FHEIGHT answers the font's height, or stops without a font. -/
def Obligations.FheightAnswersTheHeight : Prop :=
  ∀ (f : FontSlot) (s : State),
    encode (.fheight f) = [hdrWord 0x0F false f.toNat 0] ∧
    (NoFont s f → Completes (.fheight f) s (StopsWith .noFont s)) ∧
    (∀ font, HasFont s f font → Completes (.fheight f) s (Answers (font.heightPx : Int) 1 s))

/-- R195: GLYPH. -/
def Obligations.GlyphPaintsItsBitsAndReturnsTheCaret : Prop :=
  ∀ (cp : Codepoint) (x y : Half) (c : Colour) (f : FontSlot) (s : State),
    encode (.glyph cp x y c f) = [hdrWord 0x0C c f.toNat 0, pWord x y, uWord cp] ∧
    (NoFont s f → Completes (.glyph cp x y c f) s (StopsWith .noFont s)) ∧
    (∀ font, HasFont s f font →
      (font.bitsPerPixel ≠ 1 → Completes (.glyph cp x y c f) s (StopsWith .fontBpp s)) ∧
      (font.bitsPerPixel = 1 →
        (font.glyph cp.toNat = none → Completes (.glyph cp x y c f) s (Answers x.toInt 3 s)) ∧
        (∀ G, font.glyph cp.toNat = some G → Completes (.glyph cp x y c f) s (fun t =>
          PaintsExactly (GlyphPoint font G x.toInt y.toInt) c s t ∧
          (∀ i, (∀ j, ¬Painted s.cfg (GlyphPoint font G x.toInt y.toInt) i j) → t.fbByte i = s.fbByte i) ∧
          SameControl s t ∧ t.cp = s.cp + 3 ∧
          t.result = BitVec.ofInt 32 (x.toInt + (G.widthPx : Int))))))

/-- R200, with the layout of R197: TEXT paints the union of its glyphs, each at the caret it is reached with, and
answers the final caret; a reserved bit in any codepoint word, and words that are not all there, are decode errors. -/
def Obligations.TextPaintsItsGlyphsAndReturnsTheCaret : Prop :=
  ∀ (cps : List Codepoint) (x y : Half) (c : Colour) (f : FontSlot) (xo yo : Half) (s : State),
    (cps.length ≤ maxCodepoints → encode (.text cps x y c f xo yo) =
      hdrWord 0x0D c f.toNat cps.length :: pWord x y :: pWord xo yo :: cps.map uWord) ∧
    (∀ (w1 w2 : Word) (us rest : List Word), cps.length ≤ maxCodepoints → us.length = cps.length →
      (∃ u ∈ us, u &&& 0xFFE00000 ≠ 0) →
      decode (hdrWord 0x0D c f.toNat cps.length :: w1 :: w2 :: us ++ rest) = .error .reserved) ∧
    (∀ ws : List Word, cps.length ≤ maxCodepoints → ws.length < 2 + cps.length →
      decode (hdrWord 0x0D c f.toNat cps.length :: ws) = .error .overrun) ∧
    (NoFont s f → Completes (.text cps x y c f xo yo) s (StopsWith .noFont s)) ∧
    (∀ font, HasFont s f font →
      (font.bitsPerPixel ≠ 1 → Completes (.text cps x y c f xo yo) s (StopsWith .fontBpp s)) ∧
      (font.bitsPerPixel = 1 →
        let places := textPlaces font (s.cfg.width : Int) xo.toInt cps x.toInt
        let S := fun px py => ∃ g ∈ places.1, GlyphPoint font g.1 g.2 (y.toInt + yo.toInt) px py
        Completes (.text cps x y c f xo yo) s (fun t =>
          PaintsExactly S c s t ∧ (∀ i, (∀ j, ¬Painted s.cfg S i j) → t.fbByte i = s.fbByte i) ∧
          SameControl s t ∧ t.cp = s.cp + BitVec.ofNat 16 (3 + cps.length) ∧
          t.result = BitVec.ofInt 32 places.2)))

/-- The informative byte-parallel blit of R193 gives exactly the framebuffer of the glyph's point set, as the spec
infers, and changes nothing else. -/
def Obligations.GlyphByteFormIsEquivalent : Prop :=
  ∀ (font : Font) (cp : Nat) (G : Glyph) (x y : Int) (c : Colour) (s : State), font.glyph cp = some G →
    SameFb (paint (glyphSet font G x y) c s) (glyphBlitBytes font G x y c s) ∧
    SameControl s (glyphBlitBytes font G x y c s) ∧ (glyphBlitBytes font G x y c s).cp = s.cp ∧
    (glyphBlitBytes font G x y c s).result = s.result

/-- The text laws that the spec infers in R202. -/
def Obligations.TextLawsHold : Prop :=
  ∀ (f : FontSlot) (font : Font) (s : State), HasFont s f font → font.bitsPerPixel = 1 →
    (∀ c G t, 0 < s.cfg.width → font.glyph 0x41 = some G → exec (.text [0x41] 0 0 c f 0 0) s = .next t →
      t.result = BitVec.ofInt 32 (font.glyphWidth 0x41)) ∧
    (∀ (cp : Codepoint) x y c xo yo t, font.glyph cp.toNat = none → exec (.text [cp] x y c f xo yo) s = .next t →
      SameFb s t ∧ t.result = BitVec.ofInt 32 x.toInt) ∧
    (∀ (cp : Codepoint) (x y y2 : Half) c (xo yo : Half) t u, x.toInt < (s.cfg.width : Int) →
      y2.toInt = y.toInt + yo.toInt → exec (.text [cp] x y c f xo yo) s = .next t →
      exec (.glyph cp x y2 c f) s = .next u → SameFb t u)

/-- The caret range that the spec infers in R203: in a legal configuration RESULT as a signed number is the exact
caret, within the stated bounds. -/
def Obligations.CaretsNeverWrap : Prop :=
  ∀ (f : FontSlot) (font : Font) (s : State), s.cfg.legal = true → HasFont s f font → font.bitsPerPixel = 1 →
    (∀ cp x y c t, exec (.glyph cp x y c f) s = .next t →
      t.result.toInt = x.toInt + (match font.glyph cp.toNat with | none => 0 | some G => (G.widthPx : Int)) ∧
      -32768 ≤ t.result.toInt ∧ t.result.toInt ≤ 33022) ∧
    (∀ cps x y c xo yo t, cps.length ≤ 16381 → exec (.text cps x y c f xo yo) s = .next t →
      t.result.toInt = (textPlaces font (s.cfg.width : Int) xo.toInt cps x.toInt).2 ∧
      -32768 - 16381 * 32768 ≤ t.result.toInt ∧ t.result.toInt ≤ 32767 + 33022)

/-- The packed fields of a font entry and the assembly of an entry from its four bytes, which the spec takes "from
general knowledge, not in source" (R174, R175, R56). -/
def Obligations.FontEntriesArePackedAsStated : Prop :=
  (∀ e : Word, entryWidth e = e.toNat % 2 ^ 8 ∧ entryBitmapIndex e = e.toNat / 2 ^ 8 ∧
    entryUnicode e = e.toNat % 2 ^ 21 ∧ entryGlyphIndex e = e.toNat / 2 ^ 21) ∧
  (∀ (b : List Byte) (k : Nat), 4 * k + 3 < b.length →
    ((entriesOfBytes b).getD k 0).toNat =
      (b.getD (4 * k) 0).toNat + 2 ^ 8 * (b.getD (4 * k + 1) 0).toNat + 2 ^ 16 * (b.getD (4 * k + 2) 0).toNat +
        2 ^ 24 * (b.getD (4 * k + 3) 0).toNat)

/-! ### The host's side -/

/-- R25: START while idle clears the flags and sets BUSY, CP and RESULT kept; START while busy is ignored. -/
def Obligations.StartBeginsARun : Prop :=
  ∀ (s : State) (d : Word), d.getLsbD 0 = true →
    let t := (hostWrite 0x08 .word d s).2
    (s.busy = false → t.busy = true ∧ t.done = false ∧ t.err = false ∧ t.errCode = .noError) ∧
    (s.busy = true → t.busy = true ∧ t.done = s.done ∧ t.err = s.err ∧ t.errCode = s.errCode) ∧
    t.ie = d.getLsbD 1 ∧ t.cp = s.cp ∧ t.result = s.result ∧ t.fb = s.fb ∧ t.cram = s.cram ∧ t.cfg = s.cfg ∧
    (t.ctrlWord).getLsbD 0 = false

/-- The writable fields of R26, R29, R30 and R32: IE takes bit 1 of every CTRL write, STATUS bits 1 and 2 clear DONE
and ERR and nothing else, CP takes the low half while idle and is kept while busy. -/
def Obligations.RegisterWritesDoWhatTheirFieldsSay : Prop :=
  ∀ (s : State) (d : Word),
    (d.getLsbD 0 = false → hostWrite 0x08 .word d s = (.written, { s with ie := d.getLsbD 1 })) ∧
    hostWrite 0x0C .word d s =
      (.written, { s with done := if d.getLsbD 1 then false else s.done, err := if d.getLsbD 2 then false else s.err }) ∧
    (s.busy = false → hostWrite 0x10 .word d s = (.written, { s with cp := BitVec.ofNat 16 (d.toNat % 65536) })) ∧
    (s.busy = true → hostWrite 0x10 .word d s = (.written, s))

/-- R36, and the read-only registers of R22, R23, R34 and R35: writes to them are ignored; reserved registers read 0.
-/
def Obligations.ReadOnlyRegistersIgnoreWrites : Prop :=
  ∀ (a : BitVec 18) (s : State) (d : Word), a.toNat < 0x10000 → a.toNat % 4 = 0 →
    (a ∉ [0x08#18, 0x0C, 0x10] → hostWrite a .word d s = (.written, s)) ∧
    (0x1C ≤ a.toNat → hostRead a .word s = (.word 0, s))

/-- R37, with R24, R27, R32 and R34: while idle STATUS, CP and RESULT read as the registers hold them, each STATUS
field at its place; during a run STATUS reads BUSY alone, CP and RESULT an unspecified word; ID, HWCFG, CTRL and PARAM
always read their values. That the unspecified word is the free draw of the model's own counter `draws`, one draw a read,
is the model's choice (log entry 6). -/
def Obligations.RegisterReadsGiveTheFields : Prop :=
  ∀ s : State,
    (hostRead 0x00 .word s = (.word idWord, s) ∧ hostRead 0x04 .word s = (.word s.cfg.hwcfgWord, s) ∧
      hostRead 0x08 .word s = (.word (if s.ie then 2 else 0), s) ∧ hostRead 0x18 .word s = (.word s.cfg.paramWord, s)) ∧
    (s.busy = false →
      hostRead 0x0C .word s =
        (.word (BitVec.ofNat 32 (2 * s.done.toNat + 4 * s.err.toNat + 256 * s.errCode.code.toNat)), s) ∧
      hostRead 0x10 .word s = (.word (BitVec.ofNat 32 s.cp.toNat), s) ∧
      hostRead 0x14 .word s = (.word s.result, s)) ∧
    (Inv s → s.busy = true →
      hostRead 0x0C .word s = (.word 1, s) ∧
      hostRead 0x10 .word s = (.word (Config.freeBusWord s.draws), { s with draws := s.draws + 1 }) ∧
      hostRead 0x14 .word s = (.word (Config.freeBusWord s.draws), { s with draws := s.draws + 1 }))

/-- R64, with the bus errors of R62 and R61: which accesses are bus errors, and that a bus error changes nothing. -/
def Obligations.BusErrorsAreExactlyTheStatedOnes : Prop :=
  ∀ (a : BitVec 18) (w : AccessWidth) (d : Word) (s : State),
    ((hostRead a w s).1 = .busError ↔
      a.toNat % w.bytes ≠ 0 ∨ (a.toNat < 0x20000 ∧ w ≠ .word) ∨
      (0x10000 ≤ a.toNat ∧ a.toNat < 0x20000 ∧ s.cfg.nCram ≤ (a.toNat - 0x10000) / 4) ∨
      (0x20000 ≤ a.toNat ∧ s.cfg.fbSize < a.toNat - 0x20000 + w.bytes)) ∧
    ((hostWrite a w d s).1 = .busError ↔
      a.toNat % w.bytes ≠ 0 ∨ w ≠ .word ∨ 0x20000 ≤ a.toNat ∨
      (0x10000 ≤ a.toNat ∧ s.cfg.nCram ≤ (a.toNat - 0x10000) / 4)) ∧
    ((hostRead a w s).1 = .busError → (hostRead a w s).2 = s) ∧
    ((hostWrite a w d s).1 = .busError → (hostWrite a w d s).2 = s)

/-- R65: CRAM words read back at any time; a write lands while idle, in its word alone, and is ignored during a run;
no command changes CRAM. -/
def Obligations.CramIsWrittenByTheIdleHostOnly : Prop :=
  ∀ (i : Nat) (a : BitVec 18) (d : Word) (s : State), a.toNat = 0x10000 + 4 * i → i < s.cfg.nCram → i < 16384 →
    hostRead a .word s = (.word (s.cramWord i), s) ∧
    (hostWrite a .word d s).1 = .written ∧
    (s.busy = false → ∀ k, (hostWrite a .word d s).2.cramWord k = if k = i then d else s.cramWord k) ∧
    (s.busy = false → { (hostWrite a .word d s).2 with cram := s.cram } = s) ∧
    (s.busy = true → (hostWrite a .word d s).2 = s) ∧
    (∀ j t, exec j s = .next t → ∀ k, t.cramWord k = s.cramWord k)

/-- Reads of the FB aperture, in the byte order of R63, which the spec chooses ("The bus order is the spec's choice"):
while idle the bytes of FB (R66); during a run every byte lane is unspecified (R67), each lane a free draw of the model's
own counter `draws`, the lowest lane first, which is the model's choice (log entry 6). -/
def Obligations.FramebufferReadsAreLittleEndian : Prop :=
  ∀ (b : Nat) (a : BitVec 18) (s : State), a.toNat = 0x20000 + b →
    (s.busy = false →
      (b + 1 ≤ s.cfg.fbSize → hostRead a .byte s = (.byte (s.fbByte b), s)) ∧
      (b % 2 = 0 → b + 2 ≤ s.cfg.fbSize → hostRead a .half s =
        (.half (BitVec.ofNat 16 ((s.fbByte b).toNat + 2 ^ 8 * (s.fbByte (b + 1)).toNat)), s)) ∧
      (b % 4 = 0 → b + 4 ≤ s.cfg.fbSize → hostRead a .word s =
        (.word (BitVec.ofNat 32 ((s.fbByte b).toNat + 2 ^ 8 * (s.fbByte (b + 1)).toNat +
          2 ^ 16 * (s.fbByte (b + 2)).toNat + 2 ^ 24 * (s.fbByte (b + 3)).toNat)), s))) ∧
    (s.busy = true →
      let lane := fun k => (Config.freeBusByte (s.draws + k)).toNat
      (b + 1 ≤ s.cfg.fbSize → hostRead a .byte s =
        (.byte (BitVec.ofNat 8 (lane 0)), { s with draws := s.draws + 1 })) ∧
      (b % 2 = 0 → b + 2 ≤ s.cfg.fbSize → hostRead a .half s =
        (.half (BitVec.ofNat 16 (lane 0 + 2 ^ 8 * lane 1)), { s with draws := s.draws + 2 })) ∧
      (b % 4 = 0 → b + 4 ≤ s.cfg.fbSize → hostRead a .word s =
        (.word (BitVec.ofNat 32 (lane 0 + 2 ^ 8 * lane 1 + 2 ^ 16 * lane 2 + 2 ^ 24 * lane 3)),
          { s with draws := s.draws + 4 })))

/-- R38, with R230: irq is CTRL.IE and (DONE or ERR); W1C of the pending flag, START and clearing IE lower it; clearing
IE leaves the flags. That irq is 0 after reset is an inference R38 marks as its own ("derived: from rule R41"). -/
def Obligations.IrqFollowsTheFlags : Prop :=
  ∀ s : State,
    (s.irq = true ↔ s.ie = true ∧ (s.done = true ∨ s.err = true)) ∧
    ((hostWrite 0x0C .word 0x6 s).2.irq = false) ∧
    (s.err = false → (hostWrite 0x0C .word 0x2 s).2.irq = false) ∧
    (s.done = false → (hostWrite 0x0C .word 0x4 s).2.irq = false) ∧
    (∀ cfg, (State.resetWith cfg).irq = false) ∧
    (s.busy = false → (hostWrite 0x08 .word 0x3 s).2.irq = false) ∧
    ((hostWrite 0x08 .word 0x0 s).2.irq = false ∧ (hostWrite 0x08 .word 0x0 s).2.done = s.done ∧
      (hostWrite 0x08 .word 0x0 s).2.err = s.err)

/-- The reads of R68: a host read changes nothing but the model's count of free draws (log entry 6), and that only
during a run. -/
def Obligations.HostReadsHaveNoSideEffect : Prop :=
  ∀ (a : BitVec 18) (w : AccessWidth) (s : State),
    (s.busy = false → (hostRead a w s).2 = s) ∧ { (hostRead a w s).2 with draws := s.draws } = s

/-- The spec's inference R70, for a command-by-command engine with the model's turns (log entry 4): during a run a
host access leaves alone all that the engine reads or writes, and two states that agree on that make engine moves that
agree on it, with nothing pending or an engine turn pending in either. -/
def Obligations.HostCannotAffectARun : Prop :=
  (∀ (a : Access) (s : State), Inv s → s.busy = true → SameRun s (hostTurn a s)) ∧
  (∀ s s' u u' t : State, SameRun s s' → EngineMoves s u → EngineMoves s' u' → step s = .next t →
    ∃ t', step s' = .next t' ∧ SameRun t t')
end

