-- ==== Sys2Proof/Laws/Cells.lean ====
section
/-! SUPPORT. The laws of the sparse memories: read after write, and the canonical form kept. -/

namespace Sys2Proof.Machine

variable {α : Type}

@[simp] theorem cellsGet_nil (a : Nat) : cellsGet a ([] : List (Nat × α)) = none := rfl

/-- A read after a write: the value written at its address, what was there elsewhere. -/
theorem cellsGet_cellsSet (a b : Nat) (v : α) (l : List (Nat × α)) :
    cellsGet b (cellsSet a v l) = if b = a then some v else cellsGet b l := by
  induction l with
  | nil => simp only [cellsSet, cellsGet, eq_comm]
  | cons p l ih =>
    obtain ⟨k, w⟩ := p
    by_cases h1 : a < k
    · simp only [cellsSet, h1, if_true, cellsGet, eq_comm (a := a)]
    · by_cases h2 : a = k
      · subst h2
        simp only [cellsSet, h1, if_false, if_true, cellsGet]
        by_cases h : b = a
        · simp [h]
        · simp [h, Ne.symm h]
      · simp only [cellsSet, h1, h2, if_false, cellsGet, ih]
        by_cases h : k = b
        · subst h; simp [Ne.symm h2]
        · simp [h]

theorem cellsWf_iff (size : Nat) (l : List (Nat × α)) :
    cellsWf size l = true ↔ l.Pairwise (fun p q => p.1 < q.1) ∧ ∀ p ∈ l, p.1 < size := by
  simp [cellsWf]

@[simp] theorem cellsWf_nil (size : Nat) : cellsWf size ([] : List (Nat × α)) = true := by simp [cellsWf]

theorem mem_cellsSet {a : Nat} {v : α} {l : List (Nat × α)} {p : Nat × α} (h : p ∈ cellsSet a v l) :
    p = (a, v) ∨ p ∈ l := by
  induction l with
  | nil => simpa [cellsSet] using h
  | cons q l ih =>
    obtain ⟨k, w⟩ := q
    unfold cellsSet at h
    split_ifs at h
    · simp_all
    · simp only [List.mem_cons] at h ⊢; tauto
    · simp only [List.mem_cons] at h ⊢
      rcases h with h | h
      · exact .inr (.inl h)
      · exact (ih h).imp id .inr

/-- A write inside the memory keeps the canonical form. -/
theorem cellsWf_cellsSet {size a : Nat} {v : α} {l : List (Nat × α)} (h : cellsWf size l = true) (ha : a < size) :
    cellsWf size (cellsSet a v l) = true := by
  rw [cellsWf_iff] at h ⊢
  obtain ⟨hp, hb⟩ := h
  refine ⟨?_, fun p hm => (mem_cellsSet hm).elim (fun e => e ▸ ha) (hb p)⟩
  clear hb
  induction l with
  | nil => simp [cellsSet]
  | cons q l ih =>
    obtain ⟨k, w⟩ := q
    rw [List.pairwise_cons] at hp
    unfold cellsSet
    split_ifs with h1 h2
    · refine List.pairwise_cons.2 ⟨fun p hm => ?_, List.pairwise_cons.2 hp⟩
      rcases List.mem_cons.1 hm with rfl | hm
      · exact h1
      · exact lt_trans h1 (hp.1 p hm)
    · subst h2; exact List.pairwise_cons.2 hp
    · refine List.pairwise_cons.2 ⟨fun p hm => ?_, ih hp.2⟩
      rcases mem_cellsSet hm with rfl | hm
      · exact lt_of_le_of_ne (not_lt.1 h1) (Ne.symm h2)
      · exact hp.1 p hm

theorem cellsGet_map_range (f : Nat → α) (n i : Nat) :
    cellsGet i ((List.range n).map (fun k => (k, f k))) = if i < n then some (f i) else none := by
  have key : ∀ (l : List Nat), cellsGet i (l.map (fun k => (k, f k))) = if i ∈ l then some (f i) else none := by
    intro l
    induction l with
    | nil => simp
    | cons k l ih =>
      by_cases h : k = i
      · subst h; simp [cellsGet]
      · simp [cellsGet, h, Ne.symm h, ih]
  rw [key]; simp

/-- A memory listing every address is in canonical form. -/
theorem cellsWf_map_range (f : Nat → α) (n : Nat) : cellsWf n ((List.range n).map (fun k => (k, f k))) = true := by
  rw [cellsWf_iff]
  refine ⟨?_, by simp⟩
  rw [List.pairwise_map]
  exact List.pairwise_lt_range

end Sys2Proof.Machine
end

