-- ==== Sys2Proof/Laws/State.lean ====
section
/-! SUPPORT. What each update of the state leaves in each field, true by unfolding. -/

namespace Sys2Proof.Machine

/-! ### setFbByte -/

@[simp] theorem setFbByte_cfg (s : State) (i : Nat) (v : Byte) : (s.setFbByte i v).cfg = s.cfg := rfl
@[simp] theorem setFbByte_fb (s : State) (i : Nat) (v : Byte) : (s.setFbByte i v).fb = cellsSet i v s.fb := rfl
@[simp] theorem setFbByte_cram (s : State) (i : Nat) (v : Byte) : (s.setFbByte i v).cram = s.cram := rfl
@[simp] theorem setFbByte_ie (s : State) (i : Nat) (v : Byte) : (s.setFbByte i v).ie = s.ie := rfl
@[simp] theorem setFbByte_busy (s : State) (i : Nat) (v : Byte) : (s.setFbByte i v).busy = s.busy := rfl
@[simp] theorem setFbByte_done (s : State) (i : Nat) (v : Byte) : (s.setFbByte i v).done = s.done := rfl
@[simp] theorem setFbByte_err (s : State) (i : Nat) (v : Byte) : (s.setFbByte i v).err = s.err := rfl
@[simp] theorem setFbByte_errCode (s : State) (i : Nat) (v : Byte) : (s.setFbByte i v).errCode = s.errCode := rfl
@[simp] theorem setFbByte_cp (s : State) (i : Nat) (v : Byte) : (s.setFbByte i v).cp = s.cp := rfl
@[simp] theorem setFbByte_result (s : State) (i : Nat) (v : Byte) : (s.setFbByte i v).result = s.result := rfl
@[simp] theorem setFbByte_pending (s : State) (i : Nat) (v : Byte) : (s.setFbByte i v).pending = s.pending := rfl
@[simp] theorem setFbByte_replies (s : State) (i : Nat) (v : Byte) : (s.setFbByte i v).replies = s.replies := rfl
@[simp] theorem setFbByte_epoch (s : State) (i : Nat) (v : Byte) : (s.setFbByte i v).epoch = s.epoch := rfl
@[simp] theorem setFbByte_draws (s : State) (i : Nat) (v : Byte) : (s.setFbByte i v).draws = s.draws := rfl

/-! ### fillFb -/

@[simp] theorem fillFb_cfg (s : State) (v : Byte) : (s.fillFb v).cfg = s.cfg := rfl
@[simp] theorem fillFb_fb (s : State) (v : Byte) : (s.fillFb v).fb = (List.range s.cfg.fbSize).map (fun i => (i, v)) := rfl
@[simp] theorem fillFb_cram (s : State) (v : Byte) : (s.fillFb v).cram = s.cram := rfl
@[simp] theorem fillFb_ie (s : State) (v : Byte) : (s.fillFb v).ie = s.ie := rfl
@[simp] theorem fillFb_busy (s : State) (v : Byte) : (s.fillFb v).busy = s.busy := rfl
@[simp] theorem fillFb_done (s : State) (v : Byte) : (s.fillFb v).done = s.done := rfl
@[simp] theorem fillFb_err (s : State) (v : Byte) : (s.fillFb v).err = s.err := rfl
@[simp] theorem fillFb_errCode (s : State) (v : Byte) : (s.fillFb v).errCode = s.errCode := rfl
@[simp] theorem fillFb_cp (s : State) (v : Byte) : (s.fillFb v).cp = s.cp := rfl
@[simp] theorem fillFb_result (s : State) (v : Byte) : (s.fillFb v).result = s.result := rfl
@[simp] theorem fillFb_pending (s : State) (v : Byte) : (s.fillFb v).pending = s.pending := rfl
@[simp] theorem fillFb_replies (s : State) (v : Byte) : (s.fillFb v).replies = s.replies := rfl
@[simp] theorem fillFb_epoch (s : State) (v : Byte) : (s.fillFb v).epoch = s.epoch := rfl
@[simp] theorem fillFb_draws (s : State) (v : Byte) : (s.fillFb v).draws = s.draws := rfl

/-! ### setCramWord -/

@[simp] theorem setCramWord_cfg (s : State) (i : Nat) (v : Word) : (s.setCramWord i v).cfg = s.cfg := rfl
@[simp] theorem setCramWord_fb (s : State) (i : Nat) (v : Word) : (s.setCramWord i v).fb = s.fb := rfl
@[simp] theorem setCramWord_cram (s : State) (i : Nat) (v : Word) : (s.setCramWord i v).cram = cellsSet i v s.cram := rfl
@[simp] theorem setCramWord_ie (s : State) (i : Nat) (v : Word) : (s.setCramWord i v).ie = s.ie := rfl
@[simp] theorem setCramWord_busy (s : State) (i : Nat) (v : Word) : (s.setCramWord i v).busy = s.busy := rfl
@[simp] theorem setCramWord_done (s : State) (i : Nat) (v : Word) : (s.setCramWord i v).done = s.done := rfl
@[simp] theorem setCramWord_err (s : State) (i : Nat) (v : Word) : (s.setCramWord i v).err = s.err := rfl
@[simp] theorem setCramWord_errCode (s : State) (i : Nat) (v : Word) : (s.setCramWord i v).errCode = s.errCode := rfl
@[simp] theorem setCramWord_cp (s : State) (i : Nat) (v : Word) : (s.setCramWord i v).cp = s.cp := rfl
@[simp] theorem setCramWord_result (s : State) (i : Nat) (v : Word) : (s.setCramWord i v).result = s.result := rfl
@[simp] theorem setCramWord_pending (s : State) (i : Nat) (v : Word) : (s.setCramWord i v).pending = s.pending := rfl
@[simp] theorem setCramWord_replies (s : State) (i : Nat) (v : Word) : (s.setCramWord i v).replies = s.replies := rfl
@[simp] theorem setCramWord_epoch (s : State) (i : Nat) (v : Word) : (s.setCramWord i v).epoch = s.epoch := rfl
@[simp] theorem setCramWord_draws (s : State) (i : Nat) (v : Word) : (s.setCramWord i v).draws = s.draws := rfl

/-! ### setResult -/

@[simp] theorem setResult_cfg (s : State) (v : Int) : (s.setResult v).cfg = s.cfg := rfl
@[simp] theorem setResult_fb (s : State) (v : Int) : (s.setResult v).fb = s.fb := rfl
@[simp] theorem setResult_cram (s : State) (v : Int) : (s.setResult v).cram = s.cram := rfl
@[simp] theorem setResult_ie (s : State) (v : Int) : (s.setResult v).ie = s.ie := rfl
@[simp] theorem setResult_busy (s : State) (v : Int) : (s.setResult v).busy = s.busy := rfl
@[simp] theorem setResult_done (s : State) (v : Int) : (s.setResult v).done = s.done := rfl
@[simp] theorem setResult_err (s : State) (v : Int) : (s.setResult v).err = s.err := rfl
@[simp] theorem setResult_errCode (s : State) (v : Int) : (s.setResult v).errCode = s.errCode := rfl
@[simp] theorem setResult_cp (s : State) (v : Int) : (s.setResult v).cp = s.cp := rfl
@[simp] theorem setResult_result (s : State) (v : Int) : (s.setResult v).result = BitVec.ofInt 32 v := rfl
@[simp] theorem setResult_pending (s : State) (v : Int) : (s.setResult v).pending = s.pending := rfl
@[simp] theorem setResult_replies (s : State) (v : Int) : (s.setResult v).replies = s.replies := rfl
@[simp] theorem setResult_epoch (s : State) (v : Int) : (s.setResult v).epoch = s.epoch := rfl
@[simp] theorem setResult_draws (s : State) (v : Int) : (s.setResult v).draws = s.draws := rfl

/-! ### advance -/

@[simp] theorem advance_cfg (s : State) (n : Nat) : (s.advance n).cfg = s.cfg := rfl
@[simp] theorem advance_fb (s : State) (n : Nat) : (s.advance n).fb = s.fb := rfl
@[simp] theorem advance_cram (s : State) (n : Nat) : (s.advance n).cram = s.cram := rfl
@[simp] theorem advance_ie (s : State) (n : Nat) : (s.advance n).ie = s.ie := rfl
@[simp] theorem advance_busy (s : State) (n : Nat) : (s.advance n).busy = s.busy := rfl
@[simp] theorem advance_done (s : State) (n : Nat) : (s.advance n).done = s.done := rfl
@[simp] theorem advance_err (s : State) (n : Nat) : (s.advance n).err = s.err := rfl
@[simp] theorem advance_errCode (s : State) (n : Nat) : (s.advance n).errCode = s.errCode := rfl
@[simp] theorem advance_cp (s : State) (n : Nat) : (s.advance n).cp = s.cp + BitVec.ofNat 16 n := rfl
@[simp] theorem advance_result (s : State) (n : Nat) : (s.advance n).result = s.result := rfl
@[simp] theorem advance_pending (s : State) (n : Nat) : (s.advance n).pending = s.pending := rfl
@[simp] theorem advance_replies (s : State) (n : Nat) : (s.advance n).replies = s.replies := rfl
@[simp] theorem advance_epoch (s : State) (n : Nat) : (s.advance n).epoch = s.epoch := rfl
@[simp] theorem advance_draws (s : State) (n : Nat) : (s.advance n).draws = s.draws := rfl

/-! ### errorStop -/

@[simp] theorem errorStop_cfg (e : ErrorCode) (s : State) : (errorStop e s).cfg = s.cfg := rfl
@[simp] theorem errorStop_fb (e : ErrorCode) (s : State) : (errorStop e s).fb = s.fb := rfl
@[simp] theorem errorStop_cram (e : ErrorCode) (s : State) : (errorStop e s).cram = s.cram := rfl
@[simp] theorem errorStop_ie (e : ErrorCode) (s : State) : (errorStop e s).ie = s.ie := rfl
@[simp] theorem errorStop_busy (e : ErrorCode) (s : State) : (errorStop e s).busy = false := rfl
@[simp] theorem errorStop_done (e : ErrorCode) (s : State) : (errorStop e s).done = s.done := rfl
@[simp] theorem errorStop_err (e : ErrorCode) (s : State) : (errorStop e s).err = true := rfl
@[simp] theorem errorStop_errCode (e : ErrorCode) (s : State) : (errorStop e s).errCode = e := rfl
@[simp] theorem errorStop_cp (e : ErrorCode) (s : State) : (errorStop e s).cp = s.cp := rfl
@[simp] theorem errorStop_result (e : ErrorCode) (s : State) : (errorStop e s).result = s.result := rfl
@[simp] theorem errorStop_pending (e : ErrorCode) (s : State) : (errorStop e s).pending = s.pending := rfl
@[simp] theorem errorStop_replies (e : ErrorCode) (s : State) : (errorStop e s).replies = s.replies := rfl
@[simp] theorem errorStop_epoch (e : ErrorCode) (s : State) : (errorStop e s).epoch = s.epoch := rfl
@[simp] theorem errorStop_draws (e : ErrorCode) (s : State) : (errorStop e s).draws = s.draws := rfl

/-! ### endStop -/

@[simp] theorem endStop_cfg (s : State) : (endStop s).cfg = s.cfg := rfl
@[simp] theorem endStop_fb (s : State) : (endStop s).fb = s.fb := rfl
@[simp] theorem endStop_cram (s : State) : (endStop s).cram = s.cram := rfl
@[simp] theorem endStop_ie (s : State) : (endStop s).ie = s.ie := rfl
@[simp] theorem endStop_busy (s : State) : (endStop s).busy = false := rfl
@[simp] theorem endStop_done (s : State) : (endStop s).done = true := rfl
@[simp] theorem endStop_err (s : State) : (endStop s).err = s.err := rfl
@[simp] theorem endStop_errCode (s : State) : (endStop s).errCode = s.errCode := rfl
@[simp] theorem endStop_cp (s : State) : (endStop s).cp = s.cp := rfl
@[simp] theorem endStop_result (s : State) : (endStop s).result = s.result := rfl
@[simp] theorem endStop_pending (s : State) : (endStop s).pending = s.pending := rfl
@[simp] theorem endStop_replies (s : State) : (endStop s).replies = s.replies := rfl
@[simp] theorem endStop_epoch (s : State) : (endStop s).epoch = s.epoch := rfl
@[simp] theorem endStop_draws (s : State) : (endStop s).draws = s.draws := rfl

/-! ### writeStatus -/

@[simp] theorem writeStatus_cfg (d : Word) (s : State) : (writeStatus d s).cfg = s.cfg := rfl
@[simp] theorem writeStatus_fb (d : Word) (s : State) : (writeStatus d s).fb = s.fb := rfl
@[simp] theorem writeStatus_cram (d : Word) (s : State) : (writeStatus d s).cram = s.cram := rfl
@[simp] theorem writeStatus_ie (d : Word) (s : State) : (writeStatus d s).ie = s.ie := rfl
@[simp] theorem writeStatus_busy (d : Word) (s : State) : (writeStatus d s).busy = s.busy := rfl
@[simp] theorem writeStatus_done (d : Word) (s : State) : (writeStatus d s).done = (s.done && !d.getLsbD 1) := rfl
@[simp] theorem writeStatus_err (d : Word) (s : State) : (writeStatus d s).err = (s.err && !d.getLsbD 2) := rfl
@[simp] theorem writeStatus_errCode (d : Word) (s : State) : (writeStatus d s).errCode = s.errCode := rfl
@[simp] theorem writeStatus_cp (d : Word) (s : State) : (writeStatus d s).cp = s.cp := rfl
@[simp] theorem writeStatus_result (d : Word) (s : State) : (writeStatus d s).result = s.result := rfl
@[simp] theorem writeStatus_pending (d : Word) (s : State) : (writeStatus d s).pending = s.pending := rfl
@[simp] theorem writeStatus_replies (d : Word) (s : State) : (writeStatus d s).replies = s.replies := rfl
@[simp] theorem writeStatus_epoch (d : Word) (s : State) : (writeStatus d s).epoch = s.epoch := rfl
@[simp] theorem writeStatus_draws (d : Word) (s : State) : (writeStatus d s).draws = s.draws := rfl

/-! ### resetTurn -/

@[simp] theorem resetTurn_cfg (s : State) : (resetTurn s).cfg = s.cfg := rfl
@[simp] theorem resetTurn_fb (s : State) : (resetTurn s).fb = [] := rfl
@[simp] theorem resetTurn_cram (s : State) : (resetTurn s).cram = [] := rfl
@[simp] theorem resetTurn_ie (s : State) : (resetTurn s).ie = false := rfl
@[simp] theorem resetTurn_busy (s : State) : (resetTurn s).busy = false := rfl
@[simp] theorem resetTurn_done (s : State) : (resetTurn s).done = false := rfl
@[simp] theorem resetTurn_err (s : State) : (resetTurn s).err = false := rfl
@[simp] theorem resetTurn_errCode (s : State) : (resetTurn s).errCode = .noError := rfl
@[simp] theorem resetTurn_cp (s : State) : (resetTurn s).cp = 0 := rfl
@[simp] theorem resetTurn_result (s : State) : (resetTurn s).result = 0 := rfl
@[simp] theorem resetTurn_pending (s : State) : (resetTurn s).pending = s.pending := rfl
@[simp] theorem resetTurn_replies (s : State) : (resetTurn s).replies = s.replies := rfl
@[simp] theorem resetTurn_epoch (s : State) : (resetTurn s).epoch = s.epoch + 1 := rfl
@[simp] theorem resetTurn_draws (s : State) : (resetTurn s).draws = s.draws := rfl

/-! ### startRun -/

@[simp] theorem startRun_cfg (s : State) : (startRun s).cfg = s.cfg := by unfold startRun; split_ifs <;> rfl
@[simp] theorem startRun_fb (s : State) : (startRun s).fb = s.fb := by unfold startRun; split_ifs <;> rfl
@[simp] theorem startRun_cram (s : State) : (startRun s).cram = s.cram := by unfold startRun; split_ifs <;> rfl
@[simp] theorem startRun_ie (s : State) : (startRun s).ie = s.ie := by unfold startRun; split_ifs <;> rfl
@[simp] theorem startRun_cp (s : State) : (startRun s).cp = s.cp := by unfold startRun; split_ifs <;> rfl
@[simp] theorem startRun_result (s : State) : (startRun s).result = s.result := by unfold startRun; split_ifs <;> rfl
@[simp] theorem startRun_pending (s : State) : (startRun s).pending = s.pending := by unfold startRun; split_ifs <;> rfl
@[simp] theorem startRun_replies (s : State) : (startRun s).replies = s.replies := by unfold startRun; split_ifs <;> rfl
@[simp] theorem startRun_epoch (s : State) : (startRun s).epoch = s.epoch := by unfold startRun; split_ifs <;> rfl
@[simp] theorem startRun_draws (s : State) : (startRun s).draws = s.draws := by unfold startRun; split_ifs <;> rfl

/-! ### writeCtrl -/

@[simp] theorem writeCtrl_cfg (d : Word) (s : State) : (writeCtrl d s).cfg = s.cfg := by unfold writeCtrl; simp only [startRun]; split_ifs <;> rfl
@[simp] theorem writeCtrl_fb (d : Word) (s : State) : (writeCtrl d s).fb = s.fb := by unfold writeCtrl; simp only [startRun]; split_ifs <;> rfl
@[simp] theorem writeCtrl_cram (d : Word) (s : State) : (writeCtrl d s).cram = s.cram := by unfold writeCtrl; simp only [startRun]; split_ifs <;> rfl
@[simp] theorem writeCtrl_cp (d : Word) (s : State) : (writeCtrl d s).cp = s.cp := by unfold writeCtrl; simp only [startRun]; split_ifs <;> rfl
@[simp] theorem writeCtrl_result (d : Word) (s : State) : (writeCtrl d s).result = s.result := by unfold writeCtrl; simp only [startRun]; split_ifs <;> rfl
@[simp] theorem writeCtrl_pending (d : Word) (s : State) : (writeCtrl d s).pending = s.pending := by unfold writeCtrl; simp only [startRun]; split_ifs <;> rfl
@[simp] theorem writeCtrl_replies (d : Word) (s : State) : (writeCtrl d s).replies = s.replies := by unfold writeCtrl; simp only [startRun]; split_ifs <;> rfl
@[simp] theorem writeCtrl_epoch (d : Word) (s : State) : (writeCtrl d s).epoch = s.epoch := by unfold writeCtrl; simp only [startRun]; split_ifs <;> rfl
@[simp] theorem writeCtrl_draws (d : Word) (s : State) : (writeCtrl d s).draws = s.draws := by unfold writeCtrl; simp only [startRun]; split_ifs <;> rfl

/-! ### writeCp -/

@[simp] theorem writeCp_cfg (d : Word) (s : State) : (writeCp d s).cfg = s.cfg := by unfold writeCp; split_ifs <;> rfl
@[simp] theorem writeCp_fb (d : Word) (s : State) : (writeCp d s).fb = s.fb := by unfold writeCp; split_ifs <;> rfl
@[simp] theorem writeCp_cram (d : Word) (s : State) : (writeCp d s).cram = s.cram := by unfold writeCp; split_ifs <;> rfl
@[simp] theorem writeCp_ie (d : Word) (s : State) : (writeCp d s).ie = s.ie := by unfold writeCp; split_ifs <;> rfl
@[simp] theorem writeCp_busy (d : Word) (s : State) : (writeCp d s).busy = s.busy := by unfold writeCp; split_ifs <;> rfl
@[simp] theorem writeCp_done (d : Word) (s : State) : (writeCp d s).done = s.done := by unfold writeCp; split_ifs <;> rfl
@[simp] theorem writeCp_err (d : Word) (s : State) : (writeCp d s).err = s.err := by unfold writeCp; split_ifs <;> rfl
@[simp] theorem writeCp_errCode (d : Word) (s : State) : (writeCp d s).errCode = s.errCode := by unfold writeCp; split_ifs <;> rfl
@[simp] theorem writeCp_result (d : Word) (s : State) : (writeCp d s).result = s.result := by unfold writeCp; split_ifs <;> rfl
@[simp] theorem writeCp_pending (d : Word) (s : State) : (writeCp d s).pending = s.pending := by unfold writeCp; split_ifs <;> rfl
@[simp] theorem writeCp_replies (d : Word) (s : State) : (writeCp d s).replies = s.replies := by unfold writeCp; split_ifs <;> rfl
@[simp] theorem writeCp_epoch (d : Word) (s : State) : (writeCp d s).epoch = s.epoch := by unfold writeCp; split_ifs <;> rfl
@[simp] theorem writeCp_draws (d : Word) (s : State) : (writeCp d s).draws = s.draws := by unfold writeCp; split_ifs <;> rfl

/-! ### writeCram -/

@[simp] theorem writeCram_cfg (i : Nat) (d : Word) (s : State) : (writeCram i d s).cfg = s.cfg := by unfold writeCram; simp only [State.setCramWord]; split_ifs <;> rfl
@[simp] theorem writeCram_fb (i : Nat) (d : Word) (s : State) : (writeCram i d s).fb = s.fb := by unfold writeCram; simp only [State.setCramWord]; split_ifs <;> rfl
@[simp] theorem writeCram_ie (i : Nat) (d : Word) (s : State) : (writeCram i d s).ie = s.ie := by unfold writeCram; simp only [State.setCramWord]; split_ifs <;> rfl
@[simp] theorem writeCram_busy (i : Nat) (d : Word) (s : State) : (writeCram i d s).busy = s.busy := by unfold writeCram; simp only [State.setCramWord]; split_ifs <;> rfl
@[simp] theorem writeCram_done (i : Nat) (d : Word) (s : State) : (writeCram i d s).done = s.done := by unfold writeCram; simp only [State.setCramWord]; split_ifs <;> rfl
@[simp] theorem writeCram_err (i : Nat) (d : Word) (s : State) : (writeCram i d s).err = s.err := by unfold writeCram; simp only [State.setCramWord]; split_ifs <;> rfl
@[simp] theorem writeCram_errCode (i : Nat) (d : Word) (s : State) : (writeCram i d s).errCode = s.errCode := by unfold writeCram; simp only [State.setCramWord]; split_ifs <;> rfl
@[simp] theorem writeCram_cp (i : Nat) (d : Word) (s : State) : (writeCram i d s).cp = s.cp := by unfold writeCram; simp only [State.setCramWord]; split_ifs <;> rfl
@[simp] theorem writeCram_result (i : Nat) (d : Word) (s : State) : (writeCram i d s).result = s.result := by unfold writeCram; simp only [State.setCramWord]; split_ifs <;> rfl
@[simp] theorem writeCram_pending (i : Nat) (d : Word) (s : State) : (writeCram i d s).pending = s.pending := by unfold writeCram; simp only [State.setCramWord]; split_ifs <;> rfl
@[simp] theorem writeCram_replies (i : Nat) (d : Word) (s : State) : (writeCram i d s).replies = s.replies := by unfold writeCram; simp only [State.setCramWord]; split_ifs <;> rfl
@[simp] theorem writeCram_epoch (i : Nat) (d : Word) (s : State) : (writeCram i d s).epoch = s.epoch := by unfold writeCram; simp only [State.setCramWord]; split_ifs <;> rfl
@[simp] theorem writeCram_draws (i : Nat) (d : Word) (s : State) : (writeCram i d s).draws = s.draws := by unfold writeCram; simp only [State.setCramWord]; split_ifs <;> rfl

/-! ### setPixel -/

@[simp] theorem setPixel_cfg (x y : Int) (c : Colour) (s : State) : (setPixel x y c s).cfg = s.cfg := by unfold setPixel; simp only [State.setFbByte]; split_ifs <;> rfl
@[simp] theorem setPixel_cram (x y : Int) (c : Colour) (s : State) : (setPixel x y c s).cram = s.cram := by unfold setPixel; simp only [State.setFbByte]; split_ifs <;> rfl
@[simp] theorem setPixel_ie (x y : Int) (c : Colour) (s : State) : (setPixel x y c s).ie = s.ie := by unfold setPixel; simp only [State.setFbByte]; split_ifs <;> rfl
@[simp] theorem setPixel_busy (x y : Int) (c : Colour) (s : State) : (setPixel x y c s).busy = s.busy := by unfold setPixel; simp only [State.setFbByte]; split_ifs <;> rfl
@[simp] theorem setPixel_done (x y : Int) (c : Colour) (s : State) : (setPixel x y c s).done = s.done := by unfold setPixel; simp only [State.setFbByte]; split_ifs <;> rfl
@[simp] theorem setPixel_err (x y : Int) (c : Colour) (s : State) : (setPixel x y c s).err = s.err := by unfold setPixel; simp only [State.setFbByte]; split_ifs <;> rfl
@[simp] theorem setPixel_errCode (x y : Int) (c : Colour) (s : State) : (setPixel x y c s).errCode = s.errCode := by unfold setPixel; simp only [State.setFbByte]; split_ifs <;> rfl
@[simp] theorem setPixel_cp (x y : Int) (c : Colour) (s : State) : (setPixel x y c s).cp = s.cp := by unfold setPixel; simp only [State.setFbByte]; split_ifs <;> rfl
@[simp] theorem setPixel_result (x y : Int) (c : Colour) (s : State) : (setPixel x y c s).result = s.result := by unfold setPixel; simp only [State.setFbByte]; split_ifs <;> rfl
@[simp] theorem setPixel_pending (x y : Int) (c : Colour) (s : State) : (setPixel x y c s).pending = s.pending := by unfold setPixel; simp only [State.setFbByte]; split_ifs <;> rfl
@[simp] theorem setPixel_replies (x y : Int) (c : Colour) (s : State) : (setPixel x y c s).replies = s.replies := by unfold setPixel; simp only [State.setFbByte]; split_ifs <;> rfl
@[simp] theorem setPixel_epoch (x y : Int) (c : Colour) (s : State) : (setPixel x y c s).epoch = s.epoch := by unfold setPixel; simp only [State.setFbByte]; split_ifs <;> rfl
@[simp] theorem setPixel_draws (x y : Int) (c : Colour) (s : State) : (setPixel x y c s).draws = s.draws := by unfold setPixel; simp only [State.setFbByte]; split_ifs <;> rfl
/-! ### Painting -/

@[simp] theorem paintPoints_cfg (c : Colour) (l : List (Int × Int)) (s : State) : (paintPoints c l s).cfg = s.cfg := by
  induction l generalizing s with
  | nil => rfl
  | cons p l ih => simp [paintPoints, ih]
@[simp] theorem paint_cfg (S : PointSet) (c : Colour) (s : State) : (paint S c s).cfg = s.cfg := by simp [paint]
@[simp] theorem writeMasks_cfg (c : Colour) (l : List (Nat × Byte)) (s : State) : (writeMasks c l s).cfg = s.cfg := by
  induction l generalizing s with
  | nil => rfl
  | cons p l ih => simp [writeMasks, ih]
@[simp] theorem paintPoints_cram (c : Colour) (l : List (Int × Int)) (s : State) : (paintPoints c l s).cram = s.cram := by
  induction l generalizing s with
  | nil => rfl
  | cons p l ih => simp [paintPoints, ih]
@[simp] theorem paint_cram (S : PointSet) (c : Colour) (s : State) : (paint S c s).cram = s.cram := by simp [paint]
@[simp] theorem writeMasks_cram (c : Colour) (l : List (Nat × Byte)) (s : State) : (writeMasks c l s).cram = s.cram := by
  induction l generalizing s with
  | nil => rfl
  | cons p l ih => simp [writeMasks, ih]
@[simp] theorem paintPoints_ie (c : Colour) (l : List (Int × Int)) (s : State) : (paintPoints c l s).ie = s.ie := by
  induction l generalizing s with
  | nil => rfl
  | cons p l ih => simp [paintPoints, ih]
@[simp] theorem paint_ie (S : PointSet) (c : Colour) (s : State) : (paint S c s).ie = s.ie := by simp [paint]
@[simp] theorem writeMasks_ie (c : Colour) (l : List (Nat × Byte)) (s : State) : (writeMasks c l s).ie = s.ie := by
  induction l generalizing s with
  | nil => rfl
  | cons p l ih => simp [writeMasks, ih]
@[simp] theorem paintPoints_busy (c : Colour) (l : List (Int × Int)) (s : State) : (paintPoints c l s).busy = s.busy := by
  induction l generalizing s with
  | nil => rfl
  | cons p l ih => simp [paintPoints, ih]
@[simp] theorem paint_busy (S : PointSet) (c : Colour) (s : State) : (paint S c s).busy = s.busy := by simp [paint]
@[simp] theorem writeMasks_busy (c : Colour) (l : List (Nat × Byte)) (s : State) : (writeMasks c l s).busy = s.busy := by
  induction l generalizing s with
  | nil => rfl
  | cons p l ih => simp [writeMasks, ih]
@[simp] theorem paintPoints_done (c : Colour) (l : List (Int × Int)) (s : State) : (paintPoints c l s).done = s.done := by
  induction l generalizing s with
  | nil => rfl
  | cons p l ih => simp [paintPoints, ih]
@[simp] theorem paint_done (S : PointSet) (c : Colour) (s : State) : (paint S c s).done = s.done := by simp [paint]
@[simp] theorem writeMasks_done (c : Colour) (l : List (Nat × Byte)) (s : State) : (writeMasks c l s).done = s.done := by
  induction l generalizing s with
  | nil => rfl
  | cons p l ih => simp [writeMasks, ih]
@[simp] theorem paintPoints_err (c : Colour) (l : List (Int × Int)) (s : State) : (paintPoints c l s).err = s.err := by
  induction l generalizing s with
  | nil => rfl
  | cons p l ih => simp [paintPoints, ih]
@[simp] theorem paint_err (S : PointSet) (c : Colour) (s : State) : (paint S c s).err = s.err := by simp [paint]
@[simp] theorem writeMasks_err (c : Colour) (l : List (Nat × Byte)) (s : State) : (writeMasks c l s).err = s.err := by
  induction l generalizing s with
  | nil => rfl
  | cons p l ih => simp [writeMasks, ih]
@[simp] theorem paintPoints_errCode (c : Colour) (l : List (Int × Int)) (s : State) : (paintPoints c l s).errCode = s.errCode := by
  induction l generalizing s with
  | nil => rfl
  | cons p l ih => simp [paintPoints, ih]
@[simp] theorem paint_errCode (S : PointSet) (c : Colour) (s : State) : (paint S c s).errCode = s.errCode := by simp [paint]
@[simp] theorem writeMasks_errCode (c : Colour) (l : List (Nat × Byte)) (s : State) : (writeMasks c l s).errCode = s.errCode := by
  induction l generalizing s with
  | nil => rfl
  | cons p l ih => simp [writeMasks, ih]
@[simp] theorem paintPoints_cp (c : Colour) (l : List (Int × Int)) (s : State) : (paintPoints c l s).cp = s.cp := by
  induction l generalizing s with
  | nil => rfl
  | cons p l ih => simp [paintPoints, ih]
@[simp] theorem paint_cp (S : PointSet) (c : Colour) (s : State) : (paint S c s).cp = s.cp := by simp [paint]
@[simp] theorem writeMasks_cp (c : Colour) (l : List (Nat × Byte)) (s : State) : (writeMasks c l s).cp = s.cp := by
  induction l generalizing s with
  | nil => rfl
  | cons p l ih => simp [writeMasks, ih]
@[simp] theorem paintPoints_result (c : Colour) (l : List (Int × Int)) (s : State) : (paintPoints c l s).result = s.result := by
  induction l generalizing s with
  | nil => rfl
  | cons p l ih => simp [paintPoints, ih]
@[simp] theorem paint_result (S : PointSet) (c : Colour) (s : State) : (paint S c s).result = s.result := by simp [paint]
@[simp] theorem writeMasks_result (c : Colour) (l : List (Nat × Byte)) (s : State) : (writeMasks c l s).result = s.result := by
  induction l generalizing s with
  | nil => rfl
  | cons p l ih => simp [writeMasks, ih]
@[simp] theorem paintPoints_pending (c : Colour) (l : List (Int × Int)) (s : State) : (paintPoints c l s).pending = s.pending := by
  induction l generalizing s with
  | nil => rfl
  | cons p l ih => simp [paintPoints, ih]
@[simp] theorem paint_pending (S : PointSet) (c : Colour) (s : State) : (paint S c s).pending = s.pending := by simp [paint]
@[simp] theorem writeMasks_pending (c : Colour) (l : List (Nat × Byte)) (s : State) : (writeMasks c l s).pending = s.pending := by
  induction l generalizing s with
  | nil => rfl
  | cons p l ih => simp [writeMasks, ih]
@[simp] theorem paintPoints_replies (c : Colour) (l : List (Int × Int)) (s : State) : (paintPoints c l s).replies = s.replies := by
  induction l generalizing s with
  | nil => rfl
  | cons p l ih => simp [paintPoints, ih]
@[simp] theorem paint_replies (S : PointSet) (c : Colour) (s : State) : (paint S c s).replies = s.replies := by simp [paint]
@[simp] theorem writeMasks_replies (c : Colour) (l : List (Nat × Byte)) (s : State) : (writeMasks c l s).replies = s.replies := by
  induction l generalizing s with
  | nil => rfl
  | cons p l ih => simp [writeMasks, ih]
@[simp] theorem paintPoints_epoch (c : Colour) (l : List (Int × Int)) (s : State) : (paintPoints c l s).epoch = s.epoch := by
  induction l generalizing s with
  | nil => rfl
  | cons p l ih => simp [paintPoints, ih]
@[simp] theorem paint_epoch (S : PointSet) (c : Colour) (s : State) : (paint S c s).epoch = s.epoch := by simp [paint]
@[simp] theorem writeMasks_epoch (c : Colour) (l : List (Nat × Byte)) (s : State) : (writeMasks c l s).epoch = s.epoch := by
  induction l generalizing s with
  | nil => rfl
  | cons p l ih => simp [writeMasks, ih]
@[simp] theorem paintPoints_draws (c : Colour) (l : List (Int × Int)) (s : State) : (paintPoints c l s).draws = s.draws := by
  induction l generalizing s with
  | nil => rfl
  | cons p l ih => simp [paintPoints, ih]
@[simp] theorem paint_draws (S : PointSet) (c : Colour) (s : State) : (paint S c s).draws = s.draws := by simp [paint]
@[simp] theorem writeMasks_draws (c : Colour) (l : List (Nat × Byte)) (s : State) : (writeMasks c l s).draws = s.draws := by
  induction l generalizing s with
  | nil => rfl
  | cons p l ih => simp [writeMasks, ih]

/-! ### CRAM and FB reads under updates that do not touch them -/

theorem cramWord_congr {s t : State} (h : t.cram = s.cram) (he : t.epoch = s.epoch) (i : Nat) :
    t.cramWord i = s.cramWord i := by simp [State.cramWord, h, he]
theorem fbByte_congr {s t : State} (h : t.fb = s.fb) (he : t.epoch = s.epoch) (i : Nat) :
    t.fbByte i = s.fbByte i := by simp [State.fbByte, h, he]

@[simp] theorem setResult_fbByte (s : State) (v : Int) (i : Nat) : (s.setResult v).fbByte i = s.fbByte i := rfl
@[simp] theorem setResult_cramWord (s : State) (v : Int) (i : Nat) : (s.setResult v).cramWord i = s.cramWord i := rfl
@[simp] theorem advance_fbByte (s : State) (n : Nat) (i : Nat) : (s.advance n).fbByte i = s.fbByte i := rfl
@[simp] theorem advance_cramWord (s : State) (n : Nat) (i : Nat) : (s.advance n).cramWord i = s.cramWord i := rfl
@[simp] theorem errorStop_fbByte (e : ErrorCode) (s : State) (i : Nat) : (errorStop e s).fbByte i = s.fbByte i := rfl
@[simp] theorem errorStop_cramWord (e : ErrorCode) (s : State) (i : Nat) : (errorStop e s).cramWord i = s.cramWord i := rfl
@[simp] theorem endStop_fbByte (s : State) (i : Nat) : (endStop s).fbByte i = s.fbByte i := rfl
@[simp] theorem endStop_cramWord (s : State) (i : Nat) : (endStop s).cramWord i = s.cramWord i := rfl
@[simp] theorem setFbByte_cramWord (s : State) (k : Nat) (v : Byte) (i : Nat) : (s.setFbByte k v).cramWord i = s.cramWord i := rfl
@[simp] theorem fillFb_cramWord (s : State) (v : Byte) (i : Nat) : (s.fillFb v).cramWord i = s.cramWord i := rfl
@[simp] theorem setPixel_cramWord (x y : Int) (c : Colour) (s : State) (i : Nat) :
    (setPixel x y c s).cramWord i = s.cramWord i := cramWord_congr (by simp) (by simp) i
@[simp] theorem paint_cramWord (S : PointSet) (c : Colour) (s : State) (i : Nat) :
    (paint S c s).cramWord i = s.cramWord i := cramWord_congr (by simp) (by simp) i

end Sys2Proof.Machine
end

