-- ==== Sys2Proof/Laws/Bus.lean ====
section
/-! SUPPORT. What a host access can do to the state, once for all accesses. -/

namespace Sys2Proof.Machine

theorem setCramWord_cramWord (s : State) (i k : Nat) (v : Word) :
    (s.setCramWord i v).cramWord k = if k = i then v else s.cramWord k := by
  simp only [State.cramWord, State.setCramWord, cellsGet_cellsSet]
  split_ifs <;> rfl

/-- The state after a host access is the state itself, the state with free draws taken, or the state after one of the
four register or CRAM writes that have an effect (R68). -/
inductive AccessEffect (s : State) : State → Prop where
  | same : AccessEffect s s
  | drawn (n : Nat) : s.busy = true → AccessEffect s { s with draws := s.draws + n }
  | ctrl (d : Word) : AccessEffect s (writeCtrl d s)
  | status (d : Word) : AccessEffect s (writeStatus d s)
  | cp (d : Word) : AccessEffect s (writeCp d s)
  | cram (i : Nat) (d : Word) : i < s.cfg.nCram → AccessEffect s (writeCram i d s)

theorem readFbLane_state (b : Nat) (s : State) :
    (readFbLane b s).2 = { s with draws := s.draws + (if s.busy then 1 else 0) } := by
  unfold readFbLane
  split_ifs <;> rfl

theorem readFb_state (w : AccessWidth) (b : Nat) (s : State) :
    (readFb w b s).2 = { s with draws := s.draws + (if s.busy then w.bytes else 0) } := by
  cases w <;> cases h : s.busy <;> simp [readFb, readFbLane_state, AccessWidth.bytes, h, Nat.add_assoc]

theorem readReg_effect (r : Reg) (s : State) : AccessEffect s (readReg r s).2 := by
  cases r <;> simp only [readReg] <;> try exact .same
  all_goals
    cases h : s.busy
    · exact .same
    · exact .drawn 1 h

theorem writeReg_effect (r : Reg) (d : Word) (s : State) : AccessEffect s (writeReg r d s) := by
  cases r
  case ctrl => exact .ctrl d
  case status => exact .status d
  case cp => exact .cp d
  all_goals exact .same

theorem hostAccess_effect (a : Access) (s : State) : AccessEffect s (hostAccess a s).2 := by
  cases a with
  | read addr w =>
    simp only [hostAccess, hostRead]
    by_cases ha : addr.toNat % w.bytes ≠ 0
    · rw [if_pos ha]; exact .same
    · rw [if_neg ha]
      cases regionOf addr with
      | register o =>
        by_cases hw : w = .word
        · simp only [hw, if_true]; exact readReg_effect _ s
        · simp only [hw, if_false]; exact .same
      | cram o => dsimp only; split_ifs <;> exact .same
      | fb b =>
        by_cases hb : b + w.bytes ≤ s.cfg.fbSize
        · simp only [hb, if_true]
          rw [readFb_state]
          by_cases h : s.busy = true
          · rw [if_pos h]; exact .drawn _ h
          · rw [if_neg h]; exact .same
        · simp only [hb, if_false]; exact .same
  | write addr w d =>
    simp only [hostAccess, hostWrite]
    by_cases ha : addr.toNat % w.bytes ≠ 0
    · rw [if_pos ha]; exact .same
    · rw [if_neg ha]
      cases regionOf addr with
      | register o =>
        by_cases hw : w = .word
        · simp only [hw, if_true]; exact writeReg_effect _ d s
        · simp only [hw, if_false]; exact .same
      | cram o =>
        by_cases hc : w = .word ∧ o / 4 < s.cfg.nCram
        · dsimp only; rw [if_pos hc]; exact .cram _ d hc.2
        · dsimp only; rw [if_neg hc]; exact .same
      | fb b => exact .same

theorem readReg_pending (r : Reg) (s : State) (l : List Turn) :
    readReg r { s with pending := l } = ((readReg r s).1, { (readReg r s).2 with pending := l }) := by
  cases r <;> simp only [readReg] <;> first | rfl | (split_ifs <;> rfl)

theorem writeReg_pending (r : Reg) (d : Word) (s : State) (l : List Turn) :
    writeReg r d { s with pending := l } = { writeReg r d s with pending := l } := by
  cases r <;> simp only [writeReg, writeCtrl, startRun, writeStatus, writeCp] <;> (try split_ifs) <;> rfl

theorem readFb_pending (w : AccessWidth) (b : Nat) (s : State) (l : List Turn) :
    readFb w b { s with pending := l } = ((readFb w b s).1, { (readFb w b s).2 with pending := l }) := by
  cases w <;> cases h : s.busy <;> simp [readFb, readFbLane, h, State.fbByte]

/-- A host access neither reads nor writes the turns pending. -/
theorem hostAccess_pending (a : Access) (s : State) (l : List Turn) :
    hostAccess a { s with pending := l } = ((hostAccess a s).1, { (hostAccess a s).2 with pending := l }) := by
  cases a with
  | read addr w =>
    simp only [hostAccess, hostRead]
    by_cases ha : addr.toNat % w.bytes ≠ 0
    · simp [if_pos ha]
    · rw [if_neg ha, if_neg ha]
      cases regionOf addr with
      | register o => by_cases hw : w = .word <;> simp [hw, readReg_pending]
      | cram o => dsimp only; split_ifs <;> rfl
      | fb b => by_cases hb : b + w.bytes ≤ s.cfg.fbSize <;> simp [hb, readFb_pending]
  | write addr w d =>
    simp only [hostAccess, hostWrite]
    by_cases ha : addr.toNat % w.bytes ≠ 0
    · simp [if_pos ha]
    · rw [if_neg ha, if_neg ha]
      cases regionOf addr with
      | register o => by_cases hw : w = .word <;> simp [hw, writeReg_pending]
      | cram o => dsimp only; split_ifs <;> first | rfl | (simp only [writeCram]; split_ifs <;> rfl)
      | fb b => rfl

/-- No host access itself writes the replies: the turn records them. -/
theorem AccessEffect.replies {s u : State} (h : AccessEffect s u) : u.replies = s.replies := by
  cases h <;> simp

end Sys2Proof.Machine
end

