-- ==== Sys2Proof/Laws/Encoding.lean ====
section
/-! SUPPORT. The fields of the words the encoder writes, and the opcode map both ways. -/

namespace Sys2Proof

theorem opOf_code (op : Op) : opOf op.code = some op := by cases op <;> rfl

theorem code_of_opOf {opc : BitVec 8} {op : Op} (h : opOf opc = some op) : op.code = opc := by
  unfold opOf at h
  split at h <;> simp only [Option.some.injEq, reduceCtorEq] at h
  all_goals (subst h; apply BitVec.eq_of_toNat_eq; simp_all [Op.code])

/-- An OPC value names an opcode exactly when it is at most 0x0F (R84, R88). -/
theorem opOf_eq_none_iff (opc : BitVec 8) : opOf opc = none ↔ 0x0F < opc.toNat := by
  unfold opOf
  split <;> simp_all
  omega

theorem hdrOpc_header (op : Op) (c : Colour) (f : FontSlot) (n : BitVec 16) : hdrOpc (header op c f n) = op.code := by
  apply BitVec.eq_of_getLsbD_eq
  intro i hi
  have hn : ¬i = 8 := by omega
  simp [hdrOpc, header, show i < 12 by omega, show i < 16 by omega, show i < 8 by omega, show i < 32 by omega,
    -BitVec.getLsbD_eq_getElem]

theorem hdrC_header (op : Op) (c : Colour) (f : FontSlot) (n : BitVec 16) : hdrC (header op c f n) = c := by
  cases c <;> simp [hdrC, header, -BitVec.getLsbD_eq_getElem]

theorem hdrRsv_header (op : Op) (c : Colour) (f : FontSlot) (n : BitVec 16) : hdrRsv (header op c f n) = 0 := by
  apply BitVec.eq_of_getLsbD_eq
  intro i hi
  have h1 : BitVec.getLsbD op.code (9 + i) = false := BitVec.getLsbD_of_ge _ _ (by omega)
  have h2 : BitVec.getLsbD (BitVec.ofBool c) (9 + i - 8) = false := BitVec.getLsbD_of_ge _ _ (by omega)
  simp [hdrRsv, header, show 9 + i < 12 by omega, show 9 + i < 16 by omega, h1, h2, -BitVec.getLsbD_eq_getElem]

theorem hdrF_header (op : Op) (c : Colour) (f : FontSlot) (n : BitVec 16) : hdrF (header op c f n) = f := by
  apply BitVec.eq_of_getLsbD_eq
  intro i hi
  have h1 : BitVec.getLsbD op.code (12 + i) = false := BitVec.getLsbD_of_ge _ _ (by omega)
  have h2 : BitVec.getLsbD (BitVec.ofBool c) (12 + i - 8) = false := BitVec.getLsbD_of_ge _ _ (by omega)
  simp [hdrF, header, show 12 + i < 16 by omega, show 12 + i < 32 by omega, show i < 32 by omega, h1, h2, hi, -BitVec.getLsbD_eq_getElem]

theorem hdrN_header (op : Op) (c : Colour) (f : FontSlot) (n : BitVec 16) : hdrN (header op c f n) = n := by
  apply BitVec.eq_of_getLsbD_eq
  intro i hi
  have h1 : BitVec.getLsbD op.code (16 + i) = false := BitVec.getLsbD_of_ge _ _ (by omega)
  have h2 : BitVec.getLsbD (BitVec.ofBool c) (16 + i - 8) = false := BitVec.getLsbD_of_ge _ _ (by omega)
  have h3 : BitVec.getLsbD f (16 + i - 12) = false := BitVec.getLsbD_of_ge _ _ (by omega)
  simp [hdrN, header, show 16 + i < 32 by omega, show i < 32 by omega, h1, h2, h3, hi, -BitVec.getLsbD_eq_getElem]

theorem ptA_pointWord (a b : Half) : ptA (pointWord a b) = a := by
  apply BitVec.eq_of_getLsbD_eq
  intro i hi
  simp [ptA, pointWord, hi, show i < 32 by omega, -BitVec.getLsbD_eq_getElem]

theorem ptB_pointWord (a b : Half) : ptB (pointWord a b) = b := by
  apply BitVec.eq_of_getLsbD_eq
  intro i hi
  simp [ptB, pointWord, hi, show 16 + i < 32 by omega, show i < 32 by omega, -BitVec.getLsbD_eq_getElem]

theorem cpCpt_codepointWord (u : Codepoint) : cpCpt (codepointWord u) = u := by
  apply BitVec.eq_of_getLsbD_eq
  intro i hi
  simp [cpCpt, codepointWord, hi, show i < 32 by omega, -BitVec.getLsbD_eq_getElem]

theorem cpRsv_codepointWord (u : Codepoint) : cpRsv (codepointWord u) = 0 := by
  apply BitVec.eq_of_getLsbD_eq
  intro i hi
  simp [cpRsv, codepointWord, -BitVec.getLsbD_eq_getElem]

/-- The length a header gives (R85). -/
theorem commandLen_header (op : Op) (c : Colour) (f : FontSlot) (n : BitVec 16) :
    commandLen (header op c f n) = some (op.len (header op c f n)) := by
  simp [commandLen, hdrOpc_header, opOf_code]

end Sys2Proof
end

