-- ==== Sys2Proof/Laws/Points.lean ====
section
/-! SUPPORT. Point sets: membership in unions, and what clipping keeps. -/

namespace Sys2Proof.Machine

theorem mem_intRange {a b x : Int} : x ∈ intRange a b ↔ a ≤ x ∧ x ≤ b := by
  simp only [intRange, List.mem_map, List.mem_range]
  constructor
  · rintro ⟨k, hk, rfl⟩; omega
  · rintro ⟨h1, h2⟩; exact ⟨(x - a).toNat, by omega, by omega⟩

theorem onSurface_iff {cfg : Config} {x y : Int} :
    cfg.onSurface x y = true ↔ 0 ≤ x ∧ x < (cfg.width : Int) ∧ 0 ≤ y ∧ y < (cfg.height : Int) := by
  simp [Config.onSurface]

theorem PointSet.has_iff {S : PointSet} {x y : Int} : S.has x y = true ↔ ∃ p ∈ S, p.has x y = true := by
  simp [PointSet.has]

@[simp] theorem PointSet.has_nil (x y : Int) : PointSet.has [] x y = false := rfl

@[simp] theorem PointSet.has_cons (p : Piece) (S : PointSet) (x y : Int) :
    PointSet.has (p :: S) x y = (p.has x y || PointSet.has S x y) := rfl

theorem PointSet.has_append (S T : PointSet) (x y : Int) :
    PointSet.has (S ++ T) x y = (PointSet.has S x y || PointSet.has T x y) := by simp [PointSet.has]

theorem PointSet.has_flatMap {β : Type} (l : List β) (f : β → PointSet) (x y : Int) :
    PointSet.has (l.flatMap f) x y = l.any (fun b => PointSet.has (f b) x y) := by
  simp [PointSet.has, List.any_flatMap]

@[simp] theorem Piece.has_dot (px py x y : Int) : (Piece.dot px py).has x y = decide (x = px ∧ y = py) := rfl
@[simp] theorem Piece.has_hrun (x0 x1 py x y : Int) :
    (Piece.hrun x0 x1 py).has x y = decide (y = py ∧ min x0 x1 ≤ x ∧ x ≤ max x0 x1) := rfl
@[simp] theorem Piece.has_vrun (px y0 y1 x y : Int) :
    (Piece.vrun px y0 y1).has x y = decide (x = px ∧ min y0 y1 ≤ y ∧ y ≤ max y0 y1) := rfl

/-- Clipping keeps only points of the piece. -/
theorem Piece.has_of_mem_clip {cfg : Config} {p : Piece} {x y : Int} (h : (x, y) ∈ p.clip cfg) : p.has x y = true := by
  cases p with
  | dot px py => simpa [Piece.clip] using h
  | hrun x0 x1 py =>
    simp only [Piece.clip] at h
    split_ifs at h
    · simp only [List.mem_map, mem_intRange, Prod.mk.injEq] at h
      obtain ⟨k, hk, rfl, rfl⟩ := h
      simp only [Piece.has_hrun, decide_eq_true_eq]
      exact ⟨trivial, le_trans (le_max_left _ _) hk.1, le_trans hk.2 (min_le_left _ _)⟩
    · simp at h
  | vrun px y0 y1 =>
    simp only [Piece.clip] at h
    split_ifs at h
    · simp only [List.mem_map, mem_intRange, Prod.mk.injEq] at h
      obtain ⟨k, hk, rfl, rfl⟩ := h
      simp only [Piece.has_vrun, decide_eq_true_eq]
      exact ⟨trivial, le_trans (le_max_left _ _) hk.1, le_trans hk.2 (min_le_left _ _)⟩
    · simp at h

/-- Clipping keeps every on-surface point of the piece. -/
theorem Piece.mem_clip_of_has {cfg : Config} {p : Piece} {x y : Int} (hs : cfg.onSurface x y = true) (h : p.has x y = true) :
    (x, y) ∈ p.clip cfg := by
  rw [onSurface_iff] at hs
  cases p with
  | dot px py => simpa [Piece.clip] using h
  | hrun x0 x1 py =>
    simp only [Piece.has_hrun, decide_eq_true_eq] at h
    obtain ⟨rfl, h1, h2⟩ := h
    simp only [Piece.clip, hs.2.2.1, hs.2.2.2, and_self, if_true, List.mem_map, mem_intRange, Prod.mk.injEq]
    exact ⟨x, by have := hs.1; have := hs.2.1; omega, by simp⟩
  | vrun px y0 y1 =>
    simp only [Piece.has_vrun, decide_eq_true_eq] at h
    obtain ⟨rfl, h1, h2⟩ := h
    simp only [Piece.clip, hs.1, hs.2.1, and_self, if_true, List.mem_map, mem_intRange, Prod.mk.injEq]
    exact ⟨y, by have := hs.2.2.1; have := hs.2.2.2; omega, by simp⟩

end Sys2Proof.Machine
end

