-- ==== Sys2Proof/Laws/Framebuffer.lean ====
section
/-! SUPPORT. What the framebuffer operations do, once for each: a byte write, SetPixel, Paint, CLEAR's fill. -/

namespace Sys2Proof.Machine

theorem setFbByte_fbByte (s : State) (i k : Nat) (v : Byte) :
    (s.setFbByte i v).fbByte k = if k = i then v else s.fbByte k := by
  simp only [State.fbByte, State.setFbByte, cellsGet_cellsSet]
  split_ifs <;> rfl

/-- After a fill, every byte of FB reads as the value. -/
theorem fillFb_fbByte_lt (s : State) (v : Byte) {k : Nat} (h : k < s.cfg.fbSize) : (s.fillFb v).fbByte k = v := by
  simp [State.fbByte, State.fillFb, cellsGet_map_range, h]

theorem pixelBit_lt (x : Int) : pixelBit x < 8 := by unfold pixelBit; omega

theorem pixelMask_getLsbD (x : Int) {j : Nat} (hj : j < 8) : (pixelMask x).getLsbD j = decide (pixelBit x = j) := by
  have hk : x.toNat % 8 < 8 := Nat.mod_lt _ (by decide)
  unfold pixelMask pixelBit
  generalize x.toNat % 8 = k at hk
  have all : ∀ k' : Fin 8, ∀ j' : Fin 8, ((0x80 : Byte) >>> (k' : Nat)).getLsbD j' = decide (7 - (k' : Nat) = j') := by
    decide
  exact all ⟨k, hk⟩ ⟨j, hj⟩

/-- The masked write: the mask's bits take the colour. -/
theorem maskByte_getLsbD (c : Colour) (m b : Byte) {j : Nat} (hj : j < 8) :
    (maskByte c m b).getLsbD j = if m.getLsbD j then c else b.getLsbD j := by
  cases c <;> cases hm : m.getLsbD j <;> simp [maskByte, hm, hj, BitVec.getLsbD_not, -BitVec.getLsbD_eq_getElem]

/-- The pixel test of R51 reads the pixel's bit. -/
theorem pixel_eq_getLsbD (s : State) (x y : Int) :
    s.pixel x y = (s.fbByte (s.cfg.pixelByte x y)).getLsbD (pixelBit x) := by
  unfold State.pixel
  generalize s.fbByte (s.cfg.pixelByte x y) = b
  have hb := pixelBit_lt x
  cases h : b.getLsbD (pixelBit x)
  · suffices b &&& pixelMask x = 0 by simp [this]
    apply BitVec.eq_of_getLsbD_eq
    intro j hj
    rw [BitVec.getLsbD_and, pixelMask_getLsbD x hj]
    by_cases hjx : pixelBit x = j
    · subst hjx; simp [h]
    · simp [hjx]
  · have : (b &&& pixelMask x).getLsbD (pixelBit x) = true := by
      rw [BitVec.getLsbD_and, pixelMask_getLsbD x hb]; simp [h]
    have hne : b &&& pixelMask x ≠ 0 := by intro h0; rw [h0] at this; simp at this
    simpa using hne

/-- SetPixel, bit by bit (R113). -/
theorem setPixel_getLsbD (x y : Int) (c : Colour) (s : State) (i : Nat) {j : Nat} (hj : j < 8) :
    ((setPixel x y c s).fbByte i).getLsbD j =
      if s.cfg.onSurface x y = true ∧ s.cfg.pixelByte x y = i ∧ pixelBit x = j then c else (s.fbByte i).getLsbD j := by
  unfold setPixel
  by_cases h : s.cfg.onSurface x y = true
  · simp only [h, if_true, true_and, setFbByte_fbByte]
    by_cases hi : i = s.cfg.pixelByte x y
    · subst hi
      rw [if_pos rfl, maskByte_getLsbD c _ _ hj, pixelMask_getLsbD x hj]
      simp
    · rw [if_neg hi, if_neg (by rintro ⟨h1, _⟩; exact hi h1.symm)]
  · rw [if_neg h, if_neg (by rintro ⟨h1, _⟩; exact h h1)]

theorem paintsExactly_congr {S T : Int → Int → Prop} {c : Colour} {s t : State}
    (h : ∀ x y, s.cfg.onSurface x y = true → (S x y ↔ T x y)) (hp : PaintsExactly S c s t) : PaintsExactly T c s t := by
  have hP : ∀ i j, Painted s.cfg S i j ↔ Painted s.cfg T i j := by
    intro i j
    constructor
    · rintro ⟨x, y, hs, hS, h1, h2⟩; exact ⟨x, y, hs, (h x y hs).1 hS, h1, h2⟩
    · rintro ⟨x, y, hs, hS, h1, h2⟩; exact ⟨x, y, hs, (h x y hs).2 hS, h1, h2⟩
  intro i j hj
  rw [← hP i j]
  exact hp i j hj

theorem paintPoints_exactly (c : Colour) (l : List (Int × Int)) (s : State) :
    PaintsExactly (fun x y => (x, y) ∈ l) c s (paintPoints c l s) := by
  induction l generalizing s with
  | nil =>
    intro i j _
    exact ⟨by rintro ⟨x, y, _, h, _⟩; simp at h, fun _ => rfl⟩
  | cons p l ih =>
    intro i j hj
    obtain ⟨h1, h2⟩ := ih (setPixel p.1 p.2 c s) i j hj
    simp only [setPixel_cfg] at h1 h2
    simp only [paintPoints]
    by_cases hl : Painted s.cfg (fun x y => (x, y) ∈ l) i j
    · refine ⟨fun _ => h1 hl, fun hn => (hn ?_).elim⟩
      obtain ⟨x, y, hs, hm, he, hb⟩ := hl
      exact ⟨x, y, hs, List.mem_cons_of_mem _ hm, he, hb⟩
    · rw [h2 hl, setPixel_getLsbD _ _ _ _ _ hj]
      refine ⟨?_, ?_⟩
      · rintro ⟨x, y, hs, hm, he, hb⟩
        rcases List.mem_cons.1 hm with rfl | hm
        · rw [if_pos ⟨hs, he, hb⟩]
        · exact (hl ⟨x, y, hs, hm, he, hb⟩).elim
      · intro hn
        rw [if_neg]
        rintro ⟨hs, he, hb⟩
        exact hn ⟨p.1, p.2, hs, List.mem_cons_self, he, hb⟩

/-- Paint (R114): the on-surface points of the set take the colour, every other bit of FB is as before. -/
theorem paint_exactly (S : PointSet) (c : Colour) (s : State) :
    PaintsExactly (fun x y => S.has x y = true) c s (paint S c s) := by
  refine paintsExactly_congr (fun x y hs => ?_) (paintPoints_exactly c (S.flatMap (Piece.clip s.cfg)) s)
  rw [List.mem_flatMap, PointSet.has_iff]
  constructor
  · rintro ⟨p, hp, hm⟩; exact ⟨p, hp, Piece.has_of_mem_clip hm⟩
  · rintro ⟨p, hp, hm⟩; exact ⟨p, hp, Piece.mem_clip_of_has hs hm⟩

theorem paintsExactly_bytes {S : Int → Int → Prop} {c : Colour} {s t : State} (h : PaintsExactly S c s t) (i : Nat)
    (hi : ∀ j, ¬Painted s.cfg S i j) : t.fbByte i = s.fbByte i := by
  apply BitVec.eq_of_getLsbD_eq
  intro j hj
  exact (h i j hj).2 (hi j)

/-- The painted byte of an on-surface point exists (R52). -/
theorem pixelByte_lt (cfg : Config) {x y : Int} (h : cfg.onSurface x y = true) : cfg.pixelByte x y < cfg.fbSize := by
  obtain ⟨hx0, hx, hy0, hy⟩ := onSurface_iff.1 h
  have h1 : x.toNat / 8 < cfg.stride := by unfold Config.stride; omega
  have h2 : y.toNat + 1 ≤ cfg.height := by omega
  have h3 : (y.toNat + 1) * cfg.stride ≤ cfg.height * cfg.stride := Nat.mul_le_mul_right _ h2
  unfold Config.pixelByte Config.fbSize
  rw [Nat.mul_comm cfg.stride cfg.height]
  have : (y.toNat + 1) * cfg.stride = y.toNat * cfg.stride + cfg.stride := by ring
  omega

/-- Two on-surface points share a bit of FB only if they are the same point (R51). -/
theorem pixelByte_pixelBit_inj (cfg : Config) {x y x' y' : Int} (h : cfg.onSurface x y = true) (h' : cfg.onSurface x' y' = true)
    (hb : cfg.pixelByte x y = cfg.pixelByte x' y') (hj : pixelBit x = pixelBit x') : x = x' ∧ y = y' := by
  obtain ⟨hx0, hx, hy0, hy⟩ := onSurface_iff.1 h
  obtain ⟨hx0', hx', hy0', hy'⟩ := onSurface_iff.1 h'
  have h1 : x.toNat / 8 < cfg.stride := by unfold Config.stride; omega
  have h1' : x'.toNat / 8 < cfg.stride := by unfold Config.stride; omega
  unfold Config.pixelByte at hb
  have hyy : y.toNat = y'.toNat := by
    have e1 := congrArg (· / cfg.stride) hb
    have hpos : 0 < cfg.stride := by omega
    simpa [Nat.mul_comm _ cfg.stride, Nat.mul_add_div hpos, Nat.div_eq_of_lt h1, Nat.div_eq_of_lt h1'] using e1
  rw [hyy] at hb
  unfold pixelBit at hj
  constructor <;> omega

theorem setPixel_wf {x y : Int} {c : Colour} {s : State} (h : cellsWf s.cfg.fbSize s.fb = true) :
    cellsWf s.cfg.fbSize (setPixel x y c s).fb = true := by
  unfold setPixel
  split_ifs with hs
  · exact cellsWf_cellsSet h (pixelByte_lt s.cfg hs)
  · exact h

theorem paintPoints_wf (c : Colour) (l : List (Int × Int)) {s : State} (h : cellsWf s.cfg.fbSize s.fb = true) :
    cellsWf s.cfg.fbSize (paintPoints c l s).fb = true := by
  induction l generalizing s with
  | nil => exact h
  | cons p l ih =>
    have := ih (s := setPixel p.1 p.2 c s) (by simpa using setPixel_wf h)
    simpa [paintPoints] using this

/-- Paint keeps FB in canonical form. -/
theorem paint_wf (S : PointSet) (c : Colour) {s : State} (h : cellsWf s.cfg.fbSize s.fb = true) :
    cellsWf s.cfg.fbSize (paint S c s).fb = true := paintPoints_wf c _ h

/-- The fill of CLEAR leaves FB in canonical form. -/
theorem fillFb_wf (s : State) (v : Byte) : cellsWf s.cfg.fbSize (s.fillFb v).fb = true := cellsWf_map_range _ _

/-- The memories of the reset state are in canonical form. -/
theorem reset_wf : cellsWf State.reset.cfg.fbSize State.reset.fb = true ∧
    cellsWf State.reset.cfg.nCram State.reset.cram = true := ⟨cellsWf_nil _, cellsWf_nil _⟩

end Sys2Proof.Machine
end

