-- ==== Sys2Proof/Laws/Fonts.lean ====
section
/-! SUPPORT. What the font checks answer, and what TextRun leaves alone. -/

namespace Sys2Proof.Machine

/-- The font checks pass exactly with the slot's font, of 1 bit per pixel where it is to be rendered (R222). -/
theorem fontChecks_ok_iff {renders : Bool} {f : FontSlot} {s : State} {font : Font} :
    fontChecks renders f s = .ok font ↔
      s.font f = some font ∧ (renders = true → font.bitsPerPixel = 1) := by
  unfold fontChecks
  cases hf : s.font f with
  | none => simp
  | some g =>
    by_cases hb : g.bitsPerPixel = 1
    · simp [hb]; rintro rfl _; exact hb
    · cases renders
      · simp
      · simp only [Bool.true_and, bne_iff_ne, ne_eq, hb, not_false_eq_true, if_true, Option.some.injEq, true_imp_iff]
        constructor
        · intro h; cases h
        · rintro ⟨rfl, h⟩; exact (hb h).elim

/-- The font checks fail with ERR_NO_FONT for a missing font and with ERR_FONT_BPP for one of another depth (R222). -/
theorem fontChecks_error_iff {renders : Bool} {f : FontSlot} {s : State} {e : ErrorCode} :
    fontChecks renders f s = .error e ↔
      (s.font f = none ∧ e = .noFont) ∨
        (∃ font, s.font f = some font ∧ renders = true ∧ font.bitsPerPixel ≠ 1 ∧ e = .fontBpp) := by
  unfold fontChecks
  cases hf : s.font f with
  | none => simp; exact eq_comm
  | some g =>
    by_cases hb : g.bitsPerPixel = 1 <;> cases renders <;> simp [hb]
    exact eq_comm

theorem setPixel_eq (x y : Int) (c : Colour) (s : State) :
    setPixel x y c s = { s with fb := (setPixel x y c s).fb } := by
  unfold setPixel
  split_ifs <;> rfl

/-- Paint changes FB alone. -/
theorem paint_eq (S : PointSet) (c : Colour) (s : State) : paint S c s = { s with fb := (paint S c s).fb } := by
  unfold paint
  generalize S.flatMap (Piece.clip s.cfg) = l
  induction l generalizing s with
  | nil => rfl
  | cons p l ih =>
    have h := ih (setPixel p.1 p.2 c s)
    have h2 := setPixel_eq p.1 p.2 c s
    simp only [paintPoints]
    generalize setPixel p.1 p.2 c s = u at h h2 ⊢
    rw [h, h2]

/-- TextRun changes FB alone. -/
theorem textRun_eq (font : Font) (top : Int) (c : Colour) (xo : Int) (cps : List Codepoint) (x : Int) (s : State) :
    (textRun font top c xo cps x s).1 = { s with fb := (textRun font top c xo cps x s).1.fb } := by
  induction cps generalizing x s with
  | nil => rfl
  | cons cp rest ih =>
    unfold textRun
    split_ifs
    · rfl
    · split
      · exact ih x s
      · rename_i G _
        have h := ih (x + (G.widthPx : Int) + xo) (paint (glyphSet font G x top) c s)
        have h2 := paint_eq (glyphSet font G x top) c s
        generalize paint (glyphSet font G x top) c s = u at h h2 ⊢
        rw [h, h2]

/-- TextRun keeps FB in canonical form. -/
theorem textRun_wf (font : Font) (top : Int) (c : Colour) (xo : Int) (cps : List Codepoint) (x : Int) {s : State}
    (h : cellsWf s.cfg.fbSize s.fb = true) :
    cellsWf s.cfg.fbSize (textRun font top c xo cps x s).1.fb = true := by
  induction cps generalizing x s with
  | nil => exact h
  | cons cp rest ih =>
    unfold textRun
    split_ifs
    · exact h
    · split
      · exact ih x h
      · rename_i G _
        simpa using ih (x + (G.widthPx : Int) + xo) (s := paint (glyphSet font G x top) c s) (by simpa using paint_wf _ c h)

end Sys2Proof.Machine
end

