-- ==== Sys2Proof/Laws/Step.lean ====
section
/-! SUPPORT. What a step can do: one inversion lemma for the engine's turn and one for the step. -/

namespace Sys2Proof.Machine

/-- An engine turn that answers a state: idle, the error stop of a failed decode, or the decoded instruction's
meaning. -/
theorem engineTurn_cases {s t : State} (h : engineTurn s = .next t) :
    (s.busy = false ∧ t = s) ∨
      (s.busy = true ∧
        ((∃ e, decode (fetchWords s) = .error e ∧ t = errorStop (decodeErrorCode e) s) ∨
          ∃ i, decode (fetchWords s) = .ok i ∧ exec i s = .next t)) := by
  unfold engineTurn at h
  cases hb : s.busy
  · rw [hb] at h
    simp only [Bool.false_eq_true, if_false, Host.Outcome.next.injEq] at h
    exact .inl ⟨rfl, h.symm⟩
  · rw [hb] at h
    simp only [if_true] at h
    refine .inr ⟨rfl, ?_⟩
    unfold engineStep at h
    split at h
    · rename_i e he
      simp only [Host.Outcome.next.injEq] at h
      exact .inl ⟨e, he, h.symm⟩
    · rename_i i hi
      exact .inr ⟨i, hi, h⟩

/-- A step that answers a state: in a legal configuration, the engine's turn, a host access or a reset. -/
theorem step_cases {s t : State} (h : step s = .next t) :
    s.cfg.legal = true ∧
      ((s.pending = [] ∧ engineTurn s = .next t) ∨
        (∃ rest, s.pending = .engine :: rest ∧ engineTurn { s with pending := rest } = .next t) ∨
        (∃ a rest, s.pending = .host a :: rest ∧ t = hostTurn a { s with pending := rest }) ∨
        (∃ rest, s.pending = .reset :: rest ∧ t = resetTurn { s with pending := rest })) := by
  unfold step at h
  split_ifs at h with hl
  refine ⟨hl, ?_⟩
  split at h
  · rename_i hp; exact .inl ⟨hp, h⟩
  · rename_i a rest hp
    simp only [Host.Outcome.next.injEq] at h
    exact .inr (.inr (.inl ⟨a, rest, hp, h.symm⟩))
  · rename_i rest hp; exact .inr (.inl ⟨rest, hp, h⟩)
  · rename_i rest hp
    simp only [Host.Outcome.next.injEq] at h
    exact .inr (.inr (.inr ⟨rest, hp, h.symm⟩))

/-- Every meaning answers a next state: the block has no fault and no refusal inside a run (R224, R225). -/
theorem exec_next (i : Instr) (s : State) : ∃ t, exec i s = .next t := by
  cases i <;> simp only [exec]
  case glyph cp x y c f => unfold execGlyph; split <;> exact ⟨_, rfl⟩
  case text cps x y c f xo yo => unfold execText; split <;> exact ⟨_, rfl⟩
  case gwidth f cp => unfold execGwidth; split <;> exact ⟨_, rfl⟩
  case fheight f => unfold execFheight; split <;> exact ⟨_, rfl⟩
  all_goals exact ⟨_, rfl⟩

end Sys2Proof.Machine
end

