-- ==== Sys2Proof/Laws/Exec.lean ====
section
/-! SUPPORT. What any command can do to the state, once for all commands. -/

open Sys2Proof Sys2Proof.Machine

namespace Sys2Proof.Machine

/-- The error stop is all that `StopsWith` says (R223). -/
theorem stops_errorStop (code) (s : State) : StopsWith code s (errorStop code s) := by
  constructor <;> simp [errorStop]
  intro i; rfl

/-- Where the engine moves, the state it moves from is the state itself but for the turns pending. -/
theorem engineMoves_eq {s u : State} (h : EngineMoves s u) : u = { s with pending := u.pending } := by
  rcases h with ⟨-, rfl⟩ | ⟨rest, -, rfl⟩ <;> rfl

/-- Where the engine moves, the step is the engine's turn. -/
theorem step_of_engineMoves {s u : State} (hl : s.cfg.legal = true) (h : EngineMoves s u) : step s = engineTurn u := by
  rcases h with ⟨hp, rfl⟩ | ⟨rest, hp, rfl⟩ <;> simp [step, hl, hp]

/-- Painting leaves alone everything but FB. -/
theorem paint_same (S c) (s : State) : SameControl s (paint S c s) ∧ (paint S c s).result = s.result ∧ (paint S c s).cp = s.cp := by
  rw [paint_eq]
  exact ⟨⟨rfl, rfl, fun _ => rfl, rfl, rfl, rfl, rfl, rfl, rfl, rfl, rfl, rfl⟩, rfl, rfl⟩

/-- Everything a command can do: the error stop, the stop of END, or a new FB in canonical form, a new RESULT and the advance of CP past the command. -/
theorem exec_shape (i : Instr) (s t : State) (h : exec i s = .next t) :
    (∃ code, code ≠ .noError ∧ t = errorStop code s) ∨
    (i = .endRun ∧ t = endStop (s.advance 1)) ∨
    (i ≠ .endRun ∧ ∃ fb r, t = ({ s with fb := fb, result := r } : State).advance (encode i).length ∧
      (cellsWf s.cfg.fbSize s.fb = true → cellsWf s.cfg.fbSize fb = true)) := by
  cases i <;> simp only [exec] at h
  case nop => simp [execNop] at h; right; right; exact ⟨by simp, s.fb, s.result, by simp [encode, ← h], id⟩
  case endRun => simp [execEnd] at h; right; left; exact ⟨rfl, h.symm⟩
  case clear c => simp [execClear] at h; right; right; exact ⟨by simp, _, s.result, by simp [encode, ← h, State.fillFb]; rfl, fun _ => by
    have := fillFb_wf s (clearByte c); simpa [State.fillFb] using this⟩
  case setpix x y c => 
    simp [execSetpix] at h; right; right
    refine ⟨by simp, (setPixel (coord x) (coord y) c s).fb, s.result, by rw [← h, setPixel_eq]; simp [encode], fun hw => setPixel_wf hw⟩
  case getpix x y => simp [execGetpix] at h; right; right; exact ⟨by simp, s.fb, _, by rw [← h]; simp [encode, State.setResult]; rfl, id⟩
  case glyph cp x y c f =>
    simp only [execGlyph] at h
    split at h
    · rename_i e he; simp at h; left; refine ⟨e, ?_, h.symm⟩; unfold fontChecks at he; split at he <;> simp at he; subst he; simp; split at he <;> simp at he; subst he; simp
    · rename_i font he; simp at h; right; right
      refine ⟨by simp, (drawGlyph font cp (coord x) (coord y) c s).fb, (drawGlyph font cp (coord x) (coord y) c s).result, ?_, ?_⟩
      · rw [← h]; unfold drawGlyph; split 
        · simp [encode, State.setResult]
        · rw [paint_eq]; simp [encode, State.setResult]
      · unfold drawGlyph; split
        · exact id
        · intro hw; exact paint_wf _ _ hw
  case text cps x y c f xo yo =>
    simp only [execText] at h
    split at h
    · rename_i e he; simp at h; left; refine ⟨e, ?_, h.symm⟩; unfold fontChecks at he; split at he <;> simp at he; subst he; simp; split at he <;> simp at he; subst he; simp
    · rename_i font he; simp at h; right; right
      refine ⟨by simp, (drawText font cps (coord x) (coord y) c (coord xo) (coord yo) s).fb, (drawText font cps (coord x) (coord y) c (coord xo) (coord yo) s).result, ?_, ?_⟩
      · rw [← h]; simp only [drawText, encode, State.setResult]; rw [textRun_eq]; simp [show 1 + (1 + (1 + cps.length)) = 3 + cps.length by omega, Nat.add_comm]
      · intro hw; exact textRun_wf _ _ _ _ _ _ hw
  case gwidth f cp =>
    simp only [execGwidth] at h
    split at h
    · rename_i e he; simp at h; left; refine ⟨e, ?_, h.symm⟩; unfold fontChecks at he; split at he <;> simp at he; subst he; simp
    · rename_i font he; simp at h; right; right
      exact ⟨by simp, s.fb, _, by rw [← h]; simp [encode, State.setResult]; rfl, id⟩
  case fheight f =>
    simp only [execFheight] at h
    split at h
    · rename_i e he; simp at h; left; refine ⟨e, ?_, h.symm⟩; unfold fontChecks at he; split at he <;> simp at he; subst he; simp
    · rename_i font he; simp at h; right; right
      exact ⟨by simp, s.fb, _, by rw [← h]; simp [encode, State.setResult]; rfl, id⟩
  all_goals
    simp only [execHspan, execVspan, execLine, execRect, execFrect, execCircle, execFcircle, Host.Outcome.next.injEq] at h
    right; right
    refine ⟨by simp, _, s.result, by rw [← h, paint_eq]; rfl, fun hw => paint_wf _ _ hw⟩

end Sys2Proof.Machine
end

