-- ==== Sys2Proof/Laws/Words.lean ====
section
/-! SUPPORT. Encoder words as numbers, words rebuilt from their fields, and what `decode` can answer. -/

open Sys2Proof Sys2Proof.Machine

namespace Sys2Proof

/-- A header word is the sum of R81. -/
theorem header_eq (op : Op) (c : Colour) (f : FontSlot) (n : BitVec 16) :
    header op c f n = hdrWord op.code.toNat c f.toNat n.toNat := by
  apply BitVec.eq_of_toNat_eq
  have ho : op.code.toNat < 2^8 := op.code.isLt
  have hf : f.toNat < 2^4 := f.isLt
  have hn : n.toNat < 2^16 := n.isLt
  have hc : c.toNat < 2 := by cases c <;> decide
  have e1 : (op.code.setWidth 32 : Word).toNat = op.code.toNat := by simp; omega
  have e2 : ((BitVec.ofBool c).setWidth 32 <<< 8 : Word).toNat = c.toNat <<< 8 := by cases c <;> rfl
  have e3 : (f.setWidth 32 <<< 12 : Word).toNat = f.toNat <<< 12 := by
    simp [Nat.shiftLeft_eq]; omega
  have e4 : (n.setWidth 32 <<< 16 : Word).toNat = n.toNat <<< 16 := by
    simp [Nat.shiftLeft_eq]; omega
  unfold header hdrWord
  rw [BitVec.toNat_or, BitVec.toNat_or, BitVec.toNat_or, e1, e2, e3, e4, BitVec.toNat_ofNat]
  rw [Nat.or_comm op.code.toNat, ← Nat.shiftLeft_add_eq_or_of_lt ho,
    Nat.or_comm _ (f.toNat <<< 12), ← Nat.shiftLeft_add_eq_or_of_lt (i := 12) (by rw [Nat.shiftLeft_eq]; omega),
    Nat.or_comm _ (n.toNat <<< 16), ← Nat.shiftLeft_add_eq_or_of_lt (i := 16) (by simp only [Nat.shiftLeft_eq]; omega)]
  simp only [Nat.shiftLeft_eq]
  rw [Nat.mod_eq_of_lt] <;> omega

/-- A point word is the sum of R82. -/
theorem pointWord_eq (a b : Half) : pointWord a b = pWord a b := by
  apply BitVec.eq_of_toNat_eq
  have ha := a.isLt
  have hb := b.isLt
  have e1 : (a.setWidth 32 : Word).toNat = a.toNat := by simp; omega
  have e4 : (b.setWidth 32 <<< 16 : Word).toNat = b.toNat <<< 16 := by
    simp [Nat.shiftLeft_eq]; omega
  unfold pointWord pWord
  rw [BitVec.toNat_or, e1, e4, BitVec.toNat_ofNat, Nat.or_comm, ← Nat.shiftLeft_add_eq_or_of_lt ha, Nat.shiftLeft_eq]
  omega

/-- A codepoint word is the number of R83. -/
theorem codepointWord_eq (u : Codepoint) : codepointWord u = uWord u := by
  apply BitVec.eq_of_toNat_eq
  simp [codepointWord, uWord]

/-- A header with zeros in the fields its command lacks is not reserved (R87). -/
theorem headerReserved_header (op : Op) (c f n) (hc : op.hasC = true ∨ c = false) (hf : op.hasF = true ∨ f = 0)
    (hn : op.hasN = true ∨ n = 0) : headerReserved op (header op c f n) = false := by
  simp only [headerReserved, hdrRsv_header, hdrC_header, hdrF_header, hdrN_header]
  rcases hc with hc | hc <;> rcases hf with hf | hf <;> rcases hn with hn | hn <;> simp [hc, hf, hn]

/-- Decoding a command whose words are all there reads exactly them (R90). -/
theorem decode_words (op : Op) (h : Word) (args rest : List Word) (ho : opOf (hdrOpc h) = some op)
    (hl : args.length + 1 = op.len h) :
    decode (h :: (args ++ rest)) =
      if headerReserved op h || argsReserved op args then .error .reserved else .ok (assemble op h args) := by
  simp only [decode, ho]
  rw [if_neg (by simp; omega)]
  rw [show op.len h - 1 = args.length by omega, List.take_left']
  rfl

/-- A point word is its two halves. -/
theorem pointWord_ptA_ptB (w : Word) : pointWord (ptA w) (ptB w) = w := by
  apply BitVec.eq_of_getLsbD_eq
  intro i hi
  by_cases h : i < 16
  · simp [pointWord, ptA, ptB, h, hi, -BitVec.getLsbD_eq_getElem]
  · simp [pointWord, ptA, ptB, h, hi, show i - 16 < 16 by omega, show i - 16 < 32 by omega, show 16 + (i - 16) = i by omega, -BitVec.getLsbD_eq_getElem]

/-- A codepoint word with RSV = 0 is its codepoint. -/
theorem codepointWord_cpCpt (w : Word) (h0 : cpRsv w = 0) : codepointWord (cpCpt w) = w := by
  apply BitVec.eq_of_getLsbD_eq
  intro i hi
  by_cases h : i < 21
  · simp [codepointWord, cpCpt, h, hi, -BitVec.getLsbD_eq_getElem]
  · have := congrArg (fun v => v.getLsbD (i - 21)) h0
    simp [cpRsv, show i - 21 < 11 by omega, show 21 + (i - 21) = i by omega, -BitVec.getLsbD_eq_getElem] at this
    simp [codepointWord, cpCpt, h, hi, this, -BitVec.getLsbD_eq_getElem]

/-- A header word with RSV = 0 is its fields. -/
theorem header_fields (op : Op) (h : Word) (ho : op.code = hdrOpc h) (h0 : hdrRsv h = 0) :
    header op (hdrC h) (hdrF h) (hdrN h) = h := by
  unfold header
  rw [ho]
  apply BitVec.eq_of_getLsbD_eq
  intro i hi
  have hr : ∀ k, k < 3 → h.getLsbD (9 + k) = false := by
    intro k hk
    have := congrArg (fun v => v.getLsbD k) h0
    simpa [hdrRsv, hk, -BitVec.getLsbD_eq_getElem] using this
  have hb : ∀ b : Bool, ∀ k, (BitVec.ofBool b).getLsbD k = (decide (k = 0) && b) := by
    intro b k; cases b <;> simp [BitVec.ofBool] 
  simp only [BitVec.getLsbD_or, BitVec.getLsbD_shiftLeft, BitVec.getLsbD_setWidth, hdrOpc, hdrC, hdrF, hdrN, BitVec.getLsbD_extractLsb', hb, hi]
  rcases Nat.lt_or_ge i 8 with h8 | h8
  · simp [h8, show i < 12 by omega, show i < 16 by omega, -BitVec.getLsbD_eq_getElem]
  rcases Nat.lt_or_ge i 9 with h9 | h9
  · obtain rfl : i = 8 := by omega
    simp [-BitVec.getLsbD_eq_getElem]
  rcases Nat.lt_or_ge i 12 with h12 | h12
  · have := hr (i - 9) (by omega)
    rw [show 9 + (i - 9) = i by omega] at this
    simp [h12, show i < 16 by omega, show ¬ i < 8 by omega, show ¬ (i - 8 = 0) by omega, this, -BitVec.getLsbD_eq_getElem]
  rcases Nat.lt_or_ge i 16 with h16 | h16
  · simp [show ¬ i < 12 by omega, show i < 16 by omega, show ¬ i < 8 by omega, show ¬ (i - 8 = 0) by omega, show i - 12 < 4 by omega, show 12 + (i - 12) = i by omega, show i - 12 < 32 by omega, -BitVec.getLsbD_eq_getElem]
  · simp [show ¬ i < 12 by omega, show ¬ i < 16 by omega, show ¬ i < 8 by omega, show ¬ (i - 8 = 0) by omega, show ¬ i - 12 < 4 by omega, show i - 16 < 16 by omega, show 16 + (i - 16) = i by omega, show i - 16 < 32 by omega, -BitVec.getLsbD_eq_getElem]

/-- All that a successful decoding says (R90). -/
theorem decode_ok {ws : List Word} {i : Instr} (h : decode ws = .ok i) :
    ∃ op hd args rest, ws = hd :: (args ++ rest) ∧ opOf (hdrOpc hd) = some op ∧ args.length + 1 = op.len hd ∧
      headerReserved op hd = false ∧ argsReserved op args = false ∧ i = assemble op hd args := by
  cases ws with
  | nil => simp [decode] at h
  | cons hd tl =>
    simp only [decode] at h
    split at h
    · simp at h
    · rename_i op ho
      split_ifs at h with h1 h2
      simp only [Except.ok.injEq] at h
      have hpos : 1 ≤ op.len hd := by cases op <;> simp only [Op.len] <;> omega
      refine ⟨op, hd, tl.take (op.len hd - 1), tl.drop (op.len hd - 1), by simp, ho, ?_, ?_, ?_, h.symm⟩
      · simp; omega
      · simp at h2; exact h2.1
      · simp at h2; exact h2.2

end Sys2Proof
end

