-- ==== Sys2Proof/Laws/Fetch.lean ====
section
/-! SUPPORT. What the engine fetches at CP, and what a successful decode of it says. -/

open Sys2Proof Sys2Proof.Machine

namespace Sys2Proof.Machine

/-- Every command has a header word (R85). -/
theorem len_pos (op : Op) (h : Word) : 1 ≤ op.len h := by cases op <;> simp only [Op.len] <;> omega

/-- Past CRAM the engine fetches nothing (R221). -/
theorem fetch_over (s : State) (h : s.cfg.nCram ≤ s.cp.toNat) : fetchWords s = [] := by
  simp [fetchWords, fetchCount, Nat.not_lt.2 h]

/-- Where the command is illegal or does not fit, the engine fetches the header alone (R59). -/
theorem fetch_one (s : State) (h : s.cp.toNat < s.cfg.nCram)
   (h2 : ∀ n, commandLen (s.cramWord s.cp.toNat) = some n → s.cfg.nCram < s.cp.toNat + n) : fetchWords s = [s.cramWord s.cp.toNat] := by
  have : fetchCount s = 1 := by
    simp only [fetchCount, h, if_true]
    cases hc : commandLen (s.cramWord s.cp.toNat) with
    | none => rfl
    | some n => simp [Nat.not_le.2 (h2 n hc)]
  simp [fetchWords, this, List.range_succ]

/-- Where the command fits, the engine fetches exactly its words (R59). -/
theorem fetch_all (s : State) (op) (ho : opOf (hdrOpc (s.cramWord s.cp.toNat)) = some op)
   (h : s.cp.toNat + op.len (s.cramWord s.cp.toNat) ≤ s.cfg.nCram) :
   fetchWords s = s.cramWord s.cp.toNat :: (List.range (op.len (s.cramWord s.cp.toNat) - 1)).map (fun k => s.cramWord (s.cp.toNat + (k + 1))) := by
  have hp := len_pos op (s.cramWord s.cp.toNat)
  have : fetchCount s = op.len (s.cramWord s.cp.toNat) := by
    simp only [fetchCount, commandLen, ho]
    rw [if_pos (by omega)]; simp [h]
  obtain ⟨n, hn⟩ : ∃ n, op.len (s.cramWord s.cp.toNat) = n + 1 := ⟨_, (Nat.succ_pred_eq_of_pos hp).symm⟩
  simp [fetchWords, this, hn, List.range_succ_eq_map]

/-- A decoded command encodes to as many words as its header says. -/
theorem commandLen_encode {i : Instr} (op : Op) (hd : Word) (args rest) (ho : opOf (hdrOpc hd) = some op) (hl : args.length + 1 = op.len hd)
  (h : decode (hd :: (args ++ rest)) = .ok i) : (encode i).length = op.len hd := by
  rw [decode_words op hd args rest ho hl] at h
  split at h
  · simp at h
  · simp at h; subst h
    cases op <;> simp [assemble, encode, Op.len] at hl ⊢
    omega

/-- A successful fetch and decode: the command lies in CRAM and has the length of its encoding. -/
theorem run_ok {s : State} {i : Instr} (hd : decode (fetchWords s) = .ok i) :
    ∃ n, commandLen (s.cramWord s.cp.toNat) = some n ∧ n = (encode i).length ∧ 1 ≤ n ∧ s.cp.toNat + n ≤ s.cfg.nCram := by
  by_cases hlt : s.cp.toNat < s.cfg.nCram
  swap
  · rw [fetch_over s (by omega)] at hd; simp [decode] at hd
  cases ho : opOf (hdrOpc (s.cramWord s.cp.toNat)) with
  | none => rw [fetch_one s hlt (by simp [commandLen, ho])] at hd; simp [decode, ho] at hd
  | some op =>
    have hpos := len_pos op (s.cramWord s.cp.toNat)
    by_cases hfit : s.cp.toNat + op.len (s.cramWord s.cp.toNat) ≤ s.cfg.nCram
    · refine ⟨op.len (s.cramWord s.cp.toNat), by simp [commandLen, ho], ?_, hpos, hfit⟩
      rw [fetch_all s op ho hfit] at hd
      rw [← List.append_nil ((List.range _).map _)] at hd
      exact (commandLen_encode op _ _ _ ho (by simp; omega) hd).symm
    · rw [fetch_one s hlt (by simp only [commandLen, ho, Option.map_some, Option.some.injEq]; rintro n rfl; omega)] at hd
      simp only [decode, ho] at hd
      rw [if_pos (by simp; omega)] at hd; simp at hd

end Sys2Proof.Machine
end

