-- ==== Sys2Proof/Laws/PerInstr.lean ====
section
/-! SUPPORT. The per-instruction family `EncodeLength`: the header the encoder writes gives the number of words it writes
(30_encoding.md rule R85). -/

namespace Sys2Proof.Laws

/-- The words of a well-formed instruction are as many as its header says. -/
def EncodeLength.Statement (i : Instr) : Prop :=
  i.wellFormed = true → commandLen ((encode i).headD 0) = some (encode i).length

theorem EncodeLength.nop : EncodeLength.Statement .nop := fun _ => commandLen_header _ _ _ _
theorem EncodeLength.endRun : EncodeLength.Statement .endRun := fun _ => commandLen_header _ _ _ _
theorem EncodeLength.clear (c : Colour) : EncodeLength.Statement (.clear c) := fun _ => commandLen_header _ _ _ _
theorem EncodeLength.setpix (x y : Half) (c : Colour) : EncodeLength.Statement (.setpix x y c) :=
  fun _ => commandLen_header _ _ _ _
theorem EncodeLength.getpix (x y : Half) : EncodeLength.Statement (.getpix x y) := fun _ => commandLen_header _ _ _ _
theorem EncodeLength.hspan (x0 x1 y : Half) (c : Colour) : EncodeLength.Statement (.hspan x0 x1 y c) :=
  fun _ => commandLen_header _ _ _ _
theorem EncodeLength.vspan (x y0 y1 : Half) (c : Colour) : EncodeLength.Statement (.vspan x y0 y1 c) :=
  fun _ => commandLen_header _ _ _ _
theorem EncodeLength.line (x0 y0 x1 y1 : Half) (c : Colour) : EncodeLength.Statement (.line x0 y0 x1 y1 c) :=
  fun _ => commandLen_header _ _ _ _
theorem EncodeLength.rect (x0 y0 x1 y1 : Half) (c : Colour) : EncodeLength.Statement (.rect x0 y0 x1 y1 c) :=
  fun _ => commandLen_header _ _ _ _
theorem EncodeLength.frect (x0 y0 x1 y1 : Half) (c : Colour) : EncodeLength.Statement (.frect x0 y0 x1 y1 c) :=
  fun _ => commandLen_header _ _ _ _
theorem EncodeLength.circle (cx cy r : Half) (c : Colour) : EncodeLength.Statement (.circle cx cy r c) :=
  fun _ => commandLen_header _ _ _ _
theorem EncodeLength.fcircle (cx cy r : Half) (c : Colour) : EncodeLength.Statement (.fcircle cx cy r c) :=
  fun _ => commandLen_header _ _ _ _
theorem EncodeLength.glyph (cp : Codepoint) (x y : Half) (c : Colour) (f : FontSlot) :
    EncodeLength.Statement (.glyph cp x y c f) := fun _ => commandLen_header _ _ _ _
theorem EncodeLength.text (cps : List Codepoint) (x y : Half) (c : Colour) (f : FontSlot) (xo yo : Half) :
    EncodeLength.Statement (.text cps x y c f xo yo) := by
  intro h
  have h' : cps.length ≤ 65535 := of_decide_eq_true h
  simp only [encode, List.headD_cons, commandLen_header, Op.len, hdrN_header, BitVec.toNat_ofNat, List.length_cons,
    List.length_map]
  rw [Nat.mod_eq_of_lt (by omega)]
  congr 1; omega
theorem EncodeLength.gwidth (f : FontSlot) (cp : Codepoint) : EncodeLength.Statement (.gwidth f cp) :=
  fun _ => commandLen_header _ _ _ _
theorem EncodeLength.fheight (f : FontSlot) : EncodeLength.Statement (.fheight f) := fun _ => commandLen_header _ _ _ _

end Sys2Proof.Laws
end

