-- ==== Sys2Proof/Tests/Slice0.lean ====
section
/-! SUPPORT. Tests: the check of WellFormed, decoding of words written out field by field, one-step vectors of
spec/95_test_vectors.md, and for every statement with hypotheses a witness that meets them. -/

namespace Sys2Proof.Tests

open Sys2Proof Sys2Proof.Machine

set_option Elab.async false

/-! ### WellFormed and the configuration checks -/

theorem test_text_tooLong_refused : (Instr.text (List.replicate 65536 0) 0 0 false 0 0 0).wellFormed = false := by
  simp only [Instr.wellFormed, List.length_replicate]; decide

theorem test_text_longest_wellFormed : (Instr.text (List.replicate 65535 0) 0 0 false 0 0 0).wellFormed = true := by
  simp only [Instr.wellFormed, List.length_replicate]; decide

/-- Both ends of the ranges of R8: the smallest block and one at every upper limit. -/
def smallest : Config := { width := 1, height := 1, nCram := 1, fonts := [], polarity := .setIsWhite }
def largest : Config :=
  { width := 32767, height := 32, nCram := 16384, fonts := List.replicate 16 none, polarity := .setIsWhite }

theorem test_limits_legal : smallest.legal = true ∧ largest.legal = true ∧ Config.reference.legal = true := by
  decide +kernel

theorem test_beyondLimits_illegal :
    { smallest with width := 0 }.legal = false ∧ { smallest with height := 0 }.legal = false ∧
    { smallest with nCram := 0 }.legal = false ∧ { largest with width := 32768 }.legal = false ∧
    { largest with height := 33 }.legal = false ∧ { largest with nCram := 16385 }.legal = false ∧
    { largest with fonts := List.replicate 17 none }.legal = false := by decide +kernel

/-- One ill-formed variant of T0 or T1 for each check of R172. -/
theorem test_fontChecks_refuse :
    { Font.t0 with bitsPerPixel := 3 }.wellFormed = false ∧
    { Font.t0 with glyphCount := 4 }.wellFormed = false ∧
    { Font.t0 with unicodeFirst := 0x44 }.wellFormed = false ∧
    { Font.t0 with unicodeLast := 0x44 }.wellFormed = false ∧
    { Font.t1 with unicodeMap := some [0x004020AC, 0x00000041] }.wellFormed = false ∧
    { Font.t1 with unicodeMap := some [0x002020AD, 0x00000041] }.wellFormed = false ∧
    { Font.t1 with unicodeMap := some [0x00200041, 0x00000041] }.wellFormed = false ∧
    { Font.t0 with bitmap := Font.t0.bitmap.take 15 }.wellFormed = false := by decide +kernel

/-! ### Words written out field by field, most significant field first (spec/30_encoding.md rules R81 to R84) -/

theorem test_decode_nop : decode [0#16 ++ 0#4 ++ 0#3 ++ 0#1 ++ 0x00#8] = .ok (.nop) := by
  decide +kernel

theorem test_decode_endRun : decode [0#16 ++ 0#4 ++ 0#3 ++ 0#1 ++ 0x01#8] = .ok (.endRun) := by
  decide +kernel

theorem test_decode_clear : decode [0#16 ++ 0#4 ++ 0#3 ++ 1#1 ++ 0x02#8] = .ok (.clear true) := by
  decide +kernel

theorem test_decode_setpix : decode [0#16 ++ 0#4 ++ 0#3 ++ 1#1 ++ 0x03#8, 7#16 ++ 0xFFF6#16] = .ok (.setpix (-10) 7 true) := by
  decide +kernel

theorem test_decode_getpix : decode [0#16 ++ 0#4 ++ 0#3 ++ 0#1 ++ 0x04#8, 299#16 ++ 399#16] = .ok (.getpix 399 299) := by
  decide +kernel

theorem test_decode_hspan : decode [0#16 ++ 0#4 ++ 0#3 ++ 1#1 ++ 0x05#8, 5#16 ++ 3#16, 0#16 ++ 12#16] = .ok (.hspan 3 12 5 true) := by
  decide +kernel

theorem test_decode_vspan : decode [0#16 ++ 0#4 ++ 0#3 ++ 0#1 ++ 0x06#8, 1#16 ++ 2#16, 9#16 ++ 0#16] = .ok (.vspan 2 1 9 false) := by
  decide +kernel

theorem test_decode_line : decode [0#16 ++ 0#4 ++ 0#3 ++ 1#1 ++ 0x07#8, 2#16 ++ 1#16, 4#16 ++ 3#16] = .ok (.line 1 2 3 4 true) := by
  decide +kernel

theorem test_decode_rect : decode [0#16 ++ 0#4 ++ 0#3 ++ 0#1 ++ 0x08#8, 2#16 ++ 1#16, 4#16 ++ 3#16] = .ok (.rect 1 2 3 4 false) := by
  decide +kernel

theorem test_decode_frect : decode [0#16 ++ 0#4 ++ 0#3 ++ 1#1 ++ 0x09#8, 2#16 ++ 1#16, 4#16 ++ 3#16] = .ok (.frect 1 2 3 4 true) := by
  decide +kernel

theorem test_decode_circle : decode [0#16 ++ 0#4 ++ 0#3 ++ 0#1 ++ 0x0A#8, 2#16 ++ 1#16, 0#16 ++ 0x8000#16] = .ok (.circle 1 2 (-32768) false) := by
  decide +kernel

theorem test_decode_fcircle : decode [0#16 ++ 0#4 ++ 0#3 ++ 1#1 ++ 0x0B#8, 2#16 ++ 1#16, 0#16 ++ 0x7FFF#16] = .ok (.fcircle 1 2 32767 true) := by
  decide +kernel

theorem test_decode_glyph : decode [0#16 ++ 9#4 ++ 0#3 ++ 1#1 ++ 0x0C#8, 2#16 ++ 1#16, 0#11 ++ 0x1FFFFF#21] = .ok (.glyph 0x1FFFFF 1 2 true 9) := by
  decide +kernel

theorem test_decode_text : decode [2#16 ++ 15#4 ++ 0#3 ++ 0#1 ++ 0x0D#8, 2#16 ++ 1#16, 4#16 ++ 3#16, 0#11 ++ 0x41#21, 0#11 ++ 0x20AC#21] = .ok (.text [0x41, 0x20AC] 1 2 false 15 3 4) := by
  decide +kernel

theorem test_decode_gwidth : decode [0#16 ++ 8#4 ++ 0#3 ++ 0#1 ++ 0x0E#8, 0#11 ++ 0x100000#21] = .ok (.gwidth 8 0x100000) := by
  decide +kernel

theorem test_decode_fheight : decode [0#16 ++ 15#4 ++ 0#3 ++ 0#1 ++ 0x0F#8] = .ok (.fheight 15) := by
  decide +kernel

/-- Bits of spec/opcode_table.json rows, numbered as the table numbers them. -/
theorem test_decodeTableWord :
    decodeTableWord 32 0x00000001 = some .endRun ∧
    decodeTableWord 64 0x0005FFFF_00000103 = some (.setpix (-1) 5 true) ∧
    decodeTableWord 96 0x00000041_00010002_0000010C = some (.glyph 0x41 2 1 true 0) ∧
    decodeTableWord 32 0x0001000D = some (.text [0] 0 0 false 0 0 0) ∧
    decodeTableWord 32 0x00000010 = none ∧ decodeTableWord 32 0x00000200 = none := by decide +kernel

/-! ### One step from a small state, against spec/95_test_vectors.md. A row's CP and STATUS there are read after the END
that follows the command; here they are read right after the command, so CP is one less and STATUS still has BUSY. -/

/-- The configuration of a vector row: `W`, `H`, `N_CRAM` and the fonts of section 2. -/
def vectorConfig (W H n : Nat) : Config := { Config.reference with width := W, height := H, nCram := n }

/-- The start of a vector row: every FB byte `v`, the words from CRAM index 0 on, BUSY set by START. -/
def runStart (W H : Nat) (v : Byte) (ws : List Word) : State :=
  let cfg := vectorConfig W H 64
  { State.resetWith cfg with
      fb := (List.range cfg.fbSize).map (fun a => (a, v))
      cram := (List.range ws.length).map (fun i => (i, ws.getD i 0))
      busy := true }

/-- FB bytes, RESULT, CP and STATUS after one step. -/
def afterStep (s : State) : Option (List Byte × Word × Nat × Word) :=
  match step s with
  | .next t => some (t.fb.map Prod.snd, t.result, t.cp.toNat, t.statusWord)
  | .fault _ => none
  | .refused _ => none

/-- V150. -/
theorem test_nop : afterStep (runStart 8 1 0x00 [0x00000000]) =
    some ([0x00], 0, 1, 0x1) := by decide +kernel

/-- V151. -/
theorem test_end : afterStep (runStart 8 1 0x00 [0x00000001]) =
    some ([0x00], 0, 1, 0x2) := by decide +kernel

/-- V1. -/
theorem test_clear_padding : afterStep (runStart 12 2 0x00 [0x00000102]) =
    some ([0xFF, 0xFF, 0xFF, 0xFF], 0, 1, 0x1) := by decide +kernel

/-- V2. -/
theorem test_clear_zero : afterStep (runStart 12 2 0xFF [0x00000002]) =
    some ([0x00, 0x00, 0x00, 0x00], 0, 1, 0x1) := by decide +kernel

/-- V4. -/
theorem test_setpix_lastColumn : afterStep (runStart 12 2 0x00 [0x00000103, 0x0000000B]) =
    some ([0x00, 0x10, 0x00, 0x00], 0, 2, 0x1) := by decide +kernel

/-- V9. -/
theorem test_setpix_clear : afterStep (runStart 12 2 0xFF [0x00000003, 0x00000003]) =
    some ([0xEF, 0xFF, 0xFF, 0xFF], 0, 2, 0x1) := by decide +kernel

/-- V11. -/
theorem test_getpix_set : afterStep (runStart 12 2 0xFF [0x00000004, 0x00000000]) =
    some ([0xFF, 0xFF, 0xFF, 0xFF], 1, 2, 0x1) := by decide +kernel

/-- V13. -/
theorem test_getpix_off : afterStep (runStart 12 2 0xFF [0x00000004, 0x0000000C]) =
    some ([0xFF, 0xFF, 0xFF, 0xFF], 0xFFFFFFFF, 2, 0x1) := by decide +kernel

/-- V21. -/
theorem test_hspan_swapped : afterStep (runStart 16 1 0x00 [0x00000105, 0x0000000C, 0x00000003]) =
    some ([0x1F, 0xF8], 0, 3, 0x1) := by decide +kernel

/-- V27. -/
theorem test_hspan_clipped : afterStep (runStart 12 1 0x00 [0x00000105, 0x0000000A, 0x00000064]) =
    some ([0x00, 0x30], 0, 3, 0x1) := by decide +kernel

/-- V32. -/
theorem test_vspan_swapped : afterStep (runStart 8 4 0x00 [0x00000106, 0x00030002, 0x00010000]) =
    some ([0x00, 0x20, 0x20, 0x20], 0, 3, 0x1) := by decide +kernel

/-- V33. -/
theorem test_vspan_clipped : afterStep (runStart 8 4 0x00 [0x00000106, 0xFFFB0002, 0x000A0000]) =
    some ([0x20, 0x20, 0x20, 0x20], 0, 3, 0x1) := by decide +kernel

/-- V51. -/
theorem test_line_half : afterStep (runStart 8 4 0x00 [0x00000107, 0x00000000, 0x00020004]) =
    some ([0xC0, 0x30, 0x08, 0x00], 0, 3, 0x1) := by decide +kernel

/-- V49. -/
theorem test_line_high : afterStep (runStart 8 8 0x00 [0x00000107, 0x00070005, 0x00000007]) =
    some ([0x01, 0x01, 0x02, 0x02, 0x02, 0x02, 0x04, 0x04], 0, 3, 0x1) := by decide +kernel

/-- V62. -/
theorem test_rect_swapped : afterStep (runStart 8 6 0x00 [0x00000108, 0x00010006, 0x00040001]) =
    some ([0x00, 0x7E, 0x42, 0x42, 0x7E, 0x00], 0, 3, 0x1) := by decide +kernel

/-- V65. -/
theorem test_rect_clipped : afterStep (runStart 8 6 0x00 [0x00000108, 0xFFFEFFFE, 0x00030003]) =
    some ([0x10, 0x10, 0x10, 0xF0, 0x00, 0x00], 0, 3, 0x1) := by decide +kernel

/-- V66. -/
theorem test_frect_clear : afterStep (runStart 8 6 0xFF [0x00000009, 0x00040006, 0x00010001]) =
    some ([0xFF, 0x81, 0x81, 0x81, 0x81, 0xFF], 0, 3, 0x1) := by decide +kernel

/-- V68. -/
theorem test_frect_clipped : afterStep (runStart 8 6 0x00 [0x00000109, 0x0004FFF6, 0x005A0064]) =
    some ([0x00, 0x00, 0x00, 0x00, 0xFF, 0xFF], 0, 3, 0x1) := by decide +kernel

/-- V74. -/
theorem test_circle_three : afterStep (runStart 8 8 0x00 [0x0000010A, 0x00030003, 0x00000003]) =
    some ([0x38, 0x44, 0x82, 0x82, 0x82, 0x44, 0x38, 0x00], 0, 3, 0x1) := by decide +kernel

/-- V76. -/
theorem test_circle_negative : afterStep (runStart 8 8 0x00 [0x0000010A, 0x00030003, 0x00008000]) =
    some ([0x00, 0x00, 0x00, 0x00, 0x00, 0x00, 0x00, 0x00], 0, 3, 0x1) := by decide +kernel

/-- V77. -/
theorem test_fcircle_two : afterStep (runStart 8 8 0x00 [0x0000010B, 0x00030003, 0x00000002]) =
    some ([0x00, 0x38, 0x7C, 0x7C, 0x7C, 0x38, 0x00, 0x00], 0, 3, 0x1) := by decide +kernel

/-- V82. -/
theorem test_fcircle_clipped : afterStep (runStart 8 8 0x00 [0x0000010B, 0x00070000, 0x00000002]) =
    some ([0x00, 0x00, 0x00, 0x00, 0x00, 0xC0, 0xE0, 0xE0], 0, 3, 0x1) := by decide +kernel

/-- V113. -/
theorem test_glyph_twoBytes : afterStep (runStart 16 4 0x00 [0x0000010C, 0x00000003, 0x00000043]) =
    some ([0x0F, 0xF8, 0x10, 0x00, 0x10, 0x00, 0x0F, 0xF8], 13, 3, 0x1) := by decide +kernel

/-- V114. -/
theorem test_glyph_noPadding : afterStep (runStart 16 4 0x00 [0x0000010C, 0x00000000, 0x00000042]) =
    some ([0xC0, 0x00, 0xA0, 0x00, 0xC0, 0x00, 0xE0, 0x00], 3, 3, 0x1) := by decide +kernel

/-- V130. -/
theorem test_text_skipsAbsent : afterStep (runStart 16 4 0x00 [0x0003010D, 0x00000000, 0x00000001, 0x00000041, 0x0000005A, 0x00000042]) =
    some ([0x73, 0x00, 0x8A, 0x80, 0xFB, 0x00, 0x8B, 0x80], 10, 6, 0x1) := by decide +kernel

/-- V136. -/
theorem test_text_overlap : afterStep (runStart 16 4 0x00 [0x0002010D, 0x00000000, 0x0000FFFE, 0x00000041, 0x00000042]) =
    some ([0x78, 0x00, 0x9C, 0x00, 0xF8, 0x00, 0x9C, 0x00], 4, 5, 0x1) := by decide +kernel

/-- V96. -/
theorem test_gwidth_monospace : afterStep (runStart 16 4 0x00 [0x0000100E, 0x000020AC]) =
    some ([0x00, 0x00, 0x00, 0x00, 0x00, 0x00, 0x00, 0x00], 4, 2, 0x1) := by decide +kernel

/-- V98. -/
theorem test_gwidth_absent : afterStep (runStart 16 4 0x00 [0x0000100E, 0x00000042]) =
    some ([0x00, 0x00, 0x00, 0x00, 0x00, 0x00, 0x00, 0x00], 0xFFFFFFFF, 2, 0x1) := by decide +kernel

/-- V102. -/
theorem test_fheight_sparse : afterStep (runStart 16 4 0x00 [0x0000100F]) =
    some ([0x00, 0x00, 0x00, 0x00, 0x00, 0x00, 0x00, 0x00], 2, 1, 0x1) := by decide +kernel

/-- V103. -/
theorem test_fheight_anyDepth : afterStep (runStart 16 4 0x00 [0x0000200F]) =
    some ([0x00, 0x00, 0x00, 0x00, 0x00, 0x00, 0x00, 0x00], 4, 1, 0x1) := by decide +kernel

/-- V161. -/
theorem test_error_illegalFirst : afterStep (runStart 8 1 0x00 [0xFFFFFFFF]) =
    some ([0x00], 0, 0, 0x104) := by decide +kernel

/-- V170. -/
theorem test_error_reservedBeforeFont : afterStep (runStart 8 1 0x00 [0x0000310C, 0x00000000, 0x00200041]) =
    some ([0x00], 0, 0, 0x204) := by decide +kernel

/-- V172. -/
theorem test_error_overrun : afterStep (runStart 8 1 0x00 [0xFFFF010D, 0x00000000, 0x00000000]) =
    some ([0x00], 0, 0, 0x304) := by decide +kernel

/-- V105. -/
theorem test_error_noFont : afterStep (runStart 16 1 0x00 [0x0000900F]) =
    some ([0x00, 0x00], 0, 0, 0x404) := by decide +kernel

/-- V127. -/
theorem test_error_fontBpp : afterStep (runStart 16 1 0x00 [0x0000210C, 0x00000000, 0x0000005A]) =
    some ([0x00, 0x00], 0, 0, 0x504) := by decide +kernel

/-! ### withFetchWord: the placed word is what the first step after reset runs -/

theorem test_withFetchWord_runs :
    fetchWords (State.reset.withFetchWord 32 0x0001000D) = [0x0001000D, 0, 0, 0] ∧
    fetchWords (State.reset.withFetchWord 64 0x0005FFFF_00000103) = [0x00000103, 0x0005FFFF] := by decide +kernel

/-! ### Host accesses (95_test_vectors.md section 3.12) -/

/-- H2, H3: HWCFG and PARAM of the reference configuration. -/
theorem test_host_identity :
    (hostRead 0x04 .word State.reset).1 = .word 0x012C0190 ∧ (hostRead 0x18 .word State.reset).1 = .word 0x00041000 := by
  decide +kernel

/-- H7, H8, H11, H19, H20, H21: bus errors. -/
theorem test_host_busErrors :
    (hostRead 0x00000 .byte State.reset).1 = .busError ∧ (hostRead 0x0000C .half State.reset).1 = .busError ∧
    (hostRead 0x00002 .word State.reset).1 = .busError ∧ (hostRead 0x14000 .word State.reset).1 = .busError ∧
    (hostRead 0x23A98 .byte State.reset).1 = .busError ∧ (hostRead 0x23A96 .word State.reset).1 = .busError ∧
    (hostWrite 0x20000 .byte 0 State.reset).1 = .busError := by decide +kernel

/-- H14 and H15 on four known bytes: little-endian reads. -/
theorem test_host_fbReads :
    (hostRead 0x20000 .word { State.reset with fb := [(0, 0x80), (1, 0x01), (2, 0x00), (3, 0x00)] }).1 = .word 0x00000180 ∧
    (hostRead 0x20000 .half { State.reset with fb := [(0, 0x80), (1, 0x01)] }).1 = .half 0x0180 := by decide +kernel

/-- H24: W1C of ERR keeps ERRCODE. -/
theorem test_host_clearErr :
    (hostWrite 0x0C .word 0x4 (errorStop .overrun State.reset)).2.statusWord = 0x00000300 := by decide +kernel

/-! ### Witnesses: for each statement with hypotheses, states and operands that meet them, at the ends of their ranges -/

/-- The state an outcome answers, for witnesses only. -/
def answered (o : Host.Outcome State Fault Refusal) : State :=
  match o with
  | .next t => t
  | .fault _ => State.reset
  | .refused _ => State.reset

/-- Every exec answers what `answered` says. -/
theorem exec_answered (i : Instr) (s : State) : exec i s = .next (answered (exec i s)) := by
  obtain ⟨t, h⟩ := exec_next i s
  rw [h]; rfl

/-- A legal state's step answers what `answered` says, on the engine's turn. -/
theorem step_answered (s : State) (h : afterStep s ≠ none) : step s = .next (answered (step s)) := by
  unfold afterStep at h
  split at h
  · rename_i t ht; rw [ht]; rfl
  · exact absurd rfl h
  · exact absurd rfl h

/-- A run about to draw, on a 12 x 2 surface of zero bytes. -/
def running : State := runStart 12 2 0x00 [0x00000103, 0x0001000B, 0x00000001]

/-- The same between runs. -/
def idle : State := { running with busy := false }

theorem running_inv : Inv running :=
  ⟨by decide +kernel, by decide +kernel, by decide +kernel, by decide +kernel, by decide +kernel, by decide +kernel,
    by decide +kernel⟩

theorem idle_inv : Inv idle :=
  ⟨by decide +kernel, by decide +kernel, by decide +kernel, by decide +kernel, by decide +kernel, by decide +kernel,
    by decide +kernel⟩

theorem running_steps : step running = .next (answered (step running)) := step_answered _ (by decide +kernel)

/-- A state with the turn `a` and then an engine turn pending. -/
def withTurn (a : Turn) (s : State) : State := { s with pending := [a, .engine] }

/-- The engine moves in every state with nothing pending. -/
theorem moves_alone {s : State} (h : s.pending = []) : EngineMoves s s := .inl ⟨h, rfl⟩

/-- The engine moves in every state with an engine turn pending. -/
theorem moves_turn (s : State) : EngineMoves (withTurn .engine s) { s with pending := [.engine] } :=
  .inr ⟨[.engine], rfl, rfl⟩

theorem witness_ResetLeavesEveryRegisterAsStated :
    (smallest.legal = true ∧ largest.legal = true ∧ 16383 < largest.nCram ∧ 131071 < largest.fbSize) ∧
    (idle.cfg.legal = true ∧ idle.busy = false ∧ EngineMoves idle idle) ∧
    (withTurn .engine idle).cfg.legal = true ∧ (withTurn .engine idle).busy = false ∧
    EngineMoves (withTurn .engine idle) { idle with pending := [.engine] } :=
  ⟨by decide +kernel, ⟨by decide +kernel, rfl, moves_alone rfl⟩, by decide +kernel, rfl, moves_turn _⟩

theorem witness_ResetInputIsComplete :
    { running with pending := [.reset, .engine] }.cfg.legal = true ∧
    { running with pending := [.reset, .engine] }.pending = .reset :: [.engine] := by decide +kernel

theorem witness_InvariantHoldsAtReset : smallest.legal = true ∧ largest.legal = true := by decide +kernel

theorem witness_InvariantKeptByEveryStep : Inv running ∧ step running = .next (answered (step running)) :=
  ⟨running_inv, running_steps⟩

theorem witness_IllegalConfigurationIsRefused :
    (State.resetWith { largest with width := 32768 }).cfg.legal = false ∧ (State.resetWith largest).cfg.legal = true ∧
    { smallest with width := 0 }.width = 0 ∧ { smallest with height := 0 }.height = 0 ∧
    some { Font.t0 with bitsPerPixel := 3 } ∈ [some { Font.t0 with bitsPerPixel := 3 }] ∧
    { Font.t0 with bitsPerPixel := 3 }.wellFormed = false := by decide +kernel

theorem witness_DecodeInvertsEncode : (Instr.text (List.replicate 65535 0) 0 0 false 0 0 0).wellFormed = true :=
  test_text_longest_wellFormed

theorem witness_EncodeInvertsDecode :
    decode [0x0001F10D, 0x7FFF8000, 0x80007FFF, 0x001FFFFF, 0x00000010] =
      .ok (.text [0x1FFFFF] (-32768) 32767 true 15 32767 (-32768)) := by decide +kernel

theorem witness_LengthIsAFunctionOfTheHeader :
    ((0xFFFF000D : Word) &&& 0xFF) = 0x0D ∧ ((0xFFFFFF0F : Word) &&& 0xFF) ∈ [0x00#32, 0x01, 0x02, 0x0F] ∧
    ((0x0000000E : Word) &&& 0xFF) ∈ [0x03#32, 0x04, 0x0E] ∧
    ((0x00000005 : Word) &&& 0xFF) ∈ [0x05#32, 0x06, 0x07, 0x08, 0x09, 0x0A, 0x0B, 0x0C] ∧
    0x0F < ((0x00000010 : Word) &&& 0xFF).toNat := by decide +kernel

theorem witness_ReservedFieldsAreRejected :
    (opOf (hdrOpc 0x0001000D) = some .text ∧ [0#32, 0, 0x00200000].length + 1 = Op.len .text 0x0001000D) ∧
    (0x00200000 : Word) &&& argZeroMask .text 3 ≠ 0 ∧ (0x001FFFFF : Word) &&& argZeroMask .text 3 = 0 ∧
    (0x80000000 : Word) &&& headerZeroMask .nop ≠ 0 ∧ (0x000000FF : Word) &&& headerZeroMask .nop = 0 := by
  decide +kernel

theorem witness_StepRunsTheDecodedInstruction :
    (running.cfg.legal = true ∧ running.busy = true ∧ EngineMoves running running ∧
      decode (fetchWords running) = .ok (.setpix 11 1 true)) ∧
    (EngineMoves (withTurn .engine running) { running with pending := [.engine] } ∧
      decode (fetchWords { running with pending := [.engine] }) = .ok (.setpix 11 1 true)) ∧
    decode (fetchWords { running with cp := 64, pending := [.engine] }) = .error .overrun ∧
    (withTurn (.host (.read 0x10 .word)) running).pending = .host (.read 0x10 .word) :: [.engine] ∧
    (withTurn (.host (.write 0x100FC .word 1)) idle).pending = .host (.write 0x100FC .word 1) :: [.engine] :=
  ⟨⟨by decide +kernel, rfl, moves_alone rfl, by decide +kernel⟩, ⟨moves_turn _, by decide +kernel⟩, by decide +kernel,
    rfl, rfl⟩

/-- A command that ends on the last CRAM word. -/
def atTheEnd : State := { running with cp := 62, cram := [(62, 0x00000103), (63, 0x0001000B)] }

theorem witness_CommandStoredAtCpIsExecuted :
    (atTheEnd.cfg.legal = true ∧ atTheEnd.busy = true ∧ EngineMoves atTheEnd atTheEnd ∧
      EngineMoves (withTurn .engine atTheEnd) { atTheEnd with pending := [.engine] }) ∧
    (Instr.setpix 11 1 true).wellFormed = true ∧
    atTheEnd.cp.toNat + (encode (.setpix 11 1 true)).length ≤ atTheEnd.cfg.nCram ∧
    ∀ k, k < (encode (.setpix 11 1 true)).length →
      atTheEnd.cramWord (atTheEnd.cp.toNat + k) = (encode (.setpix 11 1 true)).getD k 0 :=
  ⟨⟨by decide +kernel, rfl, moves_alone rfl, moves_turn _⟩, by decide +kernel, by decide +kernel, by decide +kernel⟩

theorem witness_ErrorsAreCheckedInOrder :
    (running.cfg.legal = true ∧ running.busy = true ∧ running.pending = [] ∧
      (withTurn .engine running).pending = .engine :: [.engine]) ∧
    { running with cp := 64 }.cfg.nCram ≤ { running with cp := 64 }.cp.toNat ∧
    (atTheEnd.cp.toNat < atTheEnd.cfg.nCram ∧ 0x0F < (hdrOpc 0x00000010).toNat) ∧
    (opOf (hdrOpc 0x00000107) = some .line ∧ atTheEnd.cfg.nCram < 62 + Op.len .line 0x00000107 ∧
      61 + Op.len .line 0x00000107 ≤ atTheEnd.cfg.nCram) ∧
    (0x00000307 : Word) &&& headerZeroMask .line ≠ 0 := by decide +kernel

theorem witness_ErrorsAreCheckedInOrder_fonts :
    NoFont running 3 ∧ NoFont running 4 ∧ NoFont running 15 ∧ HasFont running 2 Font.t2 ∧ Font.t2.bitsPerPixel ≠ 1 ∧
    ¬ReservedSet .fheight 0x0000300F (fun _ => 0) := by
  refine ⟨.inr rfl, .inl rfl, .inl rfl, rfl, by decide, ?_⟩
  rintro (h | ⟨k, h1, h2, h3⟩)
  · exact h (by decide)
  · simp only [Op.len] at h2; omega

theorem witness_CommandsCompleteOrHaveNoEffect :
    (Inv running ∧ running.busy = true ∧ EngineMoves running running ∧
      step running = .next (answered (step running)) ∧ (answered (step running)).err = false) ∧
    (EngineMoves (withTurn .engine running) { running with pending := [.engine] } ∧
      step (withTurn .engine running) = .next (answered (step (withTurn .engine running)))) ∧
    (answered (step (withTurn .engine (runStart 8 1 0 [0x10])))).err = true :=
  ⟨⟨running_inv, rfl, moves_alone rfl, running_steps, by decide +kernel⟩,
    ⟨moves_turn _, step_answered _ (by decide +kernel)⟩, by decide +kernel⟩

theorem witness_EveryRunTerminates : Inv running ∧ running.pending = [] := ⟨running_inv, rfl⟩

theorem witness_RunsNeverChangeCram :
    running.pending = [] ∧ Host.Core.run Sys2Proof.core 0 running = .next running ∧
    Host.Core.run Sys2Proof.core 1 running = .next (answered (step running)) := by
  refine ⟨rfl, rfl, ?_⟩
  show (match step running with
    | .next s' => Host.Core.run Sys2Proof.core 0 s'
    | .fault r => .fault r
    | .refused r => .refused r) = _
  rw [running_steps]; rfl

theorem witness_RunsNeverChangeCram_turns :
    (withTurn (.host (.write 0x10000 .word 1)) running).busy = true ∧
    (∀ rest, (withTurn (.host (.write 0x10000 .word 1)) running).pending ≠ .reset :: rest) ∧
    step (withTurn (.host (.write 0x10000 .word 1)) running) =
      .next (answered (step (withTurn (.host (.write 0x10000 .word 1)) running))) :=
  ⟨rfl, fun _ => by simp [withTurn], step_answered _ (by decide +kernel)⟩

theorem witness_NopOnlyAdvances : (0x80000000 : Word) &&& 0xFF = 0x00 ∧ (0x80000000 : Word) ≠ 0x00000000 := by decide

theorem witness_EndStopsTheRun : (0x00000101 : Word) &&& 0xFF = 0x01 ∧ (0x00000101 : Word) ≠ 0x00000001 := by decide

theorem witness_ClearFillsEveryByte :
    3 < running.cfg.fbSize ∧ cellsWf running.cfg.fbSize running.fb = true ∧ running.cfg.fbSize ≤ 4 := by decide +kernel

theorem witness_SetpixWritesOnePixel :
    Painted running.cfg (fun px py => px = (11 : Half).toInt ∧ py = (1 : Half).toInt) 3 4 :=
  ⟨11, 1, by decide +kernel, ⟨by decide, by decide⟩, by decide +kernel, by decide⟩

theorem witness_SetpixThenGetpixRoundTrips :
    (exec (.setpix 11 1 true) running = .next (answered (exec (.setpix 11 1 true) running)) ∧
      exec (.getpix 11 1) (answered (exec (.setpix 11 1 true) running)) =
        .next (answered (exec (.getpix 11 1) (answered (exec (.setpix 11 1 true) running))))) ∧
    running.cfg.onSurface (11 : Half).toInt (1 : Half).toInt = true ∧
    running.cfg.onSurface (12 : Half).toInt (1 : Half).toInt = false ∧
    running.cfg.onSurface (11 : Half).toInt (2 : Half).toInt = false ∧
    running.cfg.onSurface (-1 : Half).toInt (0 : Half).toInt = false :=
  ⟨⟨exec_answered _ _, exec_answered _ _⟩, by decide +kernel, by decide +kernel, by decide +kernel, by decide +kernel⟩

theorem witness_ClearForgetsWhatWasDrawn :
    execAll [Instr.clear false, .nop] running =
      some (answered (exec .nop (answered (exec (.clear false) running)))) ∧
    exec (.clear true) running = .next (answered (exec (.clear true) running)) ∧ 3 < running.cfg.fbSize :=
  ⟨rfl, exec_answered _ _, by decide +kernel⟩

theorem witness_NoCommandWritesOutsideTheFramebuffer :
    cellsWf running.cfg.fbSize running.fb = true ∧
    exec (.setpix 11 1 true) running = .next (answered (exec (.setpix 11 1 true) running)) ∧ running.cfg.fbSize ≤ 4 :=
  ⟨by decide +kernel, exec_answered _ _, by decide +kernel⟩

theorem witness_OnlyClearWritesPaddingBits :
    exec (.setpix 11 1 true) running = .next (answered (exec (.setpix 11 1 true) running)) ∧
    (∀ c, Instr.setpix 11 1 true ≠ .clear c) ∧ 1 < running.cfg.height ∧ 3 < 8 * running.cfg.stride - running.cfg.width :=
  ⟨exec_answered _ _, fun _ => by simp, by decide +kernel, by decide +kernel⟩

theorem witness_CommandsWriteOnlyTheirOwnRegisters :
    exec (.getpix 12 0) running = .next (answered (exec (.getpix 12 0) running)) ∧
    (answered (exec (.getpix 12 0) running)).result ≠ running.result ∧
    (answered (exec (.getpix 12 0) running)).busy = running.busy ∧
    (answered (exec (.fheight 3) running)).err = true :=
  ⟨exec_answered _ _, by decide +kernel, by decide +kernel, by decide +kernel⟩

theorem witness_HspanPaintsTheRun : (0x00010000 : Word) &&& 0xFFFF0000 ≠ 0 := by decide

theorem witness_VspanPaintsTheRun : (0x00008000 : Word) &&& 0x0000FFFF ≠ 0 := by decide

theorem witness_SpansMatchPixelWrites :
    exec (.hspan 12 3 0 true) running = .next (answered (exec (.hspan 12 3 0 true) running)) ∧
    exec (.vspan 3 5 (-5) true) running = .next (answered (exec (.vspan 3 5 (-5) true) running)) :=
  ⟨exec_answered _ _, exec_answered _ _⟩

theorem witness_LineSetsObeyTheLineLaws :
    (((2 : Int) - 0).natAbs < ((3 : Int) - 0).natAbs ∧ ((3 : Int) - 0).natAbs ≤ ((3 : Int) - 0).natAbs) ∧
    (lineSet 0 0 3 2).has 1 1 = true ∧ (lineSet 0 0 3 2).has 2 1 = true ∧
    (lineSet 0 0 2 3).has 1 1 = true ∧ (lineSet 0 0 2 3).has 1 2 = true := by decide +kernel

theorem witness_LineWalkRoundsTheIdealLine :
    (0 : Int) < 1 ∧ ((-1 : Int) - 0).natAbs ≤ ((1 : Int) - 0).natAbs := by decide

theorem witness_RectangleSetsHoldForEveryCornerOrder : (rectSet 1 1 6 4).has 6 4 = true := by decide +kernel

theorem witness_CirclePaintsTheOutline :
    (0x80000000 : Word) &&& 0xFFFF0000 ≠ 0 ∧ (0 : Half).toInt = 0 ∧ (1 : Half).toInt = 1 ∧ (-1 : Half).toInt < 0 := by
  decide

theorem witness_FcirclePaintsTheDisc :
    (0x00010000 : Word) &&& 0xFFFF0000 ≠ 0 ∧ (0 : Half).toInt = 0 ∧ (-32768 : Half).toInt < 0 := by decide

theorem witness_CircleOffsetsObeyTheCircleLaws :
    ((10 : Int) + 1).toNat ≤ 11 ∧ ((-1 : Int) + 1).toNat ≤ 0 ∧
    ((3, 10) : Int × Int) ∈ circleSteps 10 ∧ ((0, 0) : Int × Int) ∈ circleSteps 0 ∧
    (circleSet 5 7 10).has (5 + 3) (7 + 10) = true := by decide +kernel

theorem witness_DiscsHaveNoHoles :
    (circleSet 0 0 3).has 3 0 = true ∧ (0 : Int) ≤ 0 ∧ (fcircleSet 0 0 3).has 2 1 = true ∧
    ((-2 : Int) - 0).natAbs ≤ ((2 : Int) - 0).natAbs := by decide +kernel

theorem witness_SparseLookupFindsTheEntry :
    (Font.t0.unicodeMap = none ∧ Font.t0.unicodeFirst = 0x41 ∧ Font.t0.unicodeLast = 0x43 ∧ 0x40 < Font.t0.unicodeFirst) ∧
    Font.t1.wellFormed = true ∧ Font.t1.unicodeMap = some [0x002020AC, 0x00000041] ∧
    (∃ e ∈ [(0x002020AC : Word), 0x00000041], entryUnicode e = 0x20AC) ∧
    (∀ e ∈ [(0x002020AC : Word), 0x00000041], entryUnicode e ≠ 0x42) ∧
    [(0x00000041 : Word), 0x002020AC].Perm [0x002020AC, 0x00000041] :=
  ⟨by decide +kernel, by decide +kernel, by decide +kernel, ⟨0x002020AC, by simp, by decide +kernel⟩,
    List.forall_mem_cons.2 ⟨by decide +kernel, List.forall_mem_cons.2 ⟨by decide +kernel, List.forall_mem_nil _⟩⟩,
    List.Perm.swap _ _ _⟩

/-- The record of T0's 'C': the glyph that ends with the last byte of the blob. -/
def glyphC : Glyph := { widthPx := 10, heightPx := 4, rowStrideBytes := 2, bitmapOffset := 8 }

theorem witness_GlyphReadsStayInTheFont :
    Font.t0.wellFormed = true ∧ Font.t0.lookup 0x43 = some 2 ∧ Font.t0.bitsPerPixel = 1 ∧
    Font.t0.glyph 0x43 = some glyphC ∧ 3 < glyphC.heightPx ∧ 9 < glyphC.widthPx ∧
    Font.t0.glyphTable[2]? = some 0x0000080A ∧ Font.t0.lookup 0x40 = none ∧ Font.t0.lookup 0x44 = none := by
  decide +kernel

theorem witness_GwidthAnswersTheWidth : NoFont running 3 ∧ NoFont running 4 ∧ HasFont running 0 Font.t0 :=
  ⟨.inr rfl, .inl rfl, rfl⟩

theorem witness_FheightAnswersTheHeight : NoFont running 3 ∧ NoFont running 15 ∧ HasFont running 1 Font.t1 :=
  ⟨.inr rfl, .inl rfl, rfl⟩

theorem witness_GlyphPaintsItsBitsAndReturnsTheCaret :
    NoFont running 3 ∧ (HasFont running 2 Font.t2 ∧ Font.t2.bitsPerPixel ≠ 1) ∧
    (HasFont running 0 Font.t0 ∧ Font.t0.bitsPerPixel = 1) ∧ Font.t0.glyph (0x44 : Codepoint).toNat = none ∧
    Font.t0.glyph (0x43 : Codepoint).toNat = some glyphC :=
  ⟨.inr rfl, ⟨rfl, by decide⟩, ⟨rfl, rfl⟩, by decide +kernel, by decide +kernel⟩

theorem witness_TextPaintsItsGlyphsAndReturnsTheCaret :
    (List.replicate 65535 (0 : Codepoint)).length ≤ maxCodepoints ∧ NoFont running 4 ∧
    (HasFont running 2 Font.t2 ∧ Font.t2.bitsPerPixel ≠ 1) ∧ HasFont running 1 Font.t1 ∧ Font.t1.bitsPerPixel = 1 :=
  ⟨by rw [List.length_replicate]; decide, .inl rfl, ⟨rfl, by decide⟩, rfl, rfl⟩

theorem witness_TextPaintsItsGlyphsAndReturnsTheCaret_words :
    ([0x41, 0x42] : List Codepoint).length ≤ maxCodepoints ∧
    [(0x41 : Word), 0x00200042].length = ([0x41, 0x42] : List Codepoint).length ∧
    (0x00200042 : Word) ∈ [(0x41 : Word), 0x00200042] ∧ (0x00200042 : Word) &&& 0xFFE00000 ≠ 0 ∧
    [(0 : Word), 0, 0x41].length < 2 + ([0x41, 0x42] : List Codepoint).length := by decide +kernel

theorem witness_GlyphByteFormIsEquivalent : Font.t0.glyph 0x43 = some glyphC := by decide +kernel

theorem witness_TextLawsHold :
    (HasFont running 0 Font.t0 ∧ Font.t0.bitsPerPixel = 1) ∧
    (0 < running.cfg.width ∧
      Font.t0.glyph 0x41 = some { widthPx := 5, heightPx := 4, rowStrideBytes := 1, bitmapOffset := 0 } ∧
      exec (.text [0x41] 0 0 true 0 0 0) running = .next (answered (exec (.text [0x41] 0 0 true 0 0 0) running))) ∧
    (Font.t0.glyph (0x44 : Codepoint).toNat = none ∧
      exec (.text [0x44] 4 0 true 0 0 0) running = .next (answered (exec (.text [0x44] 4 0 true 0 0 0) running))) ∧
    ((11 : Half).toInt < (running.cfg.width : Int) ∧ (0 : Half).toInt = (1 : Half).toInt + (-1 : Half).toInt ∧
      exec (.text [0x41] 11 1 true 0 0 (-1)) running = .next (answered (exec (.text [0x41] 11 1 true 0 0 (-1)) running)) ∧
      exec (.glyph 0x41 11 0 true 0) running = .next (answered (exec (.glyph 0x41 11 0 true 0) running))) :=
  ⟨⟨rfl, rfl⟩, ⟨by decide +kernel, by decide +kernel, exec_answered _ _⟩, ⟨by decide +kernel, exec_answered _ _⟩,
    by decide +kernel, by decide +kernel, exec_answered _ _, exec_answered _ _⟩

theorem witness_CaretsNeverWrap :
    (running.cfg.legal = true ∧ HasFont running 0 Font.t0 ∧ Font.t0.bitsPerPixel = 1) ∧
    exec (.glyph 0x43 32767 0 true 0) running = .next (answered (exec (.glyph 0x43 32767 0 true 0) running)) ∧
    (List.replicate 16381 (0x43 : Codepoint)).length ≤ 16381 ∧
    exec (.text [0x43] (-32768) 0 true 0 (-32768) 0) running =
      .next (answered (exec (.text [0x43] (-32768) 0 true 0 (-32768) 0) running)) :=
  ⟨⟨by decide +kernel, rfl, rfl⟩, exec_answered _ _, by rw [List.length_replicate], exec_answered _ _⟩

theorem witness_FontEntriesArePackedAsStated : 4 * 1 + 3 < [(1 : Byte), 2, 3, 4, 5, 6, 7, 8].length := by decide

theorem witness_StartBeginsARun :
    (0x00000001 : Word).getLsbD 0 = true ∧ idle.busy = false ∧ running.busy = true := by decide +kernel

theorem witness_RegisterWritesDoWhatTheirFieldsSay :
    (0x00000002 : Word).getLsbD 0 = false ∧ idle.busy = false ∧ running.busy = true := by decide +kernel

theorem witness_ReadOnlyRegistersIgnoreWrites :
    ((0x00 : BitVec 18).toNat < 0x10000 ∧ (0x00 : BitVec 18).toNat % 4 = 0 ∧ (0x00 : BitVec 18) ∉ [0x08#18, 0x0C, 0x10]) ∧
    (0xFFFC : BitVec 18).toNat < 0x10000 ∧ (0xFFFC : BitVec 18).toNat % 4 = 0 ∧ 0x1C ≤ (0x1C : BitVec 18).toNat := by
  decide

theorem witness_RegisterReadsGiveTheFields : idle.busy = false ∧ Inv running ∧ running.busy = true :=
  ⟨rfl, running_inv, rfl⟩

/-- Each ground for a bus error at the first address where it holds, and the last address where it does not. -/
theorem witness_BusErrorsAreExactlyTheStatedOnes :
    (hostRead 0x00001 .word running).1 = .busError ∧ (hostRead 0x1FFFE .half running).1 = .busError ∧
    (hostRead 0x10100 .word running).1 = .busError ∧ (hostRead 0x100FC .word running).1 ≠ .busError ∧
    (hostRead 0x20004 .byte idle).1 = .busError ∧ (hostRead 0x20003 .byte idle).1 = .byte 0 ∧
    (hostWrite 0x20000 .word 0 idle).1 = .busError ∧ (hostWrite 0x10100 .word 0 idle).1 = .busError ∧
    (hostWrite 0x100FC .word 0 idle).1 = .written ∧ (hostWrite 0x0FFFC .word 0 idle).1 = .written := by
  refine ⟨by decide +kernel, by decide +kernel, by decide +kernel, ?_, by decide +kernel, by decide +kernel,
    by decide +kernel, by decide +kernel, by decide +kernel, by decide +kernel⟩
  intro h
  have h2 : (hostRead 0x100FC .word running).1 = .word (running.cramWord 63) := rfl
  rw [h2] at h
  exact BusReply.noConfusion h

theorem witness_CramIsWrittenByTheIdleHostOnly :
    (0x100FC : BitVec 18).toNat = 0x10000 + 4 * 63 ∧ 63 < idle.cfg.nCram ∧ 63 < 16384 ∧ idle.busy = false ∧
    running.busy = true ∧ exec .nop running = .next (answered (exec .nop running)) :=
  ⟨by decide +kernel, by decide +kernel, by decide +kernel, by decide +kernel, by decide +kernel, exec_answered _ _⟩

theorem witness_FramebufferReadsAreLittleEndian :
    idle.busy = false ∧ running.busy = true ∧ running.cfg.fbSize = 4 ∧ idle.cfg.fbSize = 4 ∧
    (0x20003 : BitVec 18).toNat = 0x20000 + 3 ∧ (0x20002 : BitVec 18).toNat = 0x20000 + 2 ∧
    (0x20000 : BitVec 18).toNat = 0x20000 + 0 := by decide +kernel

theorem witness_IrqFollowsTheFlags :
    idle.busy = false ∧ { idle with ie := true, done := true }.irq = true ∧
    { idle with ie := false, done := true }.irq = false ∧ { idle with ie := true, done := true }.err = false ∧
    { idle with ie := true, err := true }.done = false := by decide +kernel

theorem witness_HostReadsHaveNoSideEffect : idle.busy = false := rfl

theorem witness_HostCannotAffectARun :
    (Inv running ∧ running.busy = true) ∧
    SameRun running (withTurn .engine { running with ie := true, draws := 7 }) ∧
    EngineMoves running running ∧
    EngineMoves (withTurn .engine { running with ie := true, draws := 7 })
      { running with ie := true, draws := 7, pending := [.engine] } ∧
    step running = .next (answered (step running)) :=
  ⟨⟨running_inv, rfl⟩, ⟨rfl, rfl, rfl, rfl, rfl, rfl, rfl, rfl, rfl, rfl⟩, moves_alone rfl, moves_turn _, running_steps⟩

end Sys2Proof.Tests
end

section
/-! PROOFS. The register window of the host bus (10_state.md rules R22 to R36): where a 32-bit access lands, what a write
of CTRL does in each state of the engine, and which registers a write changes. -/

namespace Sys2Proof.Machine

/-! ### Accesses to the register window -/

theorem hostRead_register {a : BitVec 18} (s : State) (hlt : a.toNat < 0x10000) (hal : a.toNat % 4 = 0) :
    hostRead a .word s = (.word (readReg (regAt a.toNat) s).1, (readReg (regAt a.toNat) s).2) := by
  simp [hostRead, regionOf, AccessWidth.bytes, hlt, hal]

theorem hostWrite_register {a : BitVec 18} (d : Word) (s : State) (hlt : a.toNat < 0x10000) (hal : a.toNat % 4 = 0) :
    hostWrite a .word d s = (.written, writeReg (regAt a.toNat) d s) := by
  simp [hostWrite, regionOf, AccessWidth.bytes, hlt, hal]

theorem hostWrite_ctrl (d : Word) (s : State) : hostWrite 0x08 .word d s = (.written, writeCtrl d s) :=
  hostWrite_register d s (by decide) (by decide)

/-! ### CTRL -/

/-- START while idle begins a run: the flags are cleared and BUSY is set (R25), and IE takes its bit (R26). -/
theorem writeCtrl_start_idle {d : Word} {s : State} (hstart : d.getLsbD 0 = true) (hidle : s.busy = false) :
    writeCtrl d s =
      { s with ie := d.getLsbD 1, busy := true, done := false, err := false, errCode := .noError } := by
  simp [writeCtrl, startRun, hstart, hidle]

/-- A CTRL write during a run changes IE alone, whether or not START is set (R25, R26). -/
theorem writeCtrl_busy {s : State} (d : Word) (hbusy : s.busy = true) :
    writeCtrl d s = { s with ie := d.getLsbD 1 } := by
  simp [writeCtrl, startRun, hbusy]

@[simp] theorem writeCtrl_ie (d : Word) (s : State) : (writeCtrl d s).ie = d.getLsbD 1 := by
  unfold writeCtrl
  split_ifs <;> simp

/-- START reads 0 (R24). -/
theorem ctrlWord_start (s : State) : s.ctrlWord.getLsbD 0 = false := by simp [State.ctrlWord]

/-! ### Read-only and reserved registers -/

/-- From 0x01C on every offset is reserved (R36). -/
theorem regAt_reserved {o : Nat} (h : 0x1C ≤ o) : regAt o = .reserved := by
  unfold regAt
  split
  case h_8 => rfl
  all_goals omega

/-- The offsets of the three registers that a host write can change. -/
theorem regAt_writable {o : Nat} (h : regAt o = .ctrl ∨ regAt o = .status ∨ regAt o = .cp) :
    o = 0x08 ∨ o = 0x0C ∨ o = 0x10 := by
  unfold regAt at h
  split at h <;> simp_all

/-- A write to any register but CTRL, STATUS and CP is ignored (R22, R23, R34 to R36). -/
theorem writeReg_readOnly {r : Reg} (d : Word) (s : State) (h : ¬ (r = .ctrl ∨ r = .status ∨ r = .cp)) :
    writeReg r d s = s := by
  cases r
  case ctrl | status | cp => simp at h
  all_goals rfl

end Sys2Proof.Machine

namespace Sys2Proof.Proofs

open Sys2Proof Sys2Proof.Machine

/-- Settles O51: a START write is `writeCtrl`, whose result is known in each of the two states of the engine. -/
theorem startBeginsARun : Obligations.StartBeginsARun := by
  intro s d hstart
  rw [hostWrite_ctrl]
  refine ⟨fun hidle => ?_, fun hbusy => ?_, ?_⟩
  · simp [writeCtrl_start_idle hstart hidle]
  · simp [writeCtrl_busy d hbusy, hbusy]
  · exact ⟨writeCtrl_ie d s, writeCtrl_cp d s, writeCtrl_result d s, writeCtrl_fb d s, writeCtrl_cram d s,
      writeCtrl_cfg d s, ctrlWord_start _⟩

/-- Settles O53: an aligned offset that is none of CTRL, STATUS and CP names a register whose writes are ignored, and
from 0x01C on it names a reserved one. -/
theorem readOnlyRegistersIgnoreWrites : Obligations.ReadOnlyRegistersIgnoreWrites := by
  intro a s d hlt hal
  refine ⟨fun hnot => ?_, fun hreserved => ?_⟩
  · have hro : ¬ (regAt a.toNat = .ctrl ∨ regAt a.toNat = .status ∨ regAt a.toNat = .cp) := fun hw =>
      hnot (by simpa [← BitVec.toNat_inj] using regAt_writable hw)
    rw [hostWrite_register d s hlt hal, writeReg_readOnly d s hro]
  · rw [hostRead_register s hlt hal, regAt_reserved hreserved]
    rfl

end Sys2Proof.Proofs
end

section
/-! PROOFS. The memory side of the host bus (20_memory.md rules R61 to R66): which accesses the block refuses with a bus
error, and who can change the command RAM. -/

namespace Sys2Proof.Machine

/-! ### The region of an address (R62) -/

theorem regionOf_register {a : BitVec 18} (hlt : a.toNat < 0x10000) : regionOf a = .register a.toNat := by
  simp [regionOf, hlt]

theorem regionOf_cram {a : BitVec 18} (hge : 0x10000 ≤ a.toNat) (hlt : a.toNat < 0x20000) :
    regionOf a = .cram (a.toNat - 0x10000) := by
  simp [regionOf, hge.not_gt, hlt]

theorem regionOf_fb {a : BitVec 18} (hge : 0x20000 ≤ a.toNat) : regionOf a = .fb (a.toNat - 0x20000) := by
  have hnotReg : ¬ a.toNat < 0x10000 := by omega
  simp [regionOf, hnotReg, hge.not_gt]

/-- Every address is in one of the three regions. -/
theorem address_cases (a : BitVec 18) :
    a.toNat < 0x10000 ∨ (0x10000 ≤ a.toNat ∧ a.toNat < 0x20000) ∨ 0x20000 ≤ a.toNat := by omega

/-! ### Bus errors (R61, R62, R64, R66) -/

/-- The aligned reads that a region refuses: all but 32-bit ones of registers and CRAM, and those that reach a word or a
byte that does not exist. -/
def Region.refusesRead (cfg : Config) (w : AccessWidth) : Region → Prop
  | .register _ => w ≠ .word
  | .cram o => ¬(w = .word ∧ o / 4 < cfg.nCram)
  | .fb b => cfg.fbSize < b + w.bytes

/-- The aligned writes that a region refuses: as for reads, but the FB aperture refuses them all. -/
def Region.refusesWrite (cfg : Config) (w : AccessWidth) : Region → Prop
  | .register _ => w ≠ .word
  | .cram o => ¬(w = .word ∧ o / 4 < cfg.nCram)
  | .fb _ => True

theorem readFb_ne_busError (w : AccessWidth) (b : Nat) (s : State) : (readFb w b s).1 ≠ .busError := by
  cases w <;> simp [readFb]

/-- The outcome `r` of an access to `s`: a bus error that changes nothing where `P` holds, else no bus error. -/
def RefusedExactlyIf (P : Prop) (s : State) (r : BusReply × State) : Prop :=
  (P ∧ r = (.busError, s)) ∨ (¬ P ∧ r.1 ≠ .busError)

theorem RefusedExactlyIf.busError_iff {P : Prop} {s : State} {r : BusReply × State} (h : RefusedExactlyIf P s r) :
    r.1 = .busError ↔ P := by
  rcases h with ⟨hP, rfl⟩ | ⟨hP, hne⟩
  · exact iff_of_true rfl hP
  · exact iff_of_false hne hP

theorem RefusedExactlyIf.state_of_busError {P : Prop} {s : State} {r : BusReply × State}
    (h : RefusedExactlyIf P s r) (herr : r.1 = .busError) : r.2 = s := by
  rcases h with ⟨-, rfl⟩ | ⟨-, hne⟩
  · rfl
  · exact absurd herr hne

theorem hostRead_refusedExactlyIf (a : BitVec 18) (w : AccessWidth) (s : State) :
    RefusedExactlyIf (a.toNat % w.bytes ≠ 0 ∨ (regionOf a).refusesRead s.cfg w) s (hostRead a w s) := by
  by_cases hal : a.toNat % w.bytes = 0
  case neg => exact .inl ⟨.inl hal, by simp [hostRead, hal]⟩
  cases hr : regionOf a with
  | register o =>
    obtain rfl | hw := eq_or_ne w .word
    · simp [RefusedExactlyIf, hostRead, Region.refusesRead, hal, hr]
    · simp [RefusedExactlyIf, hostRead, Region.refusesRead, hal, hr, hw]
  | cram o =>
    by_cases hc : w = .word ∧ o / 4 < s.cfg.nCram
    · obtain ⟨rfl, hpop⟩ := hc
      simp [RefusedExactlyIf, hostRead, Region.refusesRead, hal, hr, hpop]
    · simp [RefusedExactlyIf, hostRead, Region.refusesRead, hal, hr, hc]
  | fb b =>
    by_cases hb : b + w.bytes ≤ s.cfg.fbSize
    · simp [RefusedExactlyIf, hostRead, Region.refusesRead, hal, hr, hb, readFb_ne_busError]
    · simp [RefusedExactlyIf, hostRead, Region.refusesRead, hal, hr, hb, Nat.lt_of_not_le hb]

theorem hostWrite_refusedExactlyIf (a : BitVec 18) (w : AccessWidth) (d : Word) (s : State) :
    RefusedExactlyIf (a.toNat % w.bytes ≠ 0 ∨ (regionOf a).refusesWrite s.cfg w) s (hostWrite a w d s) := by
  by_cases hal : a.toNat % w.bytes = 0
  case neg => exact .inl ⟨.inl hal, by simp [hostWrite, hal]⟩
  cases hr : regionOf a with
  | register o =>
    obtain rfl | hw := eq_or_ne w .word
    · simp [RefusedExactlyIf, hostWrite, Region.refusesWrite, hal, hr]
    · simp [RefusedExactlyIf, hostWrite, Region.refusesWrite, hal, hr, hw]
  | cram o =>
    by_cases hc : w = .word ∧ o / 4 < s.cfg.nCram
    · obtain ⟨rfl, hpop⟩ := hc
      simp [RefusedExactlyIf, hostWrite, Region.refusesWrite, hal, hr, hpop]
    · simp [RefusedExactlyIf, hostWrite, Region.refusesWrite, hal, hr, hc]
  | fb b => simp [RefusedExactlyIf, hostWrite, Region.refusesWrite, hal, hr]

/-- The refused aligned reads by address. -/
theorem refusesRead_regionOf (a : BitVec 18) (w : AccessWidth) (cfg : Config) :
    (regionOf a).refusesRead cfg w ↔
      (a.toNat < 0x20000 ∧ w ≠ .word) ∨
      (0x10000 ≤ a.toNat ∧ a.toNat < 0x20000 ∧ cfg.nCram ≤ (a.toNat - 0x10000) / 4) ∨
      (0x20000 ≤ a.toNat ∧ cfg.fbSize < a.toNat - 0x20000 + w.bytes) := by
  rcases address_cases a with hreg | ⟨hge, hlt⟩ | hfb
  · have hlt : a.toNat < 0x20000 := by omega
    simp [regionOf_register hreg, Region.refusesRead, hreg.not_ge, hlt, hlt.not_ge]
  · simp [regionOf_cram hge hlt, Region.refusesRead, hge, hlt, hlt.not_ge, imp_iff_not_or]
  · simp [regionOf_fb hfb, Region.refusesRead, hfb, hfb.not_gt]

/-- The refused aligned writes by address. -/
theorem refusesWrite_regionOf (a : BitVec 18) (w : AccessWidth) (cfg : Config) :
    (regionOf a).refusesWrite cfg w ↔
      w ≠ .word ∨ 0x20000 ≤ a.toNat ∨ (0x10000 ≤ a.toNat ∧ cfg.nCram ≤ (a.toNat - 0x10000) / 4) := by
  rcases address_cases a with hreg | ⟨hge, hlt⟩ | hfb
  · have hlt : a.toNat < 0x20000 := by omega
    simp [regionOf_register hreg, Region.refusesWrite, hreg.not_ge, hlt.not_ge]
  · simp [regionOf_cram hge hlt, Region.refusesWrite, hge, hlt.not_ge, imp_iff_not_or]
  · simp [regionOf_fb hfb, Region.refusesWrite, hfb]

/-! ### The command RAM (R65) -/

/-- The byte address of CRAM word `i` is in the CRAM region, at offset `4 * i`. -/
theorem regionOf_cramAddress {a : BitVec 18} {i : Nat} (ha : a.toNat = 0x10000 + 4 * i) (hi : i < 16384) :
    regionOf a = .cram (4 * i) := by
  rw [regionOf_cram (by omega) (by omega), ha, Nat.add_sub_cancel_left]

theorem hostRead_cram {a : BitVec 18} {i : Nat} {s : State} (ha : a.toNat = 0x10000 + 4 * i)
    (hpop : i < s.cfg.nCram) (hi : i < 16384) : hostRead a .word s = (.word (s.cramWord i), s) := by
  have hal : a.toNat % 4 = 0 := by omega
  simp [hostRead, AccessWidth.bytes, hal, regionOf_cramAddress ha hi, hpop]

theorem hostWrite_cram {a : BitVec 18} {i : Nat} {s : State} (d : Word) (ha : a.toNat = 0x10000 + 4 * i)
    (hpop : i < s.cfg.nCram) (hi : i < 16384) : hostWrite a .word d s = (.written, writeCram i d s) := by
  have hal : a.toNat % 4 = 0 := by omega
  simp [hostWrite, AccessWidth.bytes, hal, regionOf_cramAddress ha hi, hpop]

theorem writeCram_of_idle {s : State} (i : Nat) (d : Word) (hidle : s.busy = false) :
    writeCram i d s = s.setCramWord i d := by
  simp [writeCram, hidle]

theorem writeCram_of_busy {s : State} (i : Nat) (d : Word) (hbusy : s.busy = true) : writeCram i d s = s := by
  simp [writeCram, hbusy]

/-- No command changes a word of CRAM: neither of the two stops does, nor a new FB and RESULT with CP advanced. -/
theorem exec_cramWord {j : Instr} {s t : State} (h : exec j s = .next t) (k : Nat) : t.cramWord k = s.cramWord k := by
  rcases exec_shape j s t h with ⟨code, -, rfl⟩ | ⟨-, rfl⟩ | ⟨-, fb, r, rfl, -⟩
  · exact errorStop_cramWord code s k
  · rw [endStop_cramWord, advance_cramWord]
  · rw [advance_cramWord]
    exact cramWord_congr rfl rfl k

end Sys2Proof.Machine

namespace Sys2Proof.Proofs

open Sys2Proof Sys2Proof.Machine

/-- Settles O55: an access is a bus error where it is misaligned or its region refuses it, and then it has no effect;
the regions' refusals, read off by address, are the grounds that R62 and R64 state. -/
theorem busErrorsAreExactlyTheStatedOnes : Obligations.BusErrorsAreExactlyTheStatedOnes := by
  intro a w d s
  have hread := hostRead_refusedExactlyIf a w s
  have hwrite := hostWrite_refusedExactlyIf a w d s
  refine ⟨?_, ?_, hread.state_of_busError, hwrite.state_of_busError⟩
  · rw [hread.busError_iff, refusesRead_regionOf]
  · rw [hwrite.busError_iff, refusesWrite_regionOf]

/-- Settles O56: the access lands in word `i` of CRAM, where an idle block stores the word and a busy one does nothing;
what a command can do leaves CRAM out. -/
theorem cramIsWrittenByTheIdleHostOnly : Obligations.CramIsWrittenByTheIdleHostOnly := by
  intro i a d s ha hpop hi
  rw [hostWrite_cram d ha hpop hi]
  refine ⟨hostRead_cram ha hpop hi, rfl, fun hidle k => ?_, fun hidle => ?_, writeCram_of_busy i d,
    fun j t => exec_cramWord⟩
  · rw [writeCram_of_idle i d hidle, setCramWord_cramWord]
  · rw [writeCram_of_idle i d hidle]
    rfl

end Sys2Proof.Proofs
end

section
/-! PROOFS. The length of a command as a function of its header word (30_encoding.md rules R84, R85): the opcode as the
low byte of the header, the codepoint count as its high half, and the length of the opcode that the byte names. -/

namespace Sys2Proof

/-! ### The header's fields by mask and shift (R81) -/

theorem toNat_hdrOpc (h : Word) : (hdrOpc h).toNat = (h &&& 0xFF).toNat :=
  (Nat.and_two_pow_sub_one_eq_mod h.toNat 8).symm

theorem toNat_hdrN (h : Word) : (hdrN h).toNat = (h >>> 16).toNat := by
  have hlt : h.toNat < 2 ^ 32 := h.isLt
  simp only [hdrN, BitVec.extractLsb'_toNat, BitVec.toNat_ushiftRight, Nat.shiftRight_eq_div_pow]
  omega

/-- A header whose low byte is the code of `op` names `op`. -/
theorem opOf_hdrOpc_of_code {h : Word} {op : Op} (hcode : h &&& 0xFF = op.code.setWidth 32) :
    opOf (hdrOpc h) = some op := by
  have hopc : hdrOpc h = op.code := by
    apply BitVec.eq_of_toNat_eq
    rw [toNat_hdrOpc, hcode, BitVec.toNat_setWidth_of_le (by decide)]
  rw [hopc, opOf_code]

/-! ### The length (R85) -/

theorem commandLen_of_opOf {h : Word} {op : Op} (hop : opOf (hdrOpc h) = some op) : commandLen h = some (op.len h) := by
  rw [commandLen, hop, Option.map_some]

theorem commandLen_eq_none_iff (h : Word) : commandLen h = none ↔ 0x0F < (h &&& 0xFF).toNat := by
  rw [commandLen, Option.map_eq_none_iff, opOf_eq_none_iff, toNat_hdrOpc]

/-- The commands `ops` that share one length in the len column of R84 give it to every header with one of their codes. -/
theorem commandLen_of_code_mem {h : Word} {n : Nat} (ops : List Op) (hlen : ∀ op ∈ ops, op.len h = n)
    (hcode : h &&& 0xFF ∈ ops.map fun op => op.code.setWidth 32) : commandLen h = some n := by
  obtain ⟨op, hop, heq⟩ := List.mem_map.mp hcode
  rw [commandLen_of_opOf (opOf_hdrOpc_of_code heq.symm), hlen op hop]

/-- The longest command is TEXT with 65535 codepoints. -/
theorem Op.len_le (op : Op) (h : Word) : op.len h ≤ 65538 := by
  have hn : (hdrN h).toNat < 2 ^ 16 := (hdrN h).isLt
  cases op
  case text => simp only [Op.len]; omega
  all_goals simp [Op.len]

theorem commandLen_le {h : Word} {n : Nat} (hn : commandLen h = some n) : n ≤ 65538 := by
  obtain ⟨op, -, rfl⟩ := Option.map_eq_some_iff.mp hn
  exact op.len_le h

end Sys2Proof

namespace Sys2Proof.Proofs

open Sys2Proof Sys2Proof.Machine

/-- Settles O9: the low byte names TEXT, whose length counts its codepoints, or a command of one of the three fixed
lengths, or nothing. -/
theorem lengthIsAFunctionOfTheHeader : Obligations.LengthIsAFunctionOfTheHeader := by
  intro h
  refine ⟨fun htext => ?_, ?_, ?_, ?_, (commandLen_eq_none_iff h).mpr, fun _ => commandLen_le⟩
  · rw [commandLen_of_opOf (opOf_hdrOpc_of_code (op := .text) htext), Op.len, toNat_hdrN]
  · exact commandLen_of_code_mem [.nop, .endRun, .clear, .fheight] (by simp [Op.len])
  · exact commandLen_of_code_mem [.setpix, .getpix, .gwidth] (by simp [Op.len])
  · exact commandLen_of_code_mem [.hspan, .vspan, .line, .rect, .frect, .circle, .fcircle, .glyph] (by simp [Op.len])

end Sys2Proof.Proofs
end

section
/-! PROOFS. CLEAR, SETPIX and GETPIX (40_framebuffer.md rules R115, R116, R118): what a painting, a fill and an answer
followed by the advance of CP leave in the state, and the words of the three commands as numbers. -/

namespace Sys2Proof.Machine

/-! ### The words of the commands (R81, R82) -/

theorem encode_clear (c : Colour) : encode (.clear c) = [hdrWord 0x02 c 0 0] := by
  rw [encode, header_eq]; rfl

theorem encode_setpix (x y : Half) (c : Colour) : encode (.setpix x y c) = [hdrWord 0x03 c 0 0, pWord x y] := by
  rw [encode, header_eq, pointWord_eq]; rfl

theorem encode_getpix (x y : Half) : encode (.getpix x y) = [hdrWord 0x04 false 0 0, pWord x y] := by
  rw [encode, header_eq, pointWord_eq]; rfl

/-! ### The meanings -/

theorem exec_clear (c : Colour) (s : State) : exec (.clear c) s = .next ((s.fillFb (clearByte c)).advance 1) := rfl

/-- SETPIX is Paint of a single dot (R113, R114). -/
theorem exec_setpix (x y : Half) (c : Colour) (s : State) :
    exec (.setpix x y c) s = .next ((paint [.dot x.toInt y.toInt] c s).advance 2) := rfl

theorem exec_getpix (x y : Half) (s : State) :
    exec (.getpix x y) s = .next ((s.setResult (getPixelValue x.toInt y.toInt s)).advance 2) := rfl

/-! ### What stays -/

theorem SameControl.advance {s t : State} (h : SameControl s t) (n : Nat) : SameControl s (t.advance n) := { h with }

theorem fillFb_sameControl (s : State) (v : Byte) : SameControl s (s.fillFb v) := by constructor <;> simp

theorem setResult_sameControl (s : State) (v : Int) : SameControl s (s.setResult v) := by constructor <;> simp

/-- A memory in canonical form lists no address outside it. -/
theorem cellsGet_eq_none_of_le {α : Type} {size a : Nat} {l : List (Nat × α)} (hwf : cellsWf size l = true)
    (ha : size ≤ a) : cellsGet a l = none := by
  have hlt := ((cellsWf_iff size l).mp hwf).2
  clear hwf
  induction l with
  | nil => rfl
  | cons p l ih =>
    obtain ⟨hp, hl⟩ := List.forall_mem_cons.mp hlt
    rw [cellsGet, if_neg (by omega), ih hl]

/-- Outside FB, a framebuffer in canonical form reads as the draw of the last reset (R41, R52). -/
theorem fbByte_of_le {s : State} {i : Nat} (hwf : cellsWf s.cfg.fbSize s.fb = true) (hi : s.cfg.fbSize ≤ i) :
    s.fbByte i = Config.freeFbByte s.epoch i := by
  rw [State.fbByte, cellsGet_eq_none_of_le hwf hi, Option.getD_none]

/-- A fill writes no byte outside FB (R52). -/
theorem fillFb_fbByte_of_le {s : State} {i : Nat} (v : Byte) (hwf : cellsWf s.cfg.fbSize s.fb = true)
    (hi : s.cfg.fbSize ≤ i) : (s.fillFb v).fbByte i = s.fbByte i := by
  rw [fbByte_of_le hwf hi, fbByte_of_le (s := s.fillFb v) (fillFb_wf s v) hi, fillFb_epoch]

/-! ### The two shapes of a command's effect -/

/-- Paint of a set, and then the advance of CP, is all that a drawing command with that set does. -/
theorem paint_advance_draws {S : PointSet} {T : Int → Int → Prop} (hST : ∀ x y, S.has x y = true ↔ T x y) (c : Colour)
    (n : Nat) (s : State) : Draws T c n s ((paint S c s).advance n) := by
  have hbits : PaintsExactly T c s (paint S c s) := paintsExactly_congr (fun x y _ => hST x y) (paint_exactly S c s)
  obtain ⟨hcontrol, hresult, hcp⟩ := paint_same S c s
  exact {
    bits := hbits
    bytes := paintsExactly_bytes hbits
    control := hcontrol.advance n
    result := hresult
    cp := by rw [advance_cp, hcp] }

/-- A value in RESULT, and then the advance of CP, is all that a query with that answer does. -/
theorem setResult_advance_answers (v : Int) (n : Nat) (s : State) : Answers v n s ((s.setResult v).advance n) where
  result := rfl
  fb := fun _ => rfl
  control := (setResult_sameControl s v).advance n
  cp := rfl

/-- The value GETPIX reads is the bit of R51, or -1 off the surface. -/
theorem getPixelValue_eq (x y : Int) (s : State) :
    getPixelValue x y s =
      if 0 ≤ x ∧ x < (s.cfg.width : Int) ∧ 0 ≤ y ∧ y < (s.cfg.height : Int) then
        (if (s.fbByte (y.toNat * s.cfg.stride + x.toNat / 8)).getLsbD (7 - x.toNat % 8) then 1 else 0)
      else -1 := by
  simp only [getPixelValue, onSurface_iff, pixel_eq_getLsbD, Config.pixelByte, pixelBit]

end Sys2Proof.Machine

namespace Sys2Proof.Proofs

open Sys2Proof Sys2Proof.Machine

/-- Settles O19: the fill reaches every byte of FB, and an address outside FB is listed neither before nor after it. -/
theorem clearFillsEveryByte : Obligations.ClearFillsEveryByte := by
  intro c s
  refine ⟨encode_clear c, _, exec_clear c s, fun i hi => ?_, fun hwf i hi => ?_, ?_, ?_, ?_⟩
  · rw [advance_fbByte, fillFb_fbByte_lt s _ hi, clearByte]
  · rw [advance_fbByte, fillFb_fbByte_of_le _ hwf hi]
  · exact (fillFb_sameControl s _).advance 1
  · rw [advance_result, fillFb_result]
  · rw [advance_cp, fillFb_cp]; rfl

/-- Settles O20: SETPIX paints the set of one dot. -/
theorem setpixWritesOnePixel : Obligations.SetpixWritesOnePixel := by
  intro x y c s
  exact ⟨encode_setpix x y c, _, exec_setpix x y c s, paint_advance_draws (by simp) c 2 s⟩

/-- Settles O21: GETPIX answers the pixel's value, which is the bit that R51 names. -/
theorem getpixReadsOnePixel : Obligations.GetpixReadsOnePixel := by
  intro x y s
  rw [← getPixelValue_eq]
  exact ⟨encode_getpix x y, _, exec_getpix x y s, setResult_advance_answers _ 2 s⟩

end Sys2Proof.Proofs
end

section
/-! PROOFS. HSPAN and VSPAN (41_span_filler.md rules R130, R131, R134): the half of a point word that must be zero, what
it does to the decoding of a command, and the two commands as Paint of one run. -/

namespace Sys2Proof.Machine

/-! ### The halves of a point word by mask (R82, R87) -/

theorem pointWord_and_pointWord (a b a' b' : Half) :
    pointWord a b &&& pointWord a' b' = pointWord (a &&& a') (b &&& b') := by
  apply BitVec.eq_of_getLsbD_eq
  intro i hi
  by_cases h : i < 16
  · simp [pointWord, h, hi, -BitVec.getLsbD_eq_getElem]
  · have ha : a.getLsbD i = false := BitVec.getLsbD_of_ge a i (not_lt.mp h)
    have ha' : a'.getLsbD i = false := BitVec.getLsbD_of_ge a' i (not_lt.mp h)
    have hk : i - 16 < 32 := by omega
    simp [pointWord, h, hi, ha, ha', hk, -BitVec.getLsbD_eq_getElem]

theorem and_lowHalf (w : Word) : w &&& 0x0000FFFF = pointWord (ptA w) 0#16 :=
  calc w &&& 0x0000FFFF = pointWord (ptA w) (ptB w) &&& pointWord (BitVec.allOnes 16) 0#16 := by
        rw [pointWord_ptA_ptB]; rfl
    _ = pointWord (ptA w) 0#16 := by rw [pointWord_and_pointWord, BitVec.and_allOnes, BitVec.and_zero]

theorem and_highHalf (w : Word) : w &&& 0xFFFF0000 = pointWord 0#16 (ptB w) :=
  calc w &&& 0xFFFF0000 = pointWord (ptA w) (ptB w) &&& pointWord 0#16 (BitVec.allOnes 16) := by
        rw [pointWord_ptA_ptB]; rfl
    _ = pointWord 0#16 (ptB w) := by rw [pointWord_and_pointWord, BitVec.and_allOnes, BitVec.and_zero]

theorem ptA_ne_zero_of_and {w : Word} (h : w &&& 0x0000FFFF ≠ 0) : ptA w ≠ 0 := by
  intro h0
  rw [and_lowHalf, h0] at h
  exact h rfl

theorem ptB_ne_zero_of_and {w : Word} (h : w &&& 0xFFFF0000 ≠ 0) : ptB w ≠ 0 := by
  intro h0
  rw [and_highHalf, h0] at h
  exact h rfl

/-! ### Reserved argument fields at the decoder -/

/-- A command whose words are all there is rejected as reserved if a must-be-zero field of its argument words is set,
whatever its operand fields hold (R87, R90). -/
theorem decode_of_argsReserved {op : Op} {args : List Word} (c : Colour) (rest : List Word)
    (hlen : args.length + 1 = op.len (header op c 0 0)) (hres : argsReserved op args = true) :
    decode (hdrWord op.code.toNat c 0 0 :: (args ++ rest)) = .error .reserved := by
  have hop : opOf (hdrOpc (header op c 0 0)) = some op := by rw [hdrOpc_header, opOf_code]
  have hheader : hdrWord op.code.toNat c 0 0 = header op c 0 0 := (header_eq op c 0 0).symm
  rw [hheader, decode_words op _ args rest hop hlen, hres, Bool.or_true, if_pos rfl]

/-- HSPAN has no operand in B(W2) (R131). -/
theorem decode_hspan_reserved (c : Colour) {w1 w2 : Word} (rest : List Word) (h : w2 &&& 0xFFFF0000 ≠ 0) :
    decode (hdrWord 0x05 c 0 0 :: w1 :: w2 :: rest) = .error .reserved :=
  decode_of_argsReserved (op := .hspan) (args := [w1, w2]) c rest rfl (bne_iff_ne.mpr (ptB_ne_zero_of_and h))

/-- VSPAN has no operand in A(W2) (R134). -/
theorem decode_vspan_reserved (c : Colour) {w1 w2 : Word} (rest : List Word) (h : w2 &&& 0x0000FFFF ≠ 0) :
    decode (hdrWord 0x06 c 0 0 :: w1 :: w2 :: rest) = .error .reserved :=
  decode_of_argsReserved (op := .vspan) (args := [w1, w2]) c rest rfl (bne_iff_ne.mpr (ptA_ne_zero_of_and h))

/-! ### The words and the meanings of the two commands -/

theorem encode_hspan (x0 x1 y : Half) (c : Colour) :
    encode (.hspan x0 x1 y c) = [hdrWord 0x05 c 0 0, pWord x0 y, pWord x1 0] := by
  rw [encode, header_eq, pointWord_eq, pointWord_eq]; rfl

theorem encode_vspan (x y0 y1 : Half) (c : Colour) :
    encode (.vspan x y0 y1 c) = [hdrWord 0x06 c 0 0, pWord x y0, pWord 0 y1] := by
  rw [encode, header_eq, pointWord_eq, pointWord_eq]; rfl

theorem exec_hspan (x0 x1 y : Half) (c : Colour) (s : State) :
    exec (.hspan x0 x1 y c) s = .next ((paint [.hrun x0.toInt x1.toInt y.toInt] c s).advance 3) := rfl

theorem exec_vspan (x y0 y1 : Half) (c : Colour) (s : State) :
    exec (.vspan x y0 y1 c) s = .next ((paint [.vrun x.toInt y0.toInt y1.toInt] c s).advance 3) := rfl

end Sys2Proof.Machine

namespace Sys2Proof.Proofs

open Sys2Proof Sys2Proof.Machine

/-- Settles O27: HSPAN paints the set of one horizontal run, and a set bit of B(W2) is reserved. -/
theorem hspanPaintsTheRun : Obligations.HspanPaintsTheRun := by
  intro x0 x1 y c s
  refine ⟨encode_hspan x0 x1 y c, fun _ _ rest => decode_hspan_reserved c rest, _, exec_hspan x0 x1 y c s, ?_⟩
  exact paint_advance_draws (by simp) c 3 s

/-- Settles O28: VSPAN paints the set of one vertical run, and a set bit of A(W2) is reserved. -/
theorem vspanPaintsTheRun : Obligations.VspanPaintsTheRun := by
  intro x y0 y1 c s
  refine ⟨encode_vspan x y0 y1 c, fun _ _ rest => decode_vspan_reserved c rest, _, exec_vspan x y0 y1 c s, ?_⟩
  exact paint_advance_draws (by simp) c 3 s

end Sys2Proof.Proofs
end

section
/-! PROOFS. RECT, FRECT and FCIRCLE (42_primitives.md rules R147, R149, R156): the points of their sets, and the three
commands as Paint of these sets. -/

namespace Sys2Proof.Machine

/-! ### Rectangles (R145, R146) -/

theorem rectSet_has_iff {x0 y0 x1 y1 x y : Int} :
    (rectSet x0 y0 x1 y1).has x y = true ↔
      (min x0 x1 ≤ x ∧ x ≤ max x0 x1 ∧ (y = y0 ∨ y = y1)) ∨ (min y0 y1 ≤ y ∧ y ≤ max y0 y1 ∧ (x = x0 ∨ x = x1)) := by
  simp only [rectSet, PointSet.has_cons, PointSet.has_nil, Piece.has_hrun, Piece.has_vrun, Bool.or_eq_true,
    decide_eq_true_eq, Bool.false_eq_true]
  tauto

/-- The rows of FRectSet lie between the corners' rows, and each is one whole run (R146). -/
theorem frectSet_has_iff {x0 y0 x1 y1 x y : Int} :
    (frectSet x0 y0 x1 y1).has x y = true ↔
      min x0 x1 ≤ x ∧ x ≤ max x0 x1 ∧ min y0 y1 ≤ y ∧ y ≤ max y0 y1 := by
  simp only [PointSet.has_iff, frectSet, List.mem_map, mem_intRange]
  constructor
  · rintro ⟨_, ⟨row, hrow, rfl⟩, hx⟩
    obtain ⟨rfl, hlo, hhi⟩ := of_decide_eq_true hx
    exact ⟨hlo, hhi, hrow⟩
  · rintro ⟨hlo, hhi, hrow⟩
    exact ⟨.hrun x0 x1 y, ⟨y, hrow, rfl⟩, decide_eq_true ⟨rfl, hlo, hhi⟩⟩

/-! ### The smallest circles (R150) -/

/-- Radius 0 has one octant offset, the centre's. -/
theorem circleSteps_zero : circleSteps 0 = [(0, 0)] := rfl

/-- The walk of a negative radius starts with y < x, so it has no turn. -/
theorem circleSteps_of_neg {r : Int} (hr : r < 0) : circleSteps r = [] := by
  have hfuel : (r + 1).toNat = 0 := Int.toNat_of_nonpos hr
  rw [circleSteps, hfuel, circleLoop]

theorem fcircleSet_zero_has_iff {cx cy x y : Int} : (fcircleSet cx cy 0).has x y = true ↔ x = cx ∧ y = cy := by
  have hset : fcircleSet cx cy 0 = span4 cx cy 0 0 := by rw [fcircleSet, circleSteps_zero, List.flatMap_singleton]
  have hspans : (span4 cx cy 0 0).has x y = true ↔ y = cy ∧ cx ≤ x ∧ x ≤ cx := by simp [span4]
  rw [hset, hspans]
  omega

theorem fcircleSet_has_of_neg {r : Int} (hr : r < 0) (cx cy x y : Int) : (fcircleSet cx cy r).has x y = false := by
  rw [fcircleSet, circleSteps_of_neg hr, List.flatMap_nil, PointSet.has_nil]

/-! ### The words and the meanings of the three commands -/

theorem encode_rect (x0 y0 x1 y1 : Half) (c : Colour) :
    encode (.rect x0 y0 x1 y1 c) = [hdrWord 0x08 c 0 0, pWord x0 y0, pWord x1 y1] := by
  rw [encode, header_eq, pointWord_eq, pointWord_eq]; rfl

theorem encode_frect (x0 y0 x1 y1 : Half) (c : Colour) :
    encode (.frect x0 y0 x1 y1 c) = [hdrWord 0x09 c 0 0, pWord x0 y0, pWord x1 y1] := by
  rw [encode, header_eq, pointWord_eq, pointWord_eq]; rfl

theorem encode_fcircle (cx cy r : Half) (c : Colour) :
    encode (.fcircle cx cy r c) = [hdrWord 0x0B c 0 0, pWord cx cy, pWord r 0] := by
  rw [encode, header_eq, pointWord_eq, pointWord_eq]; rfl

/-- FCIRCLE has no operand in B(W2) (R156). -/
theorem decode_fcircle_reserved (c : Colour) {w1 w2 : Word} (rest : List Word) (h : w2 &&& 0xFFFF0000 ≠ 0) :
    decode (hdrWord 0x0B c 0 0 :: w1 :: w2 :: rest) = .error .reserved :=
  decode_of_argsReserved (op := .fcircle) (args := [w1, w2]) c rest rfl (bne_iff_ne.mpr (ptB_ne_zero_of_and h))

theorem exec_rect (x0 y0 x1 y1 : Half) (c : Colour) (s : State) :
    exec (.rect x0 y0 x1 y1 c) s = .next ((paint (rectSet x0.toInt y0.toInt x1.toInt y1.toInt) c s).advance 3) := rfl

theorem exec_frect (x0 y0 x1 y1 : Half) (c : Colour) (s : State) :
    exec (.frect x0 y0 x1 y1 c) s = .next ((paint (frectSet x0.toInt y0.toInt x1.toInt y1.toInt) c s).advance 3) := rfl

theorem exec_fcircle (cx cy r : Half) (c : Colour) (s : State) :
    exec (.fcircle cx cy r c) s = .next ((paint (fcircleSet cx.toInt cy.toInt r.toInt) c s).advance 3) := rfl

end Sys2Proof.Machine

namespace Sys2Proof.Proofs

open Sys2Proof Sys2Proof.Machine

/-- Settles O34: RECT paints the set of the four edges. -/
theorem rectPaintsTheBorder : Obligations.RectPaintsTheBorder := by
  intro x0 y0 x1 y1 c s
  exact ⟨encode_rect x0 y0 x1 y1 c, _, exec_rect x0 y0 x1 y1 c s, paint_advance_draws (fun _ _ => rectSet_has_iff) c 3 s⟩

/-- Settles O35: FRECT paints the set of the rows between the corners. -/
theorem frectPaintsTheRectangle : Obligations.FrectPaintsTheRectangle := by
  intro x0 y0 x1 y1 c s
  exact ⟨encode_frect x0 y0 x1 y1 c, _, exec_frect x0 y0 x1 y1 c s,
    paint_advance_draws (fun _ _ => frectSet_has_iff) c 3 s⟩

/-- Settles O38: FCIRCLE paints FCircleSet, a set bit of B(W2) is reserved, and the walk has one offset for radius 0 and
none for a negative radius. -/
theorem fcirclePaintsTheDisc : Obligations.FcirclePaintsTheDisc := by
  intro cx cy r c s S
  have hpaints : Completes (.fcircle cx cy r c) s (Draws (fun px py => S.has px py = true) c 3 s) :=
    ⟨_, exec_fcircle cx cy r c s, paint_advance_draws (fun _ _ => Iff.rfl) c 3 s⟩
  have hcentre : r.toInt = 0 → ∀ x y, S.has x y = true ↔ x = cx.toInt ∧ y = cy.toInt := by
    intro hr x y
    simp only [S, hr, fcircleSet_zero_has_iff]
  exact ⟨encode_fcircle cx cy r c, fun _ _ rest => decode_fcircle_reserved c rest, hpaints, hcentre,
    fun hr => fcircleSet_has_of_neg hr cx.toInt cy.toInt⟩

end Sys2Proof.Proofs
end

section
/-! PROOFS. GWIDTH and FHEIGHT (43_font_store.md rules R180, R182): the two outcomes of the font checks for a query, the
effective width of a glyph, and the two commands as answers. -/

namespace Sys2Proof.Machine

/-! ### The font of a slot (R222) -/

/-- An empty slot and a slot past the last one both hold no font. -/
theorem font_eq_none_iff {s : State} {f : FontSlot} : s.font f = none ↔ NoFont s f := Option.join_eq_none_iff

theorem font_eq_some_iff {s : State} {f : FontSlot} {font : Font} : s.font f = some font ↔ HasFont s f font :=
  Option.join_eq_some_iff

theorem fontChecks_of_noFont (renders : Bool) {f : FontSlot} {s : State} (h : NoFont s f) :
    fontChecks renders f s = .error .noFont :=
  fontChecks_error_iff.mpr (.inl ⟨font_eq_none_iff.mpr h, rfl⟩)

/-- A query takes a font of any depth (R180, R181). -/
theorem fontChecks_query_of_hasFont {f : FontSlot} {s : State} {font : Font} (h : HasFont s f font) :
    fontChecks false f s = .ok font :=
  fontChecks_ok_iff.mpr ⟨font_eq_some_iff.mpr h, nofun⟩

/-! ### The effective width (R174, R179) -/

/-- The stored width is the low byte of the glyph entry. -/
theorem entryWidth_eq_and (e : Word) : entryWidth e = (e &&& 0xFF).toNat :=
  (Nat.and_two_pow_sub_one_eq_mod e.toNat 8).symm

theorem glyphWidth_of_absent {font : Font} {cp : Nat} (h : font.lookup cp = none) : font.glyphWidth cp = -1 := by
  rw [Font.glyphWidth, h]

theorem glyphWidth_of_present {font : Font} {cp g : Nat} (h : font.lookup cp = some g) :
    font.glyphWidth cp =
      if font.monospaceWidth ≠ 0 then (font.monospaceWidth : Int)
      else (((font.glyphTable.getD g 0) &&& 0xFF).toNat : Int) := by
  rw [Font.glyphWidth, h, ← entryWidth_eq_and]
  exact Nat.cast_ite ..

/-! ### The words and the meanings of the two commands -/

theorem encode_gwidth (f : FontSlot) (cp : Codepoint) :
    encode (.gwidth f cp) = [hdrWord 0x0E false f.toNat 0, uWord cp] := by
  rw [encode, header_eq, codepointWord_eq]; rfl

theorem encode_fheight (f : FontSlot) : encode (.fheight f) = [hdrWord 0x0F false f.toNat 0] := by
  rw [encode, header_eq]; rfl

theorem exec_gwidth (f : FontSlot) (cp : Codepoint) (s : State) : exec (.gwidth f cp) s = execGwidth f cp s := rfl

theorem exec_fheight (f : FontSlot) (s : State) : exec (.fheight f) s = execFheight f s := rfl

theorem exec_gwidth_of_noFont {f : FontSlot} (cp : Codepoint) {s : State} (h : NoFont s f) :
    exec (.gwidth f cp) s = .next (errorStop .noFont s) := by
  rw [exec_gwidth, execGwidth, fontChecks_of_noFont false h]

theorem exec_gwidth_of_hasFont {f : FontSlot} (cp : Codepoint) {s : State} {font : Font} (h : HasFont s f font) :
    exec (.gwidth f cp) s = .next ((s.setResult (font.glyphWidth cp.toNat)).advance 2) := by
  rw [exec_gwidth, execGwidth, fontChecks_query_of_hasFont h]

theorem exec_fheight_of_noFont {f : FontSlot} {s : State} (h : NoFont s f) :
    exec (.fheight f) s = .next (errorStop .noFont s) := by
  rw [exec_fheight, execFheight, fontChecks_of_noFont false h]

theorem exec_fheight_of_hasFont {f : FontSlot} {s : State} {font : Font} (h : HasFont s f font) :
    exec (.fheight f) s = .next ((s.setResult (font.heightPx : Int)).advance 1) := by
  rw [exec_fheight, execFheight, fontChecks_query_of_hasFont h]

end Sys2Proof.Machine

namespace Sys2Proof.Proofs

open Sys2Proof Sys2Proof.Machine

/-- Settles O43: GWIDTH answers `glyphWidth`, which is -1 where the lookup finds nothing and the effective width where
it finds a glyph. -/
theorem gwidthAnswersTheWidth : Obligations.GwidthAnswersTheWidth := by
  intro f cp s
  refine ⟨encode_gwidth f cp, fun hno => ⟨_, exec_gwidth_of_noFont cp hno, stops_errorStop .noFont s⟩,
    fun font hfont => ⟨_, exec_gwidth_of_hasFont cp hfont, ?_⟩⟩
  cases hlookup : font.lookup cp.toNat with
  | none =>
    rw [glyphWidth_of_absent hlookup]
    exact setResult_advance_answers _ 2 s
  | some g =>
    rw [glyphWidth_of_present hlookup]
    exact setResult_advance_answers _ 2 s

/-- Settles O44: FHEIGHT answers the height of the slot's font. -/
theorem fheightAnswersTheHeight : Obligations.FheightAnswersTheHeight := by
  intro f s
  exact ⟨encode_fheight f, fun hno => ⟨_, exec_fheight_of_noFont hno, stops_errorStop .noFont s⟩,
    fun font hfont => ⟨_, exec_fheight_of_hasFont hfont, setResult_advance_answers _ 1 s⟩⟩

end Sys2Proof.Proofs
end

section
/-! PROOFS. GLYPH (44_glyph_text.md rules R190, R194, R195): the font checks for a command that renders, the points of
GlyphSet, and the command as Paint of that set with the caret in RESULT. -/

namespace Sys2Proof.Machine

/-! ### The font checks of a command that renders (R190, R222) -/

theorem fontChecks_render_of_hasFont {f : FontSlot} {s : State} {font : Font} (h : HasFont s f font)
    (hbpp : font.bitsPerPixel = 1) : fontChecks true f s = .ok font :=
  fontChecks_ok_iff.mpr ⟨font_eq_some_iff.mpr h, fun _ => hbpp⟩

theorem fontChecks_render_of_depth {f : FontSlot} {s : State} {font : Font} (h : HasFont s f font)
    (hbpp : font.bitsPerPixel ≠ 1) : fontChecks true f s = .error .fontBpp :=
  fontChecks_error_iff.mpr (.inr ⟨font, font_eq_some_iff.mpr h, rfl, hbpp, rfl⟩)

/-! ### The points of a glyph (R192, R194) -/

theorem glyphSet_has_iff {font : Font} {G : Glyph} {x y px py : Int} :
    (glyphSet font G x y).has px py = true ↔ GlyphPoint font G x y px py := by
  simp only [PointSet.has_iff, glyphSet, List.mem_flatMap, List.mem_map, List.mem_filter, List.mem_range]
  constructor
  · rintro ⟨_, ⟨r, hr, k, ⟨hk, hbit⟩, rfl⟩, hpoint⟩
    exact ⟨r, k, hr, hk, hbit, of_decide_eq_true hpoint⟩
  · rintro ⟨r, k, hr, hk, hbit, hpoint⟩
    exact ⟨_, ⟨r, hr, k, ⟨hk, hbit⟩, rfl⟩, decide_eq_true hpoint⟩

/-! ### Drawing with an answer -/

/-- All that a command of `len` words does which paints the point set `T` and answers `v`: the conjunction of the
obligations on GLYPH and TEXT, as `Draws` and `Answers` are for the commands that do only one of the two. -/
def DrawsAndAnswers (T : Int → Int → Prop) (c : Colour) (v : Int) (len : Nat) (s t : State) : Prop :=
  PaintsExactly T c s t ∧ (∀ i, (∀ j, ¬Painted s.cfg T i j) → t.fbByte i = s.fbByte i) ∧
    SameControl s t ∧ t.cp = s.cp + BitVec.ofNat 16 len ∧ t.result = BitVec.ofInt 32 v

theorem SameControl.setResult {s t : State} (h : SameControl s t) (v : Int) : SameControl s (t.setResult v) := { h with }

/-- A value in RESULT between Paint and the advance of CP adds the answer to what is drawn. -/
theorem paint_setResult_advance_drawsAndAnswers {S : PointSet} {T : Int → Int → Prop}
    (hST : ∀ x y, S.has x y = true ↔ T x y) (c : Colour) (v : Int) (n : Nat) (s : State) :
    DrawsAndAnswers T c v n s (((paint S c s).setResult v).advance n) := by
  have hdraws : Draws T c n s ((paint S c s).advance n) := paint_advance_draws hST c n s
  exact ⟨hdraws.bits, hdraws.bytes, hdraws.control.setResult v, hdraws.cp, rfl⟩

/-! ### The words and the meaning of GLYPH (R195) -/

theorem encode_glyph (cp : Codepoint) (x y : Half) (c : Colour) (f : FontSlot) :
    encode (.glyph cp x y c f) = [hdrWord 0x0C c f.toNat 0, pWord x y, uWord cp] := by
  rw [encode, header_eq, pointWord_eq, codepointWord_eq]; rfl

theorem exec_glyph (cp : Codepoint) (x y : Half) (c : Colour) (f : FontSlot) (s : State) :
    exec (.glyph cp x y c f) s = execGlyph cp x y c f s := rfl

theorem drawGlyph_of_missing {font : Font} {cp : Codepoint} (h : font.glyph cp.toNat = none) (x y : Int) (c : Colour)
    (s : State) : drawGlyph font cp x y c s = s.setResult x := by
  rw [drawGlyph, h]

theorem drawGlyph_of_present {font : Font} {cp : Codepoint} {G : Glyph} (h : font.glyph cp.toNat = some G) (x y : Int)
    (c : Colour) (s : State) :
    drawGlyph font cp x y c s = (paint (glyphSet font G x y) c s).setResult (x + (G.widthPx : Int)) := by
  rw [drawGlyph, h]

theorem exec_glyph_of_hasFont (cp : Codepoint) (x y : Half) (c : Colour) {f : FontSlot} {s : State} {font : Font}
    (h : HasFont s f font) (hbpp : font.bitsPerPixel = 1) :
    exec (.glyph cp x y c f) s = .next ((drawGlyph font cp x.toInt y.toInt c s).advance 3) := by
  rw [exec_glyph, execGlyph, fontChecks_render_of_hasFont h hbpp]; rfl

/-- A failed font check is an error stop before any pixel is written. -/
theorem glyph_stopsWith (cp : Codepoint) (x y : Half) (c : Colour) {f : FontSlot} {s : State} {e : ErrorCode}
    (h : fontChecks true f s = .error e) : Completes (.glyph cp x y c f) s (StopsWith e s) := by
  refine ⟨_, ?_, stops_errorStop e s⟩
  rw [exec_glyph, execGlyph, h]

end Sys2Proof.Machine

namespace Sys2Proof.Proofs

open Sys2Proof Sys2Proof.Machine

/-- Settles O45: a failed font check stops, a missing glyph is answered as a query with the caret x, and a present one is
painted as GlyphSet with the caret past it as the answer. -/
theorem glyphPaintsItsBitsAndReturnsTheCaret : Obligations.GlyphPaintsItsBitsAndReturnsTheCaret := by
  intro cp x y c f s
  refine ⟨encode_glyph cp x y c f, fun hno => glyph_stopsWith cp x y c (fontChecks_of_noFont true hno),
    fun font hfont => ⟨fun hbpp => glyph_stopsWith cp x y c (fontChecks_render_of_depth hfont hbpp),
      fun hbpp => ⟨fun hmissing => ?_, fun G hpresent => ?_⟩⟩⟩
  · refine ⟨_, exec_glyph_of_hasFont cp x y c hfont hbpp, ?_⟩
    rw [drawGlyph_of_missing hmissing]
    exact setResult_advance_answers _ 3 s
  · refine ⟨_, exec_glyph_of_hasFont cp x y c hfont hbpp, ?_⟩
    rw [drawGlyph_of_present hpresent]
    exact paint_setResult_advance_drawsAndAnswers (fun _ _ => glyphSet_has_iff) c _ 3 s

end Sys2Proof.Proofs
end

section
/-! PROOFS. TEXT (44_glyph_text.md rules R197 to R201): Paint of a union as one Paint after another, TextRun as Paint of
the glyphs that the layout places, and the decoding of a command whose words are reserved or missing. -/

namespace Sys2Proof.Machine

/-! ### Paint of a union (R114) -/

theorem paintPoints_append (c : Colour) (l m : List (Int × Int)) (s : State) :
    paintPoints c (l ++ m) s = paintPoints c m (paintPoints c l s) := by
  induction l generalizing s with
  | nil => rfl
  | cons p l ih => exact ih (setPixel p.1 p.2 c s)

theorem paint_append (S T : PointSet) (c : Colour) (s : State) : paint (S ++ T) c s = paint T c (paint S c s) := by
  simp only [paint, List.flatMap_append, paintPoints_append, paintPoints_cfg]

/-! ### The layout (R197 to R199) -/

/-- The union of the GlyphSets of placed glyphs, every glyph with its top row at `top`. -/
def placedSet (font : Font) (top : Int) (places : List (Glyph × Int)) : PointSet :=
  places.flatMap fun g => glyphSet font g.1 g.2 top

theorem placedSet_has_iff {font : Font} {top px py : Int} {places : List (Glyph × Int)} :
    (placedSet font top places).has px py = true ↔ ∃ g ∈ places, GlyphPoint font g.1 g.2 top px py := by
  simp only [placedSet, PointSet.has_flatMap, List.any_eq_true, glyphSet_has_iff]

/-- TextRun paints the glyphs of the layout and ends with its final caret: the layout reads the state's width alone,
which painting keeps. -/
theorem textRun_eq_paint (font : Font) (top : Int) (c : Colour) (xo : Int) (cps : List Codepoint) (x : Int)
    (s : State) :
    textRun font top c xo cps x s =
      (paint (placedSet font top (textPlaces font (s.cfg.width : Int) xo cps x).1) c s,
        (textPlaces font (s.cfg.width : Int) xo cps x).2) := by
  induction cps generalizing x s with
  | nil => rfl
  | cons cp rest ih =>
    by_cases hstop : (s.cfg.width : Int) ≤ x
    · simp only [textRun, textPlaces, if_pos hstop]
      rfl
    · cases hG : font.glyph cp.toNat with
      | none => simp only [textRun, textPlaces, if_neg hstop, hG, ih]
      | some G =>
        simp only [textRun, textPlaces, if_neg hstop, hG, ih, paint_cfg, placedSet, List.flatMap_cons, paint_append]

/-! ### Reserved bits of a codepoint word (R83, R87) -/

theorem codepointWord_and_reserved (u : Codepoint) : codepointWord u &&& 0xFFE00000 = 0 := by
  have hmask : (0xFFE00000 : Word) = BitVec.allOnes 32 <<< 21 := rfl
  apply BitVec.eq_of_getLsbD_eq
  intro i _
  rw [hmask, BitVec.getLsbD_and, BitVec.getLsbD_shiftLeft, codepointWord, BitVec.getLsbD_setWidth]
  by_cases h : i < 21
  · simp [h]
  · simp [BitVec.getLsbD_of_ge u i (not_lt.mp h)]

theorem cpRsv_ne_zero_of_and {u : Word} (h : u &&& 0xFFE00000 ≠ 0) : cpRsv u ≠ 0 := by
  intro h0
  rw [← codepointWord_cpCpt u h0] at h
  exact h (codepointWord_and_reserved _)

/-! ### TEXT at the decoder and the encoder (R85, R90) -/

/-- A count that fits the field N is read back from it. -/
theorem toNat_ofNat_count {n : Nat} (hn : n ≤ maxCodepoints) : (BitVec.ofNat 16 n).toNat = n := by
  rw [BitVec.toNat_ofNat, Nat.mod_eq_of_lt (show n < 2 ^ 16 from Nat.lt_succ_of_le hn)]

/-- The header of TEXT with a count that fits the field N. -/
theorem header_text {n : Nat} (c : Colour) (f : FontSlot) (hn : n ≤ maxCodepoints) :
    header .text c f (BitVec.ofNat 16 n) = hdrWord 0x0D c f.toNat n := by
  rw [header_eq, toNat_ofNat_count hn]; rfl

theorem opOf_hdrOpc_text {n : Nat} (c : Colour) (f : FontSlot) (hn : n ≤ maxCodepoints) :
    opOf (hdrOpc (hdrWord 0x0D c f.toNat n)) = some .text := by
  rw [← header_text c f hn, hdrOpc_header, opOf_code]

theorem len_text {n : Nat} (c : Colour) (f : FontSlot) (hn : n ≤ maxCodepoints) :
    Op.len .text (hdrWord 0x0D c f.toNat n) = 3 + n := by
  rw [← header_text c f hn, Op.len, hdrN_header, toNat_ofNat_count hn]

/-- A reserved bit in any codepoint word of a TEXT command whose words are all there is a decode error. -/
theorem decode_text_reserved (c : Colour) (f : FontSlot) (w1 w2 : Word) {us : List Word} (rest : List Word)
    (hn : us.length ≤ maxCodepoints) (hres : ∃ u ∈ us, u &&& 0xFFE00000 ≠ 0) :
    decode (hdrWord 0x0D c f.toNat us.length :: ((w1 :: w2 :: us) ++ rest)) = .error .reserved := by
  have hlen : (w1 :: w2 :: us).length + 1 = Op.len .text (hdrWord 0x0D c f.toNat us.length) := by
    rw [len_text c f hn, List.length_cons, List.length_cons]; omega
  have hargs : argsReserved .text (w1 :: w2 :: us) = true := by
    obtain ⟨u, hu, hbits⟩ := hres
    exact List.any_eq_true.mpr ⟨u, hu, bne_iff_ne.mpr (cpRsv_ne_zero_of_and hbits)⟩
  rw [decode_words .text _ _ rest (opOf_hdrOpc_text c f hn) hlen, hargs, Bool.or_true, if_pos rfl]

/-- A TEXT command with fewer words than its count asks for is a decode error, whatever the words hold. -/
theorem decode_text_overrun {n : Nat} (c : Colour) (f : FontSlot) {ws : List Word} (hn : n ≤ maxCodepoints)
    (hws : ws.length < 2 + n) : decode (hdrWord 0x0D c f.toNat n :: ws) = .error .overrun := by
  simp only [decode, opOf_hdrOpc_text c f hn, len_text c f hn]
  exact if_pos (by omega)

theorem encode_text {cps : List Codepoint} (x y : Half) (c : Colour) (f : FontSlot) (xo yo : Half)
    (hn : cps.length ≤ maxCodepoints) :
    encode (.text cps x y c f xo yo) =
      hdrWord 0x0D c f.toNat cps.length :: pWord x y :: pWord xo yo :: cps.map uWord := by
  rw [encode, header_text c f hn, pointWord_eq, pointWord_eq, funext codepointWord_eq]

/-! ### The meaning of TEXT (R200) -/

theorem exec_text (cps : List Codepoint) (x y : Half) (c : Colour) (f : FontSlot) (xo yo : Half) (s : State) :
    exec (.text cps x y c f xo yo) s = execText cps x y c f xo yo s := rfl

/-- A failed font check is an error stop before any pixel is written. -/
theorem text_stopsWith (cps : List Codepoint) (x y : Half) (c : Colour) (xo yo : Half) {f : FontSlot} {s : State}
    {e : ErrorCode} (h : fontChecks true f s = .error e) :
    Completes (.text cps x y c f xo yo) s (StopsWith e s) := by
  refine ⟨_, ?_, stops_errorStop e s⟩
  rw [exec_text, execText, h]

/-- TEXT is Paint of the glyphs that its layout places, with the final caret in RESULT. -/
theorem exec_text_of_hasFont (cps : List Codepoint) (x y : Half) (c : Colour) (xo yo : Half) {f : FontSlot} {s : State}
    {font : Font} (h : HasFont s f font) (hbpp : font.bitsPerPixel = 1) :
    exec (.text cps x y c f xo yo) s =
      .next (((paint (placedSet font (y.toInt + yo.toInt)
        (textPlaces font (s.cfg.width : Int) xo.toInt cps x.toInt).1) c s).setResult
        (textPlaces font (s.cfg.width : Int) xo.toInt cps x.toInt).2).advance (3 + cps.length)) := by
  rw [exec_text, execText, fontChecks_render_of_hasFont h hbpp]
  simp only [drawText, textRun_eq_paint, coord]

end Sys2Proof.Machine

namespace Sys2Proof.Proofs

open Sys2Proof Sys2Proof.Machine

/-- Settles O46: TextRun is Paint of the glyphs that the layout places, so that TEXT draws their union and answers the
final caret; a reserved bit, missing words and a failed font check stop it. -/
theorem textPaintsItsGlyphsAndReturnsTheCaret : Obligations.TextPaintsItsGlyphsAndReturnsTheCaret := by
  intro cps x y c f xo yo s
  refine ⟨encode_text x y c f xo yo, fun w1 w2 us rest hn hlen hres => ?_, fun ws => decode_text_overrun c f,
    fun hno => text_stopsWith cps x y c xo yo (fontChecks_of_noFont true hno), fun font hfont =>
      ⟨fun hbpp => text_stopsWith cps x y c xo yo (fontChecks_render_of_depth hfont hbpp), fun hbpp => ?_⟩⟩
  · rw [← hlen] at hn ⊢
    exact decode_text_reserved c f w1 w2 rest hn hres
  · exact ⟨_, exec_text_of_hasFont cps x y c xo yo hfont hbpp,
      paint_setResult_advance_drawsAndAnswers (fun _ _ => placedSet_has_iff) c _ (3 + cps.length) s⟩

end Sys2Proof.Proofs
end

section
/-! PROOFS. NOP and END (45_sequencing.md rules R211, R213): a command without operands has one word, and every other
header with its opcode sets a must-be-zero field; what the two commands do to the state. -/

namespace Sys2Proof

/-! ### Commands without operands (R84, R87) -/

/-- The row of R84 of a command without operands: no field of the header is in use but OPC, and no word follows it. -/
structure Op.Bare (op : Op) : Prop where
  hasC : op.hasC = false
  hasF : op.hasF = false
  hasN : op.hasN = false
  len : ∀ h, op.len h = 1

theorem bare_nop : Op.Bare .nop := ⟨rfl, rfl, rfl, fun _ => rfl⟩

theorem bare_endRun : Op.Bare .endRun := ⟨rfl, rfl, rfl, fun _ => rfl⟩

/-- Where there is no argument word, none is reserved. -/
theorem argsReserved_nil (op : Op) : argsReserved op [] = false := by cases op <;> rfl

theorem Op.Bare.decode_cons {op : Op} (hop : op.Bare) {h : Word} (hopc : opOf (hdrOpc h) = some op) (rest : List Word) :
    decode (h :: rest) = if headerReserved op h then .error .reserved else .ok (assemble op h []) := by
  have hlen : ([] : List Word).length + 1 = op.len h := (hop.len h).symm
  have hdecode := decode_words op h [] rest hopc hlen
  rwa [argsReserved_nil, Bool.or_false, List.nil_append] at hdecode

/-- Every field of the header but OPC must be zero, so the opcode has a single header that is not reserved. -/
theorem Op.Bare.eq_header {op : Op} (hop : op.Bare) {h : Word} (hopc : opOf (hdrOpc h) = some op)
    (hres : headerReserved op h = false) : h = header op false 0 0 := by
  have hzero : ((hdrRsv h = 0 ∧ hdrC h = false) ∧ hdrF h = 0) ∧ hdrN h = 0 := by
    simpa [headerReserved, hop.hasC, hop.hasF, hop.hasN] using hres
  obtain ⟨⟨⟨hrsv, hC⟩, hF⟩, hN⟩ := hzero
  rw [← header_fields op h (code_of_opOf hopc) hrsv, hC, hF, hN]

theorem Op.Bare.decode_header {op : Op} (hop : op.Bare) (rest : List Word) :
    decode (header op false 0 0 :: rest) = .ok (assemble op (header op false 0 0) []) := by
  have hopc : opOf (hdrOpc (header op false 0 0)) = some op := by rw [hdrOpc_header, opOf_code]
  have hres := headerReserved_header op false 0 0 (.inr rfl) (.inr rfl) (.inr rfl)
  rw [hop.decode_cons hopc, hres, if_neg Bool.false_ne_true]

theorem Op.Bare.decode_reserved {op : Op} (hop : op.Bare) {h : Word} (rest : List Word)
    (hcode : h &&& 0xFF = op.code.setWidth 32) (hne : h ≠ header op false 0 0) :
    decode (h :: rest) = .error .reserved := by
  have hopc : opOf (hdrOpc h) = some op := opOf_hdrOpc_of_code hcode
  have hres : headerReserved op h = true := by
    by_contra hclear
    exact hne (hop.eq_header hopc (Bool.eq_false_iff.mpr hclear))
  rw [hop.decode_cons hopc, if_pos hres]

/-! ### The words of NOP and END (R211, R213) -/

theorem header_nop : header .nop false 0 0 = 0x00000000 := by decide

theorem header_endRun : header .endRun false 0 0 = 0x00000001 := by decide

theorem encode_nop : encode .nop = [0x00000000] := by rw [encode, header_nop]

theorem encode_endRun : encode .endRun = [0x00000001] := by rw [encode, header_endRun]

theorem decode_nop (rest : List Word) : decode (0x00000000 :: rest) = .ok .nop := by
  rw [← header_nop, bare_nop.decode_header, assemble]

theorem decode_endRun (rest : List Word) : decode (0x00000001 :: rest) = .ok .endRun := by
  rw [← header_endRun, bare_endRun.decode_header, assemble]

theorem decode_nop_reserved {h : Word} (rest : List Word) (hopc : h &&& 0xFF = 0x00) (hne : h ≠ 0x00000000) :
    decode (h :: rest) = .error .reserved :=
  bare_nop.decode_reserved rest hopc (header_nop ▸ hne)

theorem decode_endRun_reserved {h : Word} (rest : List Word) (hopc : h &&& 0xFF = 0x01) (hne : h ≠ 0x00000001) :
    decode (h :: rest) = .error .reserved :=
  bare_endRun.decode_reserved rest hopc (header_endRun ▸ hne)

end Sys2Proof

namespace Sys2Proof.Machine

/-! ### The meanings of NOP and END -/

theorem exec_nop (s : State) : exec .nop s = .next (s.advance 1) := rfl

theorem exec_endRun (s : State) : exec .endRun s = .next (endStop (s.advance 1)) := rfl

theorem SameControl.refl (s : State) : SameControl s s := by constructor <;> simp

end Sys2Proof.Machine

namespace Sys2Proof.Proofs

open Sys2Proof Sys2Proof.Machine

/-- Settles O17: NOP is a command without operands, and its meaning is the advance of CP alone. -/
theorem nopOnlyAdvances : Obligations.NopOnlyAdvances := by
  refine ⟨encode_nop, decode_nop, fun _ rest => decode_nop_reserved rest, fun s => ⟨_, exec_nop s, ?_⟩⟩
  exact ⟨advance_fbByte s 1, (SameControl.refl s).advance 1, advance_result s 1, advance_cp s 1⟩

/-- Settles O18: END is a command without operands, and its meaning is the advance of CP and then the stop, which writes
BUSY and DONE. -/
theorem endStopsTheRun : Obligations.EndStopsTheRun := by
  refine ⟨encode_endRun, decode_endRun, fun _ rest => decode_endRun_reserved rest, fun s => ⟨_, exec_endRun s, ?_⟩⟩
  have hfb : SameFb s (endStop (s.advance 1)) := fun i => by rw [endStop_fbByte, advance_fbByte]
  simp [hfb]

end Sys2Proof.Proofs
end

section
/-! PROOFS. Decoder and encoder as inverses (30_encoding.md rules R84 to R91, R93): what an encoding is made of, that the
decoder gives back every operand of it, and that words without a reserved bit are spelled by their operand fields. -/

namespace Sys2Proof

open Sys2Proof.Machine

/-! ### Decoding what the encoder writes -/

/-- The words of `i` are a header of `op` with the operand fields `c`, `f`, `n`, zero where `op` has none, and the
argument words `args`, and these stand for `i` (R84, R86, R87). -/
structure Spells (i : Instr) (op : Op) (c : Colour) (f : FontSlot) (n : BitVec 16) (args : List Word) : Prop where
  words : encode i = header op c f n :: args
  colour : op.hasC = true ∨ c = false
  slot : op.hasF = true ∨ f = 0
  count : op.hasN = true ∨ n = 0
  length : args.length + 1 = op.len (header op c f n)
  unreserved : argsReserved op args = false
  assembled : assemble op (header op c f n) args = i

theorem Spells.decode_eq {i : Instr} {op : Op} {c : Colour} {f : FontSlot} {n : BitVec 16} {args : List Word}
    (h : Spells i op c f n args) (rest : List Word) : decode (encode i ++ rest) = .ok i := by
  have hop : opOf (hdrOpc (header op c f n)) = some op := by rw [hdrOpc_header, opOf_code]
  have hheader : headerReserved op (header op c f n) = false := headerReserved_header op c f n h.colour h.slot h.count
  rw [h.words, List.cons_append, decode_words op _ args rest hop h.length, hheader, h.unreserved, h.assembled]
  rfl

/-- TEXT spells its count in the header's field N, which holds it if the list is well-formed. -/
theorem spells_text {cps : List Codepoint} (x y : Half) (c : Colour) (f : FontSlot) (xo yo : Half)
    (hn : cps.length ≤ maxCodepoints) :
    Spells (.text cps x y c f xo yo) .text c f (BitVec.ofNat 16 cps.length)
      (pointWord x y :: pointWord xo yo :: cps.map codepointWord) where
  words := rfl
  colour := .inl rfl
  slot := .inl rfl
  count := .inl rfl
  length := by
    rw [Op.len, hdrN_header, toNat_ofNat_count hn, List.length_cons, List.length_cons, List.length_map]
    omega
  unreserved := by simp [argsReserved, cpRsv_codepointWord]
  assembled := by
    simp [assemble, argWord, hdrC_header, hdrF_header, ptA_pointWord, ptB_pointWord, Function.comp_def,
      cpCpt_codepointWord]

/-- Every well-formed instruction has words that spell it: but for TEXT a header without a count and at most two argument
words. -/
theorem exists_spells {i : Instr} (hwf : i.wellFormed = true) : ∃ op c f n args, Spells i op c f n args := by
  cases i
  case text cps x y c f xo yo => exact ⟨_, _, _, _, _, spells_text x y c f xo yo (of_decide_eq_true hwf)⟩
  all_goals
    refine ⟨_, _, _, _, _, rfl, ?_, ?_, .inr rfl, rfl, ?_, ?_⟩
    all_goals simp [Op.hasC, Op.hasF, argsReserved, assemble, argWord, hdrC_header, hdrF_header, ptA_pointWord,
      ptB_pointWord, cpCpt_codepointWord, cpRsv_codepointWord]

theorem decode_encode_append {i : Instr} (hwf : i.wellFormed = true) (rest : List Word) :
    decode (encode i ++ rest) = .ok i := by
  obtain ⟨op, c, f, n, args, hspells⟩ := exists_spells hwf
  exact hspells.decode_eq rest

/-- Words that an instruction encodes to also decode to it. -/
theorem encodes_of_encode_eq {i : Instr} {ws : List Word} (hwf : i.wellFormed = true) (h : encode i = ws) :
    Encodes i ws := by
  have hdecode := decode_encode_append hwf []
  rw [List.append_nil, h] at hdecode
  exact ⟨h, hdecode⟩

/-! ### Encoding what the decoder read -/

/-- A header is not reserved exactly when RSV and each field that its command has no operand for are zero (R87). -/
theorem headerReserved_eq_false_iff {op : Op} {h : Word} :
    headerReserved op h = false ↔
      hdrRsv h = 0 ∧ (op.hasC = true ∨ hdrC h = false) ∧ (op.hasF = true ∨ hdrF h = 0) ∧
        (op.hasN = true ∨ hdrN h = 0) := by
  simp only [headerReserved, Bool.or_eq_false_iff, bne_eq_false_iff_eq, Bool.and_eq_false_iff, Bool.not_eq_false',
    and_assoc]

/-- A header whose must-be-zero fields are zero is spelled by the operand fields of its command. -/
theorem header_of_unreserved {op : Op} {h : Word} (hop : opOf (hdrOpc h) = some op)
    (hres : headerReserved op h = false) :
    header op (op.hasC && hdrC h) (if op.hasF then hdrF h else 0) (if op.hasN then hdrN h else 0) = h := by
  obtain ⟨hrsv, hC, hF, hN⟩ := headerReserved_eq_false_iff.mp hres
  have hc : (op.hasC && hdrC h) = hdrC h := by rcases hC with hC | hC <;> simp [hC]
  have hf : (if op.hasF then hdrF h else 0) = hdrF h := by rcases hF with hF | hF <;> simp [hF]
  have hn : (if op.hasN then hdrN h else 0) = hdrN h := by rcases hN with hN | hN <;> simp [hN]
  rw [hc, hf, hn, header_fields op h (code_of_opOf hop) hrsv]

theorem pointWord_ptA_zero {w : Word} (h : ptB w = 0#16) : pointWord (ptA w) 0#16 = w := by rw [← h, pointWord_ptA_ptB]

theorem pointWord_zero_ptB {w : Word} (h : ptA w = 0#16) : pointWord 0#16 (ptB w) = w := by rw [← h, pointWord_ptA_ptB]

theorem map_codepointWord_cpCpt {us : List Word} (h : ∀ u ∈ us, cpRsv u = 0) :
    us.map (fun u => codepointWord (cpCpt u)) = us := by
  have heq : us.map (fun u => codepointWord (cpCpt u)) = us.map id :=
    List.map_congr_left fun u hu => codepointWord_cpCpt u (h u hu)
  rw [heq, List.map_id]

/-- The words of a command without a reserved bit are the encoding of the instruction they stand for. -/
theorem encode_assemble {op : Op} {h : Word} {args : List Word} (hop : opOf (hdrOpc h) = some op)
    (hlen : args.length + 1 = op.len h) (hheader : headerReserved op h = false) (hargs : argsReserved op args = false) :
    encode (assemble op h args) = h :: args := by
  have hh := header_of_unreserved hop hheader
  cases op
  case text =>
    obtain ⟨w1, w2, us, rfl⟩ : ∃ w1 w2 us, args = w1 :: w2 :: us := by
      match args, hlen with
      | w1 :: w2 :: us, _ => exact ⟨w1, w2, us, rfl⟩
      | [_], hlen | [], hlen => simp [Op.len] at hlen; try omega
    have hcount : BitVec.ofNat 16 us.length = hdrN h := by
      have : us.length = (hdrN h).toNat := by simp [Op.len] at hlen; omega
      rw [this, BitVec.ofNat_toNat, BitVec.setWidth_eq]
    have hus : ∀ u ∈ us, cpRsv u = 0 := by simpa [argsReserved] using hargs
    simp_all [Op.hasC, Op.hasF, Op.hasN, assemble, argWord, encode, pointWord_ptA_ptB, Function.comp_def,
      map_codepointWord_cpCpt]
  case nop | endRun | clear | fheight =>
    obtain rfl : args = [] := List.length_eq_zero_iff.mp (by simpa [Op.len] using hlen)
    simpa [Op.hasC, Op.hasF, Op.hasN, assemble, encode] using hh
  case setpix | getpix | gwidth =>
    obtain ⟨w1, rfl⟩ := List.length_eq_one_iff.mp (Nat.succ.inj hlen)
    simp_all [Op.hasC, Op.hasF, Op.hasN, assemble, argWord, encode, argsReserved, pointWord_ptA_ptB,
      codepointWord_cpCpt]
  all_goals
    obtain ⟨w1, w2, rfl⟩ := List.length_eq_two.mp (Nat.succ.inj hlen)
    simp_all [Op.hasC, Op.hasF, Op.hasN, assemble, argWord, encode, argsReserved, pointWord_ptA_ptB,
      pointWord_ptA_zero, pointWord_zero_ptB, codepointWord_cpCpt]

/-- The count of a command that was read fits the field it was read from. -/
theorem wellFormed_assemble {op : Op} {h : Word} {args : List Word} (hlen : args.length + 1 = op.len h) :
    (assemble op h args).wellFormed = true := by
  cases op
  case text =>
    have hn : (hdrN h).toNat < 2 ^ 16 := (hdrN h).isLt
    have hcount : ((args.drop 2).map cpCpt).length ≤ maxCodepoints := by
      simp [Op.len, maxCodepoints] at hlen ⊢; omega
    exact decide_eq_true hcount
  all_goals rfl

/-! ### Must-be-zero bits by mask (R87) -/

/-- A word is zero exactly when its five header fields are. -/
theorem eq_zero_iff_header_fields (w : Word) :
    w = 0 ↔ hdrOpc w = 0 ∧ hdrC w = false ∧ hdrRsv w = 0 ∧ hdrF w = 0 ∧ hdrN w = 0 := by
  constructor
  · rintro rfl; decide
  · rintro ⟨hopc, hC, hrsv, hF, hN⟩
    have hheader : header .nop (hdrC w) (hdrF w) (hdrN w) = w := header_fields .nop w hopc.symm hrsv
    rw [← hheader, hC, hF, hN]
    decide

theorem headerZeroMask_fields (op : Op) :
    hdrOpc (headerZeroMask op) = 0 ∧ hdrC (headerZeroMask op) = !op.hasC ∧
    hdrRsv (headerZeroMask op) = BitVec.allOnes 3 ∧
    hdrF (headerZeroMask op) = (if op.hasF then 0 else BitVec.allOnes 4) ∧
    hdrN (headerZeroMask op) = if op.hasN then 0 else BitVec.allOnes 16 := by
  cases op <;> decide

/-- A mask that covers a field only where the flag is off. -/
theorem and_mask_eq_zero_iff {w : Nat} (flag : Bool) (v : BitVec w) :
    v &&& (if flag then 0 else BitVec.allOnes w) = 0 ↔ flag = true ∨ v = 0 := by
  cases flag <;> simp

/-- The header's mask of R87 covers exactly the fields that the decoder wants to be zero. -/
theorem and_headerZeroMask_eq_zero_iff (op : Op) (h : Word) :
    h &&& headerZeroMask op = 0 ↔ headerReserved op h = false := by
  obtain ⟨hopc, hC, hrsv, hF, hN⟩ := headerZeroMask_fields op
  have eopc : hdrOpc (h &&& headerZeroMask op) = hdrOpc h &&& hdrOpc (headerZeroMask op) := BitVec.extractLsb'_and ..
  have eC : hdrC (h &&& headerZeroMask op) = (hdrC h && hdrC (headerZeroMask op)) := BitVec.getLsbD_and ..
  have ersv : hdrRsv (h &&& headerZeroMask op) = hdrRsv h &&& hdrRsv (headerZeroMask op) := BitVec.extractLsb'_and ..
  have eF : hdrF (h &&& headerZeroMask op) = hdrF h &&& hdrF (headerZeroMask op) := BitVec.extractLsb'_and ..
  have eN : hdrN (h &&& headerZeroMask op) = hdrN h &&& hdrN (headerZeroMask op) := BitVec.extractLsb'_and ..
  have hcolour : (hdrC h && !op.hasC) = false ↔ op.hasC = true ∨ hdrC h = false := by
    rw [Bool.and_eq_false_iff, Bool.not_eq_false', or_comm]
  rw [eq_zero_iff_header_fields, eopc, eC, ersv, eF, eN, hopc, hC, hrsv, hF, hN, headerReserved_eq_false_iff, hcolour,
    and_mask_eq_zero_iff, and_mask_eq_zero_iff, BitVec.and_allOnes]
  exact ⟨fun ⟨_, hc, hr, hfn⟩ => ⟨hr, hc, hfn⟩, fun ⟨hr, hc, hfn⟩ => ⟨BitVec.and_zero, hc, hr, hfn⟩⟩

theorem and_lowHalf_ne_zero_iff (w : Word) : w &&& 0x0000FFFF ≠ 0 ↔ ptA w ≠ 0 := by
  refine ⟨ptA_ne_zero_of_and, fun hne h0 => hne ?_⟩
  rw [and_lowHalf] at h0
  rw [← ptA_pointWord (ptA w) 0#16, h0]
  rfl

theorem and_highHalf_ne_zero_iff (w : Word) : w &&& 0xFFFF0000 ≠ 0 ↔ ptB w ≠ 0 := by
  refine ⟨ptB_ne_zero_of_and, fun hne h0 => hne ?_⟩
  rw [and_highHalf] at h0
  rw [← ptB_pointWord 0#16 (ptB w), h0]
  rfl

theorem and_reserved_ne_zero_iff (u : Word) : u &&& 0xFFE00000 ≠ 0 ↔ cpRsv u ≠ 0 := by
  refine ⟨cpRsv_ne_zero_of_and, fun hne h0 => hne ?_⟩
  have hand : cpRsv (u &&& 0xFFE00000) = cpRsv u &&& cpRsv 0xFFE00000 := BitVec.extractLsb'_and ..
  have hmask : cpRsv 0xFFE00000 = BitVec.allOnes 11 := by decide
  rw [h0, hmask, BitVec.and_allOnes] at hand
  exact hand.symm

/-- The masks of R87 for the argument words cover exactly the fields that the decoder wants to be zero. -/
theorem argsReserved_iff {op : Op} {h : Word} {args : List Word} (hlen : args.length + 1 = op.len h) :
    argsReserved op args = true ↔
      ∃ k, 1 ≤ k ∧ k < op.len h ∧ argWord args k &&& argZeroMask op k ≠ 0 := by
  cases op
  case text =>
    simp only [argsReserved, List.any_eq_true, bne_iff_ne, ← and_reserved_ne_zero_iff, ← hlen, argWord, argZeroMask]
    constructor
    · rintro ⟨u, hu, hbits⟩
      obtain ⟨j, hj, rfl⟩ := List.mem_iff_getElem.mp hu
      rw [List.length_drop] at hj
      refine ⟨j + 3, by omega, by omega, ?_⟩
      simpa [List.getD_eq_getElem, show j + 2 < args.length by omega, Nat.add_comm 2 j] using hbits
    · rintro ⟨k, hk, hlt, hbits⟩
      by_cases h3 : 3 ≤ k
      · have hk1 : k - 1 < args.length := by omega
        rw [if_pos h3, List.getD_eq_getElem _ _ hk1] at hbits
        refine ⟨args[k - 1], List.mem_iff_getElem.mpr ⟨k - 3, by rw [List.length_drop]; omega, ?_⟩, hbits⟩
        simp [show 2 + (k - 3) = k - 1 by omega]
      · simp [h3] at hbits
  case hspan | circle | fcircle =>
    simp only [argsReserved, bne_iff_ne, ← and_highHalf_ne_zero_iff, argZeroMask, Op.len]
    exact ⟨fun hb => ⟨2, by simpa using hb⟩, fun ⟨k, _, _, hb⟩ => by by_cases hk : k = 2 <;> simp_all⟩
  case vspan =>
    simp only [argsReserved, bne_iff_ne, ← and_lowHalf_ne_zero_iff, argZeroMask, Op.len]
    exact ⟨fun hb => ⟨2, by simpa using hb⟩, fun ⟨k, _, _, hb⟩ => by by_cases hk : k = 2 <;> simp_all⟩
  case glyph =>
    simp only [argsReserved, bne_iff_ne, ← and_reserved_ne_zero_iff, argZeroMask, Op.len]
    exact ⟨fun hb => ⟨2, by simpa using hb⟩, fun ⟨k, _, _, hb⟩ => by by_cases hk : k = 2 <;> simp_all⟩
  case gwidth =>
    simp only [argsReserved, bne_iff_ne, ← and_reserved_ne_zero_iff, argZeroMask, Op.len]
    exact ⟨fun hb => ⟨1, by simpa using hb⟩, fun ⟨k, _, _, hb⟩ => by by_cases hk : k = 1 <;> simp_all⟩
  all_goals simp [argsReserved, argZeroMask]

/-- The must-be-zero bits of R87 are the fields that the decoder checks. -/
theorem reservedSet_iff {op : Op} {h : Word} {args : List Word} {W : Nat → Word} (hlen : args.length + 1 = op.len h)
    (hW : ∀ k, 1 ≤ k → k < op.len h → W k = argWord args k) :
    ReservedSet op h W ↔ (headerReserved op h || argsReserved op args) = true := by
  have hargs : (∃ k, 1 ≤ k ∧ k < op.len h ∧ W k &&& argZeroMask op k ≠ 0) ↔ argsReserved op args = true := by
    rw [argsReserved_iff hlen]
    refine exists_congr fun k => and_congr_right fun h1 => and_congr_right fun hlt => ?_
    rw [hW k h1 hlt]
  rw [ReservedSet, hargs, ne_eq, and_headerZeroMask_eq_zero_iff, Bool.not_eq_false, Bool.or_eq_true]

end Sys2Proof

namespace Sys2Proof.Proofs

open Sys2Proof Sys2Proof.Machine

/-- Settles O7: the words of a well-formed instruction spell its operands in fields that the decoder reads back. -/
theorem decodeInvertsEncode : Obligations.DecodeInvertsEncode :=
  fun _ rest hwf => decode_encode_append hwf rest

/-- Settles O8: what decodes is a command without a reserved bit, and the instruction it stands for encodes to exactly
its words. -/
theorem encodeInvertsDecode : Obligations.EncodeInvertsDecode := by
  intro ws i hdecode
  obtain ⟨op, h, args, rest, rfl, hop, hlen, hheader, hargs, rfl⟩ := decode_ok hdecode
  have hencode : encode (assemble op h args) = h :: args := encode_assemble hop hlen hheader hargs
  refine ⟨wellFormed_assemble hlen, ?_, ?_⟩
  · rw [hencode, ← List.cons_append, List.take_left]
  · rw [hencode, ← List.cons_append, List.length_append]
    exact Nat.le_add_right ..

/-- Settles O6: the decoder inverts the encoder, so that for each row only the encoder is evaluated. -/
theorem workedEncodingsDecode : Obligations.WorkedEncodingsDecode := by
  refine ⟨?_, ?_, ?_, ?_, ?_, ?_, ?_, ?_, ?_, ?_, ?_, ?_, ?_, ?_, ?_, ?_⟩
  all_goals exact encodes_of_encode_eq rfl (by decide)

/-- Settles O10: a command whose words are all there is rejected exactly by the decoder's two checks of must-be-zero
fields, which are the masks of R87. -/
theorem reservedFieldsAreRejected : Obligations.ReservedFieldsAreRejected := by
  intro op h args rest hop hlen
  have hW : ∀ k, 1 ≤ k → k < op.len h → (h :: args).getD k 0 = argWord args k := by
    intro k h1 _
    obtain ⟨j, rfl⟩ := Nat.exists_eq_add_of_le' h1
    rfl
  rw [reservedSet_iff hlen hW, List.cons_append, decode_words op h args rest hop hlen]
  split_ifs with hres <;> simp [hres]

end Sys2Proof.Proofs
end

section
/-! PROOFS. What every step keeps (10_state.md section 2, 20_memory.md sections 1, 3 and 6, 60_exceptions.md section 3): the
invariant through the engine's move, a host access and a reset, and the engine's blindness to the host's side. -/

namespace Sys2Proof.Machine

/-! ### The configuration checks (R8) -/

theorem nCram_le_of_legal {cfg : Config} (h : cfg.legal = true) : cfg.nCram ≤ 16384 := by
  simp only [Config.legal, Bool.and_eq_true, decide_eq_true_eq] at h
  obtain ⟨⟨⟨-, hle⟩, -⟩, -⟩ := h
  exact hle

/-! ### What a command leaves alone (R34, R39, R58) -/

/-- Everything that no engine move writes: the configuration, CRAM, CTRL.IE and the model's own fields. -/
structure EngineKeeps (s t : State) : Prop where
  cfg : t.cfg = s.cfg
  cram : t.cram = s.cram
  ie : t.ie = s.ie
  pending : t.pending = s.pending
  replies : t.replies = s.replies
  epoch : t.epoch = s.epoch
  draws : t.draws = s.draws

theorem EngineKeeps.cramWord {s t : State} (h : EngineKeeps s t) (i : Nat) : t.cramWord i = s.cramWord i :=
  cramWord_congr h.cram h.epoch i

theorem exec_keeps {i : Instr} {s t : State} (h : exec i s = .next t) : EngineKeeps s t := by
  rcases exec_shape i s t h with ⟨code, -, rfl⟩ | ⟨-, rfl⟩ | ⟨-, fb, r, rfl, -⟩
  all_goals exact ⟨rfl, rfl, rfl, rfl, rfl, rfl, rfl⟩

theorem engineTurn_keeps {s t : State} (h : engineTurn s = .next t) : EngineKeeps s t := by
  rcases engineTurn_cases h with ⟨-, rfl⟩ | ⟨-, ⟨e, -, rfl⟩ | ⟨i, -, hexec⟩⟩
  · exact ⟨rfl, rfl, rfl, rfl, rfl, rfl, rfl⟩
  · exact ⟨rfl, rfl, rfl, rfl, rfl, rfl, rfl⟩
  · exact exec_keeps hexec

theorem decodeErrorCode_ne_noError (e : DecodeError) : decodeErrorCode e ≠ .noError := by cases e <;> simp [decodeErrorCode]

/-! ### The invariant, operation by operation -/

/-- The turns pending are no part of the invariant. -/
theorem Inv.withPending {s : State} (h : Inv s) (l : List Turn) : Inv { s with pending := l } := { h with }

theorem Inv.errorStop {s : State} (h : Inv s) (hbusy : s.busy = true) {code : ErrorCode} (hcode : code ≠ .noError) :
    Inv (errorStop code s) where
  legal := h.legal
  fbWf := h.fbWf
  cramWf := h.cramWf
  busyClear := by simp
  oneOutcome := by simp [(h.busyClear hbusy).1]
  errCoded := fun _ => hcode
  doneClear := by simp [(h.busyClear hbusy).1]

theorem Inv.endStop {s : State} (h : Inv s) (hbusy : s.busy = true) : Inv (endStop s) where
  legal := h.legal
  fbWf := h.fbWf
  cramWf := h.cramWf
  busyClear := by simp
  oneOutcome := by simp [(h.busyClear hbusy).2.1]
  errCoded := by simp [(h.busyClear hbusy).2.1]
  doneClear := fun _ => (h.busyClear hbusy).2.2

theorem Inv.advance {s : State} (h : Inv s) (n : Nat) : Inv (s.advance n) := { h with }

/-- A framebuffer in canonical form and a new RESULT keep the invariant. -/
theorem Inv.withFbResult {s : State} (h : Inv s) {fb : List Host.Cell} (hfb : cellsWf s.cfg.fbSize fb = true) (r : Word) :
    Inv { s with fb := fb, result := r } := { h with fbWf := hfb }

theorem Inv.exec {i : Instr} {s t : State} (h : Inv s) (hbusy : s.busy = true) (hexec : exec i s = .next t) : Inv t := by
  rcases exec_shape i s t hexec with ⟨code, hcode, rfl⟩ | ⟨-, rfl⟩ | ⟨-, fb, r, rfl, hwf⟩
  · exact h.errorStop hbusy hcode
  · exact (h.advance 1).endStop hbusy
  · exact (h.withFbResult (hwf h.fbWf) r).advance _

theorem Inv.engineTurn {s t : State} (h : Inv s) (hturn : engineTurn s = .next t) : Inv t := by
  rcases engineTurn_cases hturn with ⟨-, rfl⟩ | ⟨hbusy, ⟨e, -, rfl⟩ | ⟨i, -, hexec⟩⟩
  · exact h
  · exact h.errorStop hbusy (decodeErrorCode_ne_noError e)
  · exact h.exec hbusy hexec

theorem writeCtrl_of_not_start {d : Word} (s : State) (hstart : d.getLsbD 0 = false) :
    writeCtrl d s = { s with ie := d.getLsbD 1 } := by
  simp only [writeCtrl, hstart, Bool.false_eq_true, if_false]

/-- A CTRL write takes IE, and while idle a START in it also clears the flags and sets BUSY (R25, R26). -/
theorem writeCtrl_cases (d : Word) (s : State) :
    writeCtrl d s = { s with ie := d.getLsbD 1 } ∨
      writeCtrl d s = { s with ie := d.getLsbD 1, busy := true, done := false, err := false, errCode := .noError } := by
  by_cases hbusy : s.busy = true
  · exact .inl (writeCtrl_busy d hbusy)
  by_cases hstart : d.getLsbD 0 = true
  · exact .inr (writeCtrl_start_idle hstart (Bool.eq_false_iff.mpr hbusy))
  · exact .inl (writeCtrl_of_not_start s (Bool.eq_false_iff.mpr hstart))

theorem Inv.writeCtrl {s : State} (h : Inv s) (d : Word) : Inv (writeCtrl d s) := by
  rcases writeCtrl_cases d s with heq | heq
  · rw [heq]; exact { h with }
  · rw [heq]
    exact { h with busyClear := fun _ => ⟨rfl, rfl, rfl⟩, oneOutcome := nofun, errCoded := nofun, doneClear := nofun }

/-- Clearing flags keeps the invariant: the error code stays where it was (R29 to R31). -/
theorem Inv.writeStatus {s : State} (h : Inv s) (d : Word) : Inv (writeStatus d s) where
  legal := h.legal
  fbWf := h.fbWf
  cramWf := h.cramWf
  busyClear := fun hbusy => by
    obtain ⟨hdone, herr, hcode⟩ := h.busyClear hbusy
    simp [hdone, herr, hcode]
  oneOutcome := by
    rintro ⟨hdone, herr⟩
    simp only [writeStatus_done, writeStatus_err, Bool.and_eq_true] at hdone herr
    exact h.oneOutcome ⟨hdone.1, herr.1⟩
  errCoded := fun herr => h.errCoded (Bool.and_elim_left herr)
  doneClear := fun hdone => h.doneClear (Bool.and_elim_left hdone)

theorem Inv.writeCp {s : State} (h : Inv s) (d : Word) : Inv (writeCp d s) := by
  unfold Machine.writeCp
  split_ifs
  · exact h
  · exact { h with }

theorem Inv.writeCram {s : State} (h : Inv s) {i : Nat} (d : Word) (hi : i < s.cfg.nCram) : Inv (writeCram i d s) := by
  unfold Machine.writeCram
  split_ifs
  · exact h
  · exact { h with cramWf := cellsWf_cellsSet h.cramWf hi }

theorem Inv.accessEffect {s t : State} (h : Inv s) (heffect : AccessEffect s t) : Inv t := by
  cases heffect with
  | same => exact h
  | drawn n _ => exact { h with }
  | ctrl d => exact h.writeCtrl d
  | status d => exact h.writeStatus d
  | cp d => exact h.writeCp d
  | cram i d hi => exact h.writeCram d hi

theorem Inv.hostTurn {s : State} (h : Inv s) (a : Access) : Inv (hostTurn a s) :=
  { h.accessEffect (hostAccess_effect a s) with }

theorem inv_resetWith {cfg : Config} (h : cfg.legal = true) : Inv (State.resetWith cfg) where
  legal := h
  fbWf := cellsWf_nil _
  cramWf := cellsWf_nil _
  busyClear := nofun
  oneOutcome := nofun
  errCoded := nofun
  doneClear := nofun

/-- A reset reaches the invariant from every state of a legal configuration. -/
theorem inv_resetTurn {s : State} (h : s.cfg.legal = true) : Inv (resetTurn s) := { inv_resetWith h with }

/-! ### The host's side of the state (R70) -/

/-- `s` with all that the engine never reads or writes as in `v`: CTRL.IE and the model's own fields but the reset
counter. -/
def State.withHost (s v : State) : State :=
  { s with ie := v.ie, pending := v.pending, replies := v.replies, draws := v.draws }

theorem sameRun_iff {s t : State} : SameRun s t ↔ t = s.withHost t := by
  constructor
  · rintro ⟨hcfg, hfb, hcram, hbusy, hdone, herr, hcode, hcp, hresult, hepoch⟩
    simp only [State.withHost, ← hcfg, ← hfb, ← hcram, ← hbusy, ← hdone, ← herr, ← hcode, ← hcp, ← hresult, ← hepoch]
  · intro heq
    rw [heq]
    exact ⟨rfl, rfl, rfl, rfl, rfl, rfl, rfl, rfl, rfl, rfl⟩

theorem sameRun_withHost (s v : State) : SameRun s (s.withHost v) := sameRun_iff.mpr rfl

theorem SameRun.trans {s t u : State} (h : SameRun s t) (h' : SameRun t u) : SameRun s u := by
  rw [sameRun_iff] at h h' ⊢
  rw [h', h]
  rfl

theorem SameRun.symm {s t : State} (h : SameRun s t) : SameRun t s := by
  rw [sameRun_iff] at h ⊢
  rw [h]
  rfl

theorem EngineMoves.sameRun {s u : State} (h : EngineMoves s u) : SameRun s u := by
  rw [engineMoves_eq h]
  exact sameRun_withHost s { s with pending := u.pending }

theorem setPixel_withHost (x y : Int) (c : Colour) (s v : State) :
    setPixel x y c (s.withHost v) = (setPixel x y c s).withHost v := by
  have hcfg : (s.withHost v).cfg = s.cfg := rfl
  rw [setPixel, setPixel, hcfg]
  split_ifs <;> rfl

theorem paintPoints_withHost (c : Colour) (l : List (Int × Int)) (s v : State) :
    paintPoints c l (s.withHost v) = (paintPoints c l s).withHost v := by
  induction l generalizing s with
  | nil => rfl
  | cons p l ih => rw [paintPoints, paintPoints, setPixel_withHost, ih]

theorem paint_withHost (S : PointSet) (c : Colour) (s v : State) :
    paint S c (s.withHost v) = (paint S c s).withHost v := paintPoints_withHost c _ s v

theorem drawGlyph_withHost (font : Font) (cp : Codepoint) (x y : Int) (c : Colour) (s v : State) :
    drawGlyph font cp x y c (s.withHost v) = (drawGlyph font cp x y c s).withHost v := by
  unfold drawGlyph
  split
  · rfl
  · rw [paint_withHost]; rfl

theorem drawText_withHost (font : Font) (cps : List Codepoint) (x y : Int) (c : Colour) (xo yo : Int) (s v : State) :
    drawText font cps x y c xo yo (s.withHost v) = (drawText font cps x y c xo yo s).withHost v := by
  simp only [drawText, textRun_eq_paint, paint_withHost]
  rfl

/-- The answer of a move with the host's side of the next state as in `v`. -/
def withHostNext (v : State) : Host.Outcome State Fault Refusal → Host.Outcome State Fault Refusal
  | .next t => .next (t.withHost v)
  | .fault r => .fault r
  | .refused r => .refused r

/-- A command neither reads nor writes the host's side. -/
theorem exec_withHost (i : Instr) (s v : State) : exec i (s.withHost v) = withHostNext v (exec i s) := by
  cases i
  case glyph cp x y c f =>
    simp only [exec, execGlyph, show fontChecks true f (s.withHost v) = fontChecks true f s from rfl]
    cases fontChecks true f s with
    | error e => rfl
    | ok font => simp only [drawGlyph_withHost]; rfl
  case text cps x y c f xo yo =>
    simp only [exec, execText, show fontChecks true f (s.withHost v) = fontChecks true f s from rfl]
    cases fontChecks true f s with
    | error e => rfl
    | ok font => simp only [drawText_withHost]; rfl
  case gwidth f cp =>
    simp only [exec, execGwidth, show fontChecks false f (s.withHost v) = fontChecks false f s from rfl]
    cases fontChecks false f s <;> rfl
  case fheight f =>
    simp only [exec, execFheight, show fontChecks false f (s.withHost v) = fontChecks false f s from rfl]
    cases fontChecks false f s <;> rfl
  case nop | endRun | clear | getpix => rfl
  all_goals
    simp only [exec, execSetpix, setPixel_withHost, execHspan, execVspan, execLine, execRect, execFrect,
      execCircle, execFcircle, paint_withHost]
    rfl

/-- The engine's turn neither reads nor writes the host's side. -/
theorem engineTurn_withHost (s v : State) : engineTurn (s.withHost v) = withHostNext v (engineTurn s) := by
  have hstep : engineStep (s.withHost v) = withHostNext v (engineStep s) := by
    have hfetch : fetchWords (s.withHost v) = fetchWords s := rfl
    rw [engineStep, engineStep, hfetch]
    cases decode (fetchWords s) with
    | error e => rfl
    | ok i => exact exec_withHost i s v
  have hbusy : (s.withHost v).busy = s.busy := rfl
  rw [engineTurn, engineTurn, hbusy]
  cases s.busy
  · rfl
  · exact hstep

/-- During a run a host access changes nothing on the engine's side (R25, R28, R32, R65). -/
theorem sameRun_of_accessEffect {s t : State} (hinv : Inv s) (hbusy : s.busy = true) (heffect : AccessEffect s t) :
    SameRun s t := by
  cases heffect with
  | same => exact sameRun_withHost s s
  | drawn n _ => exact sameRun_withHost s { s with draws := s.draws + n }
  | ctrl d => rw [writeCtrl_busy d hbusy]; exact sameRun_withHost s { s with ie := d.getLsbD 1 }
  | status d =>
    obtain ⟨hdone, herr, -⟩ := hinv.busyClear hbusy
    exact ⟨rfl, rfl, rfl, rfl, by simp [hdone], by simp [herr], rfl, rfl, rfl, rfl⟩
  | cp d => rw [writeCp, if_pos hbusy]; exact sameRun_withHost s s
  | cram i d _ => rw [writeCram_of_busy i d hbusy]; exact sameRun_withHost s s

end Sys2Proof.Machine

namespace Sys2Proof.Proofs

open Sys2Proof Sys2Proof.Machine

/-- Settles O4: each kind of turn keeps the invariant. -/
theorem invariantKeptByEveryStep : Obligations.InvariantKeptByEveryStep := by
  intro s t hinv hstep
  obtain ⟨hlegal, ⟨-, hturn⟩ | ⟨rest, -, hturn⟩ | ⟨a, rest, -, rfl⟩ | ⟨rest, -, rfl⟩⟩ := step_cases hstep
  · exact hinv.engineTurn hturn
  · exact (hinv.withPending rest).engineTurn hturn
  · exact (hinv.withPending rest).hostTurn a
  · exact inv_resetTurn hlegal

/-- Settles O60: during a run a host access reaches the host's side alone, and the engine's turn commutes with any change
of that side. -/
theorem hostCannotAffectARun : Obligations.HostCannotAffectARun := by
  refine ⟨fun a s hinv hbusy => ?_, fun s s' u u' t hsame hmove hmove' hstep => ?_⟩
  · have hrun := sameRun_of_accessEffect hinv hbusy (hostAccess_effect a s)
    exact { hrun with }
  · obtain ⟨hlegal, -⟩ := step_cases hstep
    have hlegal' : s'.cfg.legal = true := by rw [hsame.cfg]; exact hlegal
    rw [step_of_engineMoves hlegal hmove] at hstep
    have hu : u' = u.withHost u' := sameRun_iff.mp ((hmove.sameRun.symm.trans hsame).trans hmove'.sameRun)
    refine ⟨t.withHost u', ?_, sameRun_withHost t u'⟩
    rw [step_of_engineMoves hlegal' hmove', hu, engineTurn_withHost, hstep]
    rfl

end Sys2Proof.Proofs
end

section
/-! PROOFS. Reset and the steps of a run (10_state.md section 5, 45_sequencing.md, 60_exceptions.md sections 1 and 2): what
a step does where the engine or the host moves, which command it is, which error stops it, and how far a run can go. -/

namespace Sys2Proof.Machine

/-! ### The commands that answer (R34) -/

theorem exec_result_or {i : Instr} {s t : State} (h : exec i s = .next t) :
    t.result = s.result ∨ (∃ x y, i = .getpix x y) ∨ (∃ cp x y c f, i = .glyph cp x y c f) ∨
      (∃ cps x y c f xo yo, i = .text cps x y c f xo yo) ∨ (∃ f cp, i = .gwidth f cp) ∨ (∃ f, i = .fheight f) := by
  cases i
  case getpix | glyph | text | gwidth | fheight => simp
  all_goals
    left
    simp only [exec, execNop, execEnd, execClear, execSetpix, execHspan, execVspan, execLine, execRect, execFrect,
      execCircle, execFcircle, Host.Outcome.next.injEq] at h
    subst h
    simp

/-! ### The step by whose turn it is (R210, R212; log entry 4) -/

theorem engineTurn_of_idle {s : State} (h : s.busy = false) : engineTurn s = .next s := by simp [engineTurn, h]

theorem EngineMoves.busy {s u : State} (h : EngineMoves s u) : u.busy = s.busy := h.sameRun.busy

theorem step_of_decode_ok {s u : State} {i : Instr} (hlegal : s.cfg.legal = true) (hbusy : s.busy = true)
    (hmove : EngineMoves s u) (hdecode : decode (fetchWords u) = .ok i) : step s = exec i u := by
  rw [step_of_engineMoves hlegal hmove, engineTurn, hmove.busy, if_pos hbusy, engineStep, hdecode]

theorem step_of_decode_error {s u : State} {e : DecodeError} (hlegal : s.cfg.legal = true) (hbusy : s.busy = true)
    (hmove : EngineMoves s u) (hdecode : decode (fetchWords u) = .error e) :
    step s = .next (errorStop (decodeErrorCode e) u) := by
  rw [step_of_engineMoves hlegal hmove, engineTurn, hmove.busy, if_pos hbusy, engineStep, hdecode]

/-- A host turn is the access on the state as it is, with its turn taken off and its reply recorded. -/
theorem hostTurn_withPending (a : Access) (s : State) (rest : List Turn) :
    hostTurn a { s with pending := rest } =
      { (hostAccess a s).2 with pending := rest, replies := s.replies ++ [(hostAccess a s).1] } := by
  rw [hostTurn, hostAccess_pending, ← (hostAccess_effect a s).replies]

/-- In a legal configuration every turn answers a next state (R224 to R226). -/
theorem exists_step_of_legal {s : State} (hlegal : s.cfg.legal = true) : ∃ t, step s = .next t := by
  have hturn : ∀ u : State, ∃ t, engineTurn u = .next t := by
    intro u
    unfold engineTurn engineStep
    split_ifs
    · split
      · exact ⟨_, rfl⟩
      · exact exec_next _ u
    · exact ⟨_, rfl⟩
  rw [step, if_pos hlegal]
  split
  · exact hturn s
  · exact ⟨_, rfl⟩
  · exact hturn _
  · exact ⟨_, rfl⟩

/-! ### The command at CP (R59, R85) -/

theorem commandLen_encode_head {i : Instr} (hwf : i.wellFormed = true) :
    commandLen ((encode i).getD 0 0) = some (encode i).length := by
  obtain ⟨op, c, f, n, args, hspells⟩ := exists_spells hwf
  rw [hspells.words, List.getD_cons_zero, commandLen_header, List.length_cons, hspells.length]

theorem encode_length_pos (i : Instr) : 0 < (encode i).length := by cases i <;> simp [encode]

/-- Where the words of a command stand in CRAM from CP on, the engine fetches exactly these. -/
theorem fetchWords_of_stored {s : State} {i : Instr} (hwf : i.wellFormed = true)
    (hfits : s.cp.toNat + (encode i).length ≤ s.cfg.nCram)
    (hstored : ∀ k, k < (encode i).length → s.cramWord (s.cp.toNat + k) = (encode i).getD k 0) :
    fetchWords s = encode i := by
  have hpos : 0 < (encode i).length := encode_length_pos i
  have hcp : s.cp.toNat < s.cfg.nCram := by omega
  have hcount : fetchCount s = (encode i).length := by
    have hhead : s.cramWord s.cp.toNat = (encode i).getD 0 0 := hstored 0 hpos
    simp only [fetchCount, if_pos hcp, hhead, commandLen_encode_head hwf, if_pos hfits]
  rw [fetchWords, hcount]
  refine List.ext_getElem (by simp) fun k hk hk' => ?_
  rw [List.getElem_map, List.getElem_range, hstored k hk', List.getD_eq_getElem _ _ hk']

/-! ### The errors of R222 -/

/-- The argument words of the command with header `op` at CP. -/
def argsAtCp (s : State) (op : Op) : List Word :=
  (List.range (op.len (s.cramWord s.cp.toNat) - 1)).map (fun k => s.cramWord (s.cp.toNat + (k + 1)))

theorem argsAtCp_length (s : State) (op : Op) : (argsAtCp s op).length + 1 = op.len (s.cramWord s.cp.toNat) := by
  have hpos := len_pos op (s.cramWord s.cp.toNat)
  rw [argsAtCp, List.length_map, List.length_range]
  omega

theorem argWord_argsAtCp (s : State) (op : Op) (k : Nat) (h1 : 1 ≤ k) (hlt : k < op.len (s.cramWord s.cp.toNat)) :
    s.cramWord (s.cp.toNat + k) = argWord (argsAtCp s op) k := by
  have hk : k - 1 < (argsAtCp s op).length := by have := argsAtCp_length s op; omega
  rw [argWord, List.getD_eq_getElem _ _ hk]
  simp [argsAtCp, show k - 1 + 1 = k by omega]

theorem decode_fetch_over {s : State} (h : s.cfg.nCram ≤ s.cp.toNat) : decode (fetchWords s) = .error .overrun := by
  rw [fetch_over s h]; rfl

theorem decode_fetch_illegal {s : State} (hcp : s.cp.toNat < s.cfg.nCram)
    (hop : opOf (hdrOpc (s.cramWord s.cp.toNat)) = none) : decode (fetchWords s) = .error .illegal := by
  rw [fetch_one s hcp (by simp [commandLen, hop])]
  simp [decode, hop]

theorem decode_fetch_long {s : State} {op : Op} (hcp : s.cp.toNat < s.cfg.nCram)
    (hop : opOf (hdrOpc (s.cramWord s.cp.toNat)) = some op)
    (hlong : s.cfg.nCram < s.cp.toNat + op.len (s.cramWord s.cp.toNat)) :
    decode (fetchWords s) = .error .overrun := by
  rw [fetch_one s hcp (by simpa [commandLen, hop] using hlong)]
  simp only [decode, hop]
  exact if_pos (by rw [List.length_nil]; omega)

/-- A command that fits is rejected exactly if one of its must-be-zero bits is set (R87, R90). -/
theorem decode_fetch_fits {s : State} {op : Op} (hop : opOf (hdrOpc (s.cramWord s.cp.toNat)) = some op)
    (hfits : s.cp.toNat + op.len (s.cramWord s.cp.toNat) ≤ s.cfg.nCram) :
    (ReservedSet op (s.cramWord s.cp.toNat) (fun k => s.cramWord (s.cp.toNat + k)) →
      decode (fetchWords s) = .error .reserved) ∧
    (¬ReservedSet op (s.cramWord s.cp.toNat) (fun k => s.cramWord (s.cp.toNat + k)) →
      decode (fetchWords s) = .ok (assemble op (s.cramWord s.cp.toNat) (argsAtCp s op))) := by
  have hdecode := decode_words op _ (argsAtCp s op) [] hop (argsAtCp_length s op)
  rw [List.append_nil] at hdecode
  rw [fetch_all s op hop hfits, ← argsAtCp, hdecode,
    reservedSet_iff (argsAtCp_length s op) (argWord_argsAtCp s op)]
  exact ⟨fun h => if_pos h, fun h => if_neg h⟩

/-- A command with a font operand stops without a font, whatever its other operands are. -/
theorem assemble_stops_noFont {op : Op} (hop : op ∈ [Op.glyph, .text, .gwidth, .fheight]) {s : State} (h : Word)
    (args : List Word) (hno : NoFont s (hdrF h)) : Completes (assemble op h args) s (StopsWith .noFont s) := by
  simp only [List.mem_cons, List.not_mem_nil, or_false] at hop
  rcases hop with rfl | rfl | rfl | rfl
  · exact glyph_stopsWith _ _ _ _ (fontChecks_of_noFont true hno)
  · exact text_stopsWith _ _ _ _ _ _ (fontChecks_of_noFont true hno)
  · exact ⟨_, exec_gwidth_of_noFont _ hno, stops_errorStop _ s⟩
  · exact ⟨_, exec_fheight_of_noFont hno, stops_errorStop _ s⟩

/-- A command that renders stops at a font of more than 1 bit per pixel. -/
theorem assemble_stops_fontBpp {op : Op} (hop : op ∈ [Op.glyph, .text]) {s : State} {font : Font} (h : Word)
    (args : List Word) (hfont : HasFont s (hdrF h) font) (hbpp : font.bitsPerPixel ≠ 1) :
    Completes (assemble op h args) s (StopsWith .fontBpp s) := by
  simp only [List.mem_cons, List.not_mem_nil, or_false] at hop
  rcases hop with rfl | rfl
  · exact glyph_stopsWith _ _ _ _ (fontChecks_render_of_depth hfont hbpp)
  · exact text_stopsWith _ _ _ _ _ _ (fontChecks_render_of_depth hfont hbpp)

/-! ### Stop or completion (R224) -/

/-- The advance of CP by a command that lies in CRAM does not wrap (R33; log entry 12). -/
theorem toNat_advance_cp {s : State} {n : Nat} (hlegal : s.cfg.legal = true) (hfits : s.cp.toNat + n ≤ s.cfg.nCram) :
    (s.cp + BitVec.ofNat 16 n).toNat = s.cp.toNat + n := by
  have hle := nCram_le_of_legal hlegal
  rw [BitVec.toNat_add, BitVec.toNat_ofNat]
  omega

/-- Completion of the command at CP: no error is raised and CP moves past its words. -/
structure CompletesAtCp (s t : State) : Prop where
  err : t.err = false
  errCode : t.errCode = .noError
  runs : ∃ i, decode (fetchWords s) = .ok i ∧ exec i s = .next t
  cp : ∃ n, commandLen (s.cramWord s.cp.toNat) = some n ∧ 1 ≤ n ∧ t.cp.toNat = s.cp.toNat + n ∧ t.cp.toNat ≤ s.cfg.nCram

/-- The engine's turn in a run is an error stop or a completion (R224). -/
theorem engineTurn_stops_or_completes {s t : State} (hinv : Inv s) (hbusy : s.busy = true)
    (hturn : engineTurn s = .next t) : (∃ code, code ≠ .noError ∧ t = errorStop code s) ∨ CompletesAtCp s t := by
  rcases engineTurn_cases hturn with ⟨hidle, -⟩ | ⟨-, ⟨e, -, rfl⟩ | ⟨i, hdecode, hexec⟩⟩
  · rw [hbusy] at hidle; cases hidle
  · exact .inl ⟨_, decodeErrorCode_ne_noError e, rfl⟩
  · obtain ⟨-, herr, hcode⟩ := hinv.busyClear hbusy
    obtain ⟨n, hn, hlen, hpos, hfits⟩ := run_ok hdecode
    have hcp := toNat_advance_cp hinv.legal hfits
    have hend : (s.cp + BitVec.ofNat 16 n).toNat ≤ s.cfg.nCram := hcp ▸ hfits
    subst hlen
    rcases exec_shape i s t hexec with hstop | ⟨rfl, rfl⟩ | ⟨-, fb, r, rfl, -⟩
    · exact .inl hstop
    · exact .inr ⟨herr, hcode, ⟨_, hdecode, hexec⟩, _, hn, hpos, hcp, hend⟩
    · exact .inr ⟨herr, hcode, ⟨_, hdecode, hexec⟩, _, hn, hpos, hcp, hend⟩

/-! ### Runs -/

/-- In a legal configuration with nothing pending a step is the engine's turn. -/
theorem step_of_nil {s : State} (hlegal : s.cfg.legal = true) (hpending : s.pending = []) : step s = engineTurn s :=
  step_of_engineMoves hlegal (.inl ⟨hpending, rfl⟩)

theorem run_succ_of_step {s t : State} (h : step s = .next t) (k : Nat) :
    Host.Core.run Sys2Proof.core (k + 1) s = Host.Core.run Sys2Proof.core k t := by
  simp only [Host.Core.run, show Sys2Proof.core.step s = Host.Outcome.next t from h]

/-- A step of a run with nothing pending ends the run or leaves fewer words of CRAM after CP. -/
theorem step_of_run {s : State} (hinv : Inv s) (hpending : s.pending = []) (hbusy : s.busy = true) :
    ∃ t, step s = .next t ∧ Inv t ∧ t.pending = [] ∧
      (t.busy = false ∨ t.cfg.nCram - t.cp.toNat < s.cfg.nCram - s.cp.toNat) := by
  obtain ⟨t, hstep⟩ := exists_step_of_legal hinv.legal
  have hturn : engineTurn s = .next t := by rw [← step_of_nil hinv.legal hpending, hstep]
  have hkeeps := engineTurn_keeps hturn
  refine ⟨t, hstep, hinv.engineTurn hturn, hkeeps.pending.trans hpending, ?_⟩
  rcases engineTurn_stops_or_completes hinv hbusy hturn with ⟨code, -, rfl⟩ | hdone
  · exact .inl rfl
  · obtain ⟨n, -, hpos, hcp, hend⟩ := hdone.cp
    rw [hkeeps.cfg]
    exact .inr (by omega)

/-- A run ends after at most one step for each word of CRAM from CP on, and one more. -/
theorem run_terminates (m : Nat) {s : State} (hinv : Inv s) (hpending : s.pending = [])
    (hm : s.cfg.nCram - s.cp.toNat ≤ m) :
    ∃ (k : Nat) (t : State), k ≤ m + 1 ∧ Host.Core.run Sys2Proof.core k s = .next t ∧ t.busy = false := by
  induction m using Nat.strong_induction_on generalizing s with
  | _ m ih =>
    cases hbusy : s.busy
    case false => exact ⟨0, s, Nat.zero_le _, rfl, hbusy⟩
    obtain ⟨t, hstep, hinv', hpending', hidle | hless⟩ := step_of_run hinv hpending hbusy
    · exact ⟨1, t, Nat.le_add_left .., run_succ_of_step hstep 0, hidle⟩
    · obtain ⟨k, u, hk, hrun, hidle⟩ := ih (m - 1) (by omega) hinv' hpending' (by omega)
      exact ⟨k + 1, u, by omega, (run_succ_of_step hstep k).trans hrun, hidle⟩

/-- What a run keeps: the configuration, CRAM and the reset counter that its unwritten words are drawn with (R74). -/
structure RunKeeps (s t : State) : Prop where
  cfg : t.cfg = s.cfg
  cram : t.cram = s.cram
  epoch : t.epoch = s.epoch

theorem RunKeeps.refl (s : State) : RunKeeps s s := ⟨rfl, rfl, rfl⟩

theorem RunKeeps.trans {s t u : State} (h : RunKeeps s t) (h' : RunKeeps t u) : RunKeeps s u :=
  ⟨h'.cfg.trans h.cfg, h'.cram.trans h.cram, h'.epoch.trans h.epoch⟩

theorem EngineKeeps.runKeeps {s t : State} (h : EngineKeeps s t) : RunKeeps s t := ⟨h.cfg, h.cram, h.epoch⟩

/-- During a run no host access changes the configuration or CRAM (R65). -/
theorem runKeeps_of_accessEffect {s t : State} (hbusy : s.busy = true) (heffect : AccessEffect s t) : RunKeeps s t := by
  cases heffect with
  | same => exact RunKeeps.refl s
  | drawn n _ => exact ⟨rfl, rfl, rfl⟩
  | ctrl d => exact ⟨writeCtrl_cfg d s, writeCtrl_cram d s, writeCtrl_epoch d s⟩
  | status d => exact ⟨rfl, rfl, rfl⟩
  | cp d => rw [writeCp, if_pos hbusy]; exact RunKeeps.refl s
  | cram i d _ => rw [writeCram_of_busy i d hbusy]; exact RunKeeps.refl s

theorem step_runKeeps {s t : State} (hbusy : s.busy = true) (hreset : ∀ rest, s.pending ≠ .reset :: rest)
    (hstep : step s = .next t) : RunKeeps s t := by
  obtain ⟨-, ⟨-, hturn⟩ | ⟨rest, -, hturn⟩ | ⟨a, rest, -, rfl⟩ | ⟨rest, hpending, -⟩⟩ := step_cases hstep
  · exact (engineTurn_keeps hturn).runKeeps
  · exact { (engineTurn_keeps hturn).runKeeps with }
  · rw [hostTurn_withPending]
    exact { runKeeps_of_accessEffect hbusy (hostAccess_effect a s) with }
  · exact absurd hpending (hreset rest)

/-- Any number of engine steps keeps CRAM and the configuration. -/
theorem run_runKeeps {k : Nat} {s t : State} (hpending : s.pending = [])
    (hrun : Host.Core.run Sys2Proof.core k s = .next t) : RunKeeps s t := by
  induction k generalizing s with
  | zero =>
    obtain rfl : s = t := Host.Outcome.next.inj hrun
    exact RunKeeps.refl s
  | succ k ih =>
    cases hstep : step s with
    | next u =>
      obtain ⟨hlegal, -⟩ := step_cases hstep
      have hkeeps := engineTurn_keeps (by rw [← step_of_nil hlegal hpending, hstep])
      exact hkeeps.runKeeps.trans (ih (hkeeps.pending.trans hpending) (run_succ_of_step hstep k ▸ hrun))
    | fault r => cases r
    | refused r =>
      simp only [Host.Core.run, show Sys2Proof.core.step s = Host.Outcome.refused r from hstep] at hrun
      cases hrun

/-! ### Reset (R41, R250, R251) -/

theorem fbByte_of_nil {s : State} (h : s.fb = []) (i : Nat) : s.fbByte i = Config.freeFbByte s.epoch i := by
  simp [State.fbByte, h]

theorem cramWord_of_nil {s : State} (h : s.cram = []) (i : Nat) : s.cramWord i = Config.freeCramWord s.epoch i := by
  simp [State.cramWord, h]

/-- A read of a register by its address, an aligned one of the register window. -/
theorem hostRead_of_readReg {a : BitVec 18} {s t : State} {w : Word} (hreg : readReg (regAt a.toNat) s = (w, t))
    (hlt : a.toNat < 0x10000 := by decide) (hal : a.toNat % 4 = 0 := by decide) :
    hostRead a .word s = (.word w, t) := by
  rw [hostRead_register s hlt hal, hreg]

theorem statusWord_resetWith (cfg : Config) : (State.resetWith cfg).statusWord = 0 := by
  simp [State.statusWord, State.resetWith, ErrorCode.code]

theorem step_of_reset {s : State} {rest : List Turn} (hlegal : s.cfg.legal = true) (hpending : s.pending = .reset :: rest) :
    step s = .next (resetTurn { s with pending := rest }) := by
  simp [step, hlegal, hpending]

/-- The sizes of a legal configuration fit the fields of HWCFG and PARAM (R8, R23, R35). -/
theorem sizes_of_legal {cfg : Config} (h : cfg.legal = true) :
    cfg.width ≤ 32767 ∧ cfg.height ≤ 32767 ∧ cfg.nCram ≤ 16384 ∧ cfg.fonts.length ≤ 16 := by
  simp only [Config.legal, Bool.and_eq_true, decide_eq_true_eq] at h
  tauto

/-- Two numbers of 16 bits in the halves of a word. -/
theorem pointWord_ofNat {a b : Nat} (ha : a < 2 ^ 16) (hb : b < 2 ^ 16) :
    pointWord (BitVec.ofNat 16 a) (BitVec.ofNat 16 b) = BitVec.ofNat 32 (a + 65536 * b) := by
  rw [pointWord_eq, pWord, BitVec.toNat_ofNat, BitVec.toNat_ofNat, Nat.mod_eq_of_lt ha, Nat.mod_eq_of_lt hb]

theorem hwcfgWord_of_legal {cfg : Config} (h : cfg.legal = true) :
    cfg.hwcfgWord = BitVec.ofNat 32 (cfg.width + 65536 * cfg.height) := by
  obtain ⟨hw, hh, -, -⟩ := sizes_of_legal h
  exact pointWord_ofNat (by omega) (by omega)

theorem paramWord_of_legal {cfg : Config} (h : cfg.legal = true) :
    cfg.paramWord = BitVec.ofNat 32 (cfg.nCram + 65536 * cfg.fonts.length) := by
  obtain ⟨-, -, hn, hf⟩ := sizes_of_legal h
  have hfonts : (BitVec.ofNat 5 cfg.fonts.length).setWidth 32 = (BitVec.ofNat 16 cfg.fonts.length).setWidth 32 := by
    apply BitVec.eq_of_toNat_eq
    simp only [BitVec.toNat_setWidth, BitVec.toNat_ofNat]
    omega
  rw [← pointWord_ofNat (by omega) (by omega), Config.paramWord, hfonts]
  rfl

theorem legal_of_font_mem {cfg : Config} {font : Font} (h : cfg.legal = true) (hmem : some font ∈ cfg.fonts) :
    font.wellFormed = true := by
  simp only [Config.legal, Bool.and_eq_true, List.all_eq_true] at h
  exact h.2 _ hmem

/-- A surface of a legal configuration has no zero side (R8). -/
theorem surface_of_legal {cfg : Config} (h : cfg.legal = true) : cfg.width ≠ 0 ∧ cfg.height ≠ 0 := by
  simp only [Config.legal, Bool.and_eq_true, decide_eq_true_eq] at h
  omega

end Sys2Proof.Machine

namespace Sys2Proof.Proofs

open Sys2Proof Sys2Proof.Machine

/-- Settles O11: a step in which the engine moves is its turn, and a host turn reads and writes no pending turn. -/
theorem stepRunsTheDecodedInstruction : Obligations.StepRunsTheDecodedInstruction := by
  intro s hlegal
  refine ⟨fun u hmove hbusy => ⟨fun i => step_of_decode_ok hlegal hbusy hmove, fun e =>
    step_of_decode_error hlegal hbusy hmove⟩, fun a rest hpending => ?_, fun _ _ => rfl, fun _ _ _ => rfl⟩
  rw [← hostTurn_withPending]
  simp [step, hlegal, hpending]

/-- Settles O12: the engine fetches the words of the stored command, which decode to it. -/
theorem commandStoredAtCpIsExecuted : Obligations.CommandStoredAtCpIsExecuted := by
  intro s u i hlegal hbusy hmove hwf hfits hstored
  refine step_of_decode_ok hlegal hbusy hmove ?_
  have hu := engineMoves_eq hmove
  have hfetch : fetchWords u = encode i := by rw [hu]; exact fetchWords_of_stored hwf hfits hstored
  rw [hfetch, ← List.append_nil (encode i)]
  exact decode_encode_append hwf []

/-- Settles O13: the decode of the fetched words fails by the first check that applies, and the font checks are the first
thing that a command with a font operand does. -/
theorem errorsAreCheckedInOrder : Obligations.ErrorsAreCheckedInOrder := by
  intro s u hlegal hbusy hmove p h W
  have hstops : ∀ e, decode (fetchWords u) = .error e → StepsTo s (StopsWith (decodeErrorCode e) u) := fun e hdecode =>
    ⟨_, step_of_decode_error hlegal hbusy hmove hdecode, stops_errorStop _ u⟩
  have hruns : ∀ i P, decode (fetchWords u) = .ok i → Completes i u P → StepsTo s P := fun i P hdecode hcompletes => by
    rw [StepsTo, step_of_decode_ok hlegal hbusy hmove hdecode]; exact hcompletes
  obtain ⟨l, rfl⟩ : ∃ l, u = { s with pending := l } := ⟨_, engineMoves_eq hmove⟩
  refine ⟨fun hover => hstops _ (decode_fetch_over hover), fun hcp => ⟨fun hill => ?_, fun op hop => ⟨fun hlong => ?_,
    fun hfits => ?_⟩⟩⟩
  · exact hstops _ (decode_fetch_illegal hcp ((opOf_eq_none_iff _).mpr hill))
  · exact hstops _ (decode_fetch_long hcp hop hlong)
  · obtain ⟨hreserved, hok⟩ := decode_fetch_fits (s := { s with pending := l }) hop hfits
    refine ⟨fun hres => hstops _ (hreserved hres), fun hclear => ⟨fun hfontOp hno => ?_,
      fun hrenders font hfont hbpp => ?_⟩⟩
    · exact hruns _ _ (hok hclear) (assemble_stops_noFont hfontOp _ _ hno)
    · exact hruns _ _ (hok hclear) (assemble_stops_fontBpp hrenders _ _ hfont hbpp)

/-- Settles O14: the engine's turn is an error stop or a completion. -/
theorem commandsCompleteOrHaveNoEffect : Obligations.CommandsCompleteOrHaveNoEffect := by
  intro s u t hinv hbusy hmove hstep
  rw [step_of_engineMoves hinv.legal hmove] at hstep
  obtain ⟨l, rfl⟩ : ∃ l, u = { s with pending := l } := ⟨_, engineMoves_eq hmove⟩
  rcases engineTurn_stops_or_completes (hinv.withPending l) hbusy hstep with ⟨code, hcode, rfl⟩ | hdone
  · exact ⟨fun _ => ⟨code, hcode, stops_errorStop code _⟩, nofun⟩
  · exact ⟨fun herr => absurd hdone.err (by simp [herr]), fun _ => ⟨hdone.errCode, hdone.runs, hdone.cp⟩⟩

/-- Settles O15: each step of a run ends it or moves CP on, and CP never passes N_CRAM. -/
theorem everyRunTerminates : Obligations.EveryRunTerminates := by
  intro s hinv hpending
  exact run_terminates s.cfg.nCram hinv hpending (Nat.sub_le ..)

/-- Settles O16: neither an engine move nor, during a run, a host access writes CRAM or the configuration. -/
theorem runsNeverChangeCram : Obligations.RunsNeverChangeCram := by
  have hall : ∀ {s t : State}, RunKeeps s t → t.cram = s.cram ∧ (∀ i, t.cramWord i = s.cramWord i) ∧ t.cfg = s.cfg :=
    fun h => ⟨h.cram, cramWord_congr h.cram h.epoch, h.cfg⟩
  exact ⟨fun k s t hpending hrun => hall (run_runKeeps hpending hrun),
    fun s t hbusy hreset hstep => hall (step_runKeeps hbusy hreset hstep)⟩

/-- Settles O26: a command is the error stop, END, or a new FB and RESULT with CP advanced, and RESULT is new only in the
five commands that answer. -/
theorem commandsWriteOnlyTheirOwnRegisters : Obligations.CommandsWriteOnlyTheirOwnRegisters := by
  intro i s t hexec
  have hkeeps := exec_keeps hexec
  refine ⟨hkeeps.cfg, hkeeps.cram, hkeeps.ie, hkeeps.pending, hkeeps.replies, hkeeps.epoch, hkeeps.draws, ?_, ?_⟩
  · exact fun hne => (exec_result_or hexec).resolve_left hne
  · rcases exec_shape i s t hexec with ⟨code, -, rfl⟩ | ⟨rfl, -⟩ | ⟨-, fb, r, rfl, -⟩
    · exact .inr (.inr ⟨code, stops_errorStop code s⟩)
    · exact .inr (.inl rfl)
    · exact .inl ⟨rfl, rfl, rfl, rfl⟩

/-- Settles O3: the invariant holds after the first reset of every legal configuration. -/
theorem invariantHoldsAtReset : Obligations.InvariantHoldsAtReset :=
  ⟨fun _ => inv_resetWith, inv_resetWith (by decide +kernel)⟩

/-- Settles O2: a reset turn is the state right after reset but for the configuration and the model's own fields. -/
theorem resetInputIsComplete : Obligations.ResetInputIsComplete := by
  intro s rest hlegal hpending
  exact ⟨_, step_of_reset hlegal hpending, rfl, rfl, rfl, rfl, rfl, rfl, rfl, rfl, rfl, cramWord_of_nil rfl,
    fbByte_of_nil rfl, rfl, rfl, rfl⟩

/-- Settles O5: legality checks the sides of the surface and every font; the step tests legality before anything else. -/
theorem illegalConfigurationIsRefused : Obligations.IllegalConfigurationIsRefused := by
  refine ⟨fun cfg hbad => ?_, fun s hillegal => ?_, fun s => exists_step_of_legal⟩
  · rw [← Bool.not_eq_true]
    intro hlegal
    obtain ⟨hwidth, hheight⟩ := surface_of_legal hlegal
    rcases hbad with hw | hh | ⟨font, hmem, hfont⟩
    · exact hwidth hw
    · exact hheight hh
    · exact absurd (legal_of_font_mem hlegal hmem) (by simp [hfont])
  · simp [step, hillegal]

/-- Settles O1: each register reads its field of the reset state, the sizes fit theirs, and an idle engine's turn is the
state itself. -/
theorem resetLeavesEveryRegisterAsStated : Obligations.ResetLeavesEveryRegisterAsStated := by
  have hidle : ∀ s u : State, s.cfg.legal = true → s.busy = false → EngineMoves s u → step s = .next u := by
    intro s u hlegal hbusy hmove
    rw [step_of_engineMoves hlegal hmove, engineTurn_of_idle (hmove.busy.trans hbusy)]
  refine ⟨?_, hidle⟩
  intro cfg hlegal s
  refine ⟨hostRead_of_readReg rfl, hostRead_of_readReg ?_, hostRead_of_readReg rfl, rfl,
    hostRead_of_readReg (congrArg (·, s) (statusWord_resetWith cfg)), rfl, rfl, rfl, rfl, hostRead_of_readReg rfl, rfl,
    hostRead_of_readReg rfl, rfl, hostRead_of_readReg ?_, fun i _ => cramWord_of_nil rfl i,
    fun i _ => fbByte_of_nil rfl i, rfl, hidle s s hlegal rfl (.inl ⟨rfl, rfl⟩)⟩
  · rw [← hwcfgWord_of_legal hlegal]; rfl
  · rw [← paramWord_of_legal hlegal]; rfl

end Sys2Proof.Proofs
end

section
/-! PROOFS. What is written to the framebuffer (20_memory.md section 1, 40_framebuffer.md, 41_span_filler.md section 2):
every command as the fill of CLEAR or as Paint, the padding bits, and spans as pixel writes and as masked bytes. -/

namespace Sys2Proof.Machine

/-! ### The same painting in two ways (R114) -/

/-- What Paint leaves is determined by the point set. -/
theorem sameFb_of_paintsExactly {S : Int → Int → Prop} {c : Colour} {s t u : State} (ht : PaintsExactly S c s t)
    (hu : PaintsExactly S c s u) : SameFb t u := by
  intro i
  apply BitVec.eq_of_getLsbD_eq
  intro j hj
  by_cases hpainted : Painted s.cfg S i j
  · rw [(ht i j hj).1 hpainted, (hu i j hj).1 hpainted]
  · rw [(ht i j hj).2 hpainted, (hu i j hj).2 hpainted]

theorem writeMasks_getLsbD (c : Colour) (l : List (Nat × Byte)) (s : State) (i : Nat) {j : Nat} (hj : j < 8) :
    ((writeMasks c l s).fbByte i).getLsbD j =
      if ∃ p ∈ l, p.1 = i ∧ p.2.getLsbD j = true then c else (s.fbByte i).getLsbD j := by
  induction l generalizing s with
  | nil => simp [writeMasks]
  | cons p l ih =>
    obtain ⟨k, m⟩ := p
    rw [writeMasks, ih, setFbByte_fbByte]
    by_cases hki : i = k
    · subst hki
      rw [if_pos rfl, maskByte_getLsbD c m _ hj]
      by_cases hl : ∃ p ∈ l, p.1 = i ∧ p.2.getLsbD j = true
      · rw [if_pos hl, if_pos (by obtain ⟨p, hp, hbit⟩ := hl; exact ⟨p, List.mem_cons_of_mem _ hp, hbit⟩)]
      · simp [hl]
    · simp [hki, Ne.symm hki]

/-- Masked byte writes paint a point set exactly if their masks are the bits of its on-surface points. -/
theorem writeMasks_exactly {S : Int → Int → Prop} {l : List (Nat × Byte)} {s : State}
    (h : ∀ i j, j < 8 → (Painted s.cfg S i j ↔ ∃ p ∈ l, p.1 = i ∧ p.2.getLsbD j = true)) (c : Colour) :
    PaintsExactly S c s (writeMasks c l s) := by
  intro i j hj
  rw [writeMasks_getLsbD c l s i hj, h i j hj]
  exact ⟨fun hm => if_pos hm, fun hm => if_neg hm⟩

theorem writeMasks_same (c : Colour) (l : List (Nat × Byte)) (s : State) :
    SameControl s (writeMasks c l s) ∧ (writeMasks c l s).cp = s.cp ∧ (writeMasks c l s).result = s.result := by
  refine ⟨?_, writeMasks_cp c l s, writeMasks_result c l s⟩
  constructor
  case cramWord => exact cramWord_congr (writeMasks_cram c l s) (writeMasks_epoch c l s)
  all_goals simp

/-- Masked byte writes with the bits of a point set's on-surface points do all that Paint does, and nothing else. -/
theorem writeMasks_refines_paint {S : PointSet} {l : List (Nat × Byte)} {s : State}
    (h : ∀ i j, j < 8 →
      (Painted s.cfg (fun x y => S.has x y = true) i j ↔ ∃ p ∈ l, p.1 = i ∧ p.2.getLsbD j = true)) (c : Colour) :
    SameFb (paint S c s) (writeMasks c l s) ∧ SameControl s (writeMasks c l s) ∧
      (writeMasks c l s).cp = s.cp ∧ (writeMasks c l s).result = s.result :=
  ⟨sameFb_of_paintsExactly (paint_exactly S c s) (writeMasks_exactly h c), writeMasks_same c l s⟩

/-! ### Every command but CLEAR paints (R52, R53) -/

theorem exec_line (x0 y0 x1 y1 : Half) (c : Colour) (s : State) :
    exec (.line x0 y0 x1 y1 c) s = .next ((paint (lineSet x0.toInt y0.toInt x1.toInt y1.toInt) c s).advance 3) := rfl

theorem exec_circle (cx cy r : Half) (c : Colour) (s : State) :
    exec (.circle cx cy r c) s = .next ((paint (circleSet cx.toInt cy.toInt r.toInt) c s).advance 3) := rfl

/-- FB reads in `t` as it reads in `s` after Paint of some point set. -/
def ReadsAsPainted (s t : State) : Prop := ∃ (S : PointSet) (c : Colour), SameFb (paint S c s) t

/-- What leaves FB alone paints the empty set. -/
theorem readsAsPainted_of_sameFb {s t : State} (h : SameFb s t) : ReadsAsPainted s t := ⟨[], false, h⟩

theorem readsAsPainted_of_exec {i : Instr} {S : PointSet} {c : Colour} {n : Nat} {s t : State}
    (hi : exec i s = .next ((paint S c s).advance n)) (h : exec i s = .next t) : ReadsAsPainted s t := by
  obtain rfl := Host.Outcome.next.inj (hi.symm.trans h)
  exact ⟨S, c, advance_fbByte _ n⟩

/-- Every command other than CLEAR paints: a point set where it draws, nothing where it answers or stops. -/
theorem exec_readsAsPainted {i : Instr} {s t : State} (h : exec i s = .next t) (hi : ∀ c, i ≠ .clear c) :
    ReadsAsPainted s t := by
  have hstop : ∀ e, errorStop e s = t → ReadsAsPainted s t := by
    rintro e rfl
    exact readsAsPainted_of_sameFb (errorStop_fbByte e s)
  cases i
  case nop => obtain rfl := Host.Outcome.next.inj h; exact readsAsPainted_of_sameFb (advance_fbByte s 1)
  case endRun => obtain rfl := Host.Outcome.next.inj h; exact readsAsPainted_of_sameFb (advance_fbByte s 1)
  case clear c => exact absurd rfl (hi c)
  case setpix x y c => exact readsAsPainted_of_exec (exec_setpix x y c s) h
  case getpix x y =>
    obtain rfl := Host.Outcome.next.inj ((exec_getpix x y s).symm.trans h)
    exact readsAsPainted_of_sameFb fun _ => rfl
  case hspan x0 x1 y c => exact readsAsPainted_of_exec (exec_hspan x0 x1 y c s) h
  case vspan x y0 y1 c => exact readsAsPainted_of_exec (exec_vspan x y0 y1 c s) h
  case line x0 y0 x1 y1 c => exact readsAsPainted_of_exec (exec_line x0 y0 x1 y1 c s) h
  case rect x0 y0 x1 y1 c => exact readsAsPainted_of_exec (exec_rect x0 y0 x1 y1 c s) h
  case frect x0 y0 x1 y1 c => exact readsAsPainted_of_exec (exec_frect x0 y0 x1 y1 c s) h
  case circle cx cy r c => exact readsAsPainted_of_exec (exec_circle cx cy r c s) h
  case fcircle cx cy r c => exact readsAsPainted_of_exec (exec_fcircle cx cy r c s) h
  case glyph cp x y c f =>
    rw [exec_glyph, execGlyph] at h
    split at h
    · exact hstop _ (Host.Outcome.next.inj h)
    · rename_i font _
      obtain rfl := Host.Outcome.next.inj h
      cases hG : font.glyph cp.toNat with
      | none => rw [drawGlyph_of_missing hG]; exact readsAsPainted_of_sameFb fun _ => rfl
      | some G => rw [drawGlyph_of_present hG]; exact ⟨_, c, fun _ => rfl⟩
  case text cps x y c f xo yo =>
    rw [exec_text, execText] at h
    split at h
    · exact hstop _ (Host.Outcome.next.inj h)
    · obtain rfl := Host.Outcome.next.inj h
      rw [drawText, textRun_eq_paint]
      exact ⟨_, c, fun _ => rfl⟩
  case gwidth f cp =>
    rw [exec_gwidth, execGwidth] at h
    split at h
    · exact hstop _ (Host.Outcome.next.inj h)
    · obtain rfl := Host.Outcome.next.inj h
      exact readsAsPainted_of_sameFb fun _ => rfl
  case fheight f =>
    rw [exec_fheight, execFheight] at h
    split at h
    · exact hstop _ (Host.Outcome.next.inj h)
    · obtain rfl := Host.Outcome.next.inj h
      exact readsAsPainted_of_sameFb fun _ => rfl

/-- No on-surface point has its bit in the padding of a row's last byte (R51, R53). -/
theorem not_painted_padding {cfg : Config} {y j : Nat} (hj : j < 8 * cfg.stride - cfg.width) (S : Int → Int → Prop) :
    ¬Painted cfg S (y * cfg.stride + cfg.stride - 1) j := by
  rintro ⟨px, py, hsurf, -, hbyte, hbit⟩
  obtain ⟨hx0, hx, -, -⟩ := onSurface_iff.mp hsurf
  have hcol : px.toNat / 8 < cfg.stride := by unfold Config.stride; omega
  have hlast : px.toNat / 8 = cfg.stride - 1 := by
    have hmod := congrArg (· % cfg.stride) hbyte
    simp only [Config.pixelByte, Nat.mul_add_mod', Nat.add_sub_assoc (show 1 ≤ cfg.stride by omega)] at hmod
    rwa [Nat.mod_eq_of_lt hcol, Nat.mod_eq_of_lt (by omega)] at hmod
  unfold pixelBit at hbit
  omega

/-! ### Commands one after another -/

theorem execAll_nil (s : State) : execAll [] s = some s := rfl

theorem execAll_cons_of_next {i : Instr} {s t : State} (h : exec i s = .next t) (is : List Instr) :
    execAll (i :: is) s = execAll is t := by
  simp [execAll, h]

/-- No list of commands changes the configuration. -/
theorem execAll_cfg {is : List Instr} {s t : State} (h : execAll is s = some t) : t.cfg = s.cfg := by
  induction is generalizing s with
  | nil => cases h; rfl
  | cons i is ih =>
    obtain ⟨u, hu⟩ := exec_next i s
    rw [execAll_cons_of_next hu] at h
    exact (ih h).trans (exec_keeps hu).cfg

theorem advance_zero (s : State) : s.advance 0 = s := by simp [State.advance]

theorem advance_advance (s : State) (m n : Nat) : (s.advance m).advance n = s.advance (m + n) := by
  simp [State.advance, BitVec.ofNat_add, BitVec.add_assoc]

theorem paintPoints_advance (c : Colour) (l : List (Int × Int)) (s : State) (n : Nat) :
    paintPoints c l (s.advance n) = (paintPoints c l s).advance n := by
  induction l generalizing s with
  | nil => rfl
  | cons p l ih =>
    have hpixel : setPixel p.1 p.2 c (s.advance n) = (setPixel p.1 p.2 c s).advance n := by
      rw [setPixel, setPixel, advance_cfg]
      split_ifs <;> rfl
    rw [paintPoints, hpixel, ih, paintPoints]

/-- SETPIX commands one after another set their pixels one after another. -/
theorem execAll_setpix (c : Colour) (l : List (Half × Half)) (s : State) :
    execAll (l.map (fun p => .setpix p.1 p.2 c)) s =
      some ((paintPoints c (l.map (fun p => (p.1.toInt, p.2.toInt))) s).advance (2 * l.length)) := by
  induction l generalizing s with
  | nil => rw [List.length_nil, Nat.mul_zero, advance_zero]; rfl
  | cons p l ih =>
    rw [List.map_cons, execAll_cons_of_next (exec_setpix p.1 p.2 c s), ih, paintPoints_advance, advance_advance,
      List.length_cons, Nat.mul_succ, Nat.add_comm]
    rfl

/-- A number between two half-words is the value of its half-word. -/
theorem toInt_ofInt_of_between {a b : Half} {x : Int} (hx : x ∈ intRange (min a.toInt b.toInt) (max a.toInt b.toInt)) :
    (BitVec.ofInt 16 x).toInt = x := by
  obtain ⟨hlo, hhi⟩ := mem_intRange.mp hx
  have ha := a.toInt_lt; have ha' := a.le_toInt; have hb := b.toInt_lt; have hb' := b.le_toInt
  rw [BitVec.toInt_ofInt, Int.bmod_eq_of_le] <;> omega

/-! ### The byte-level forms of the spans (R132, R135) -/

theorem getLsbD_ones_shiftRight (n : Nat) {j : Nat} : ((0xFF : Byte) >>> n).getLsbD j = decide (n + j < 8) := by
  have hones : (0xFF : Byte) = BitVec.allOnes 8 := rfl
  rw [hones, BitVec.getLsbD_ushiftRight, BitVec.getLsbD_allOnes]

theorem getLsbD_ones_shiftLeft (n : Nat) {j : Nat} (hj : j < 8) : ((0xFF : Byte) <<< n).getLsbD j = decide (n ≤ j) := by
  have hones : (0xFF : Byte) = BitVec.allOnes 8 := rfl
  rw [hones, BitVec.getLsbD_shiftLeft, BitVec.getLsbD_allOnes]
  by_cases h : n ≤ j
  · simp [h, hj, show j - n < 8 by omega]
  · simp [h]

/-- The masks of a run of columns cover exactly these: bit `j` of byte `b` is column 8 b + 7 - j. -/
theorem hspanMasks_iff {xs xe : Nat} (hle : xs ≤ xe) (b : Nat) {j : Nat} (hj : j < 8) :
    (∃ p ∈ hspanMasks xs xe, p.1 = b ∧ p.2.getLsbD j = true) ↔ xs ≤ 8 * b + (7 - j) ∧ 8 * b + (7 - j) ≤ xe := by
  have hones : (0xFF : Byte).getLsbD j = true := by
    rw [← BitVec.ushiftRight_zero (0xFF : Byte), getLsbD_ones_shiftRight, Nat.zero_add, decide_eq_true hj]
  have hlead : ((0xFF : Byte) >>> (xs % 8)).getLsbD j = true ↔ xs % 8 + j < 8 := by
    rw [getLsbD_ones_shiftRight, decide_eq_true_eq]
  have htrail : (~~~((0xFF : Byte) >>> (xe % 8 + 1))).getLsbD j = true ↔ 8 ≤ xe % 8 + 1 + j := by
    rw [BitVec.getLsbD_not, getLsbD_ones_shiftRight, decide_eq_true hj, Bool.true_and, Bool.not_eq_true',
      decide_eq_false_iff_not, not_lt]
  simp only [hspanMasks]
  split_ifs with hbe
  · simp only [List.mem_singleton, exists_eq_left, BitVec.getLsbD_and, Bool.and_eq_true, hlead, htrail]
    omega
  · have hmiddle : (∃ p ∈ (List.range (xe / 8 - xs / 8 - 1)).map (fun k => (xs / 8 + 1 + k, (0xFF : Byte))),
        p.1 = b ∧ p.2.getLsbD j = true) ↔ xs / 8 < b ∧ b < xe / 8 := by
      simp only [List.mem_map, List.mem_range, exists_exists_and_eq_and, hones, and_true]
      exact ⟨by rintro ⟨k, hk, rfl⟩; omega, fun ⟨h1, h2⟩ => ⟨b - xs / 8 - 1, by omega, by omega⟩⟩
    simp only [List.exists_mem_cons_iff, List.mem_append, or_and_right, exists_or, List.mem_singleton, exists_eq_left,
      hlead, htrail, hmiddle]
    clear hmiddle
    omega

/-- The columns that R132 cuts a run to lie on the surface, and a point of the run does exactly if it lies between them. -/
theorem painted_hrun_iff {cfg : Config} {a b k : Int} (hk0 : 0 ≤ k) (hk : k < (cfg.height : Int)) (i : Nat) {j : Nat}
    (hj : j < 8) :
    Painted cfg (fun x y => PointSet.has [.hrun a b k] x y = true) i j ↔
      ∃ d : Nat, k.toNat * cfg.stride + d = i ∧ max (min a b) 0 ≤ ((8 * d + (7 - j) : Nat) : Int) ∧
        ((8 * d + (7 - j) : Nat) : Int) ≤ min (max a b) ((cfg.width : Int) - 1) := by
  simp only [PointSet.has_cons, PointSet.has_nil, Bool.or_false, Piece.has_hrun, decide_eq_true_eq, Painted,
    onSurface_iff, Config.pixelByte, pixelBit]
  constructor
  · rintro ⟨x, y, ⟨hx0, hx, -, -⟩, ⟨rfl, hlo, hhi⟩, hbyte, hbit⟩
    exact ⟨x.toNat / 8, hbyte, by omega, by omega⟩
  · rintro ⟨d, hbyte, hlo, hhi⟩
    have hd : ((8 * d + (7 - j) : Nat) : Int).toNat / 8 = d := by omega
    refine ⟨((8 * d + (7 - j) : Nat) : Int), k, ⟨by omega, by omega, hk0, hk⟩, ⟨rfl, by omega, by omega⟩, ?_, by omega⟩
    rw [hd, hbyte]

/-- The masks of R132 are the bits of the run's on-surface points. -/
theorem hspanBytes_refines (a b k : Int) (c : Colour) (s : State) :
    SameFb (paint [.hrun a b k] c s) (hspanBytes a b k c s) ∧ SameControl s (hspanBytes a b k c s) ∧
      (hspanBytes a b k c s).cp = s.cp ∧ (hspanBytes a b k c s).result = s.result := by
  unfold hspanBytes
  split_ifs with hrow
  · refine writeMasks_refines_paint (l := []) (fun i j hj => ?_) c
    simp [Painted, onSurface_iff]
    omega
  · dsimp only
    split_ifs with hcut
    · refine writeMasks_refines_paint (l := []) (fun i j hj => ?_) c
      rw [painted_hrun_iff (by omega) (by omega) i hj]
      simp only [List.not_mem_nil, false_and, exists_false, iff_false]
      rintro ⟨d, -, hlo, hhi⟩
      omega
    · have hle : (max (min a b) 0).toNat ≤ (min (max a b) ((s.cfg.width : Int) - 1)).toNat := by omega
      refine writeMasks_refines_paint (fun i j hj => ?_) c
      rw [painted_hrun_iff (by omega) (by omega) i hj]
      simp only [List.mem_map, exists_exists_and_eq_and]
      constructor
      · rintro ⟨d, hbyte, hlo, hhi⟩
        obtain ⟨p, hp, rfl, hbit⟩ := (hspanMasks_iff hle d hj).mpr ⟨by omega, by omega⟩
        exact ⟨p, hp, hbyte, hbit⟩
      · rintro ⟨p, hp, hbyte, hbit⟩
        obtain ⟨hlo, hhi⟩ := (hspanMasks_iff hle p.1 hj).mp ⟨p, hp, rfl, hbit⟩
        exact ⟨p.1, hbyte, by omega, by omega⟩

/-- The masks of R135 are the bits of the run's on-surface points. -/
theorem vspanBytes_refines (k a b : Int) (c : Colour) (s : State) :
    SameFb (paint [.vrun k a b] c s) (vspanBytes k a b c s) ∧ SameControl s (vspanBytes k a b c s) ∧
      (vspanBytes k a b c s).cp = s.cp ∧ (vspanBytes k a b c s).result = s.result := by
  unfold vspanBytes
  split_ifs with hcol
  · refine writeMasks_refines_paint (l := []) (fun i j hj => ?_) c
    simp [Painted, onSurface_iff]
    omega
  · refine writeMasks_refines_paint (fun i j hj => ?_) c
    simp only [List.mem_map, mem_intRange, exists_exists_and_eq_and, pixelMask_getLsbD k hj, decide_eq_true_eq,
      Painted, onSurface_iff, PointSet.has_cons, PointSet.has_nil, Bool.or_false, Piece.has_vrun]
    constructor
    · rintro ⟨x, y, ⟨-, -, hy0, hy⟩, ⟨rfl, hlo, hhi⟩, hbyte, hbit⟩
      exact ⟨y, ⟨by omega, by omega⟩, hbyte, hbit⟩
    · rintro ⟨y, ⟨hlo, hhi⟩, hbyte, hbit⟩
      exact ⟨k, y, ⟨by omega, by omega, by omega, by omega⟩, ⟨rfl, by omega, by omega⟩, hbyte, hbit⟩

/-- SETPIX of each point of a list paints what Paint of a piece with the same points does. -/
theorem setpixAll_refines_paint {p : Piece} {l : List (Half × Half)} (c : Colour) (s : State)
    (h : ∀ x y, (x, y) ∈ l.map (fun q => (q.1.toInt, q.2.toInt)) ↔ p.has x y = true) (n : Nat) :
    ∃ u, execAll (l.map (fun q => .setpix q.1 q.2 c)) s = some u ∧ SameFb u ((paint [p] c s).advance n) := by
  refine ⟨_, execAll_setpix c l s, fun i => ?_⟩
  have hpoints := paintsExactly_congr (T := fun x y => PointSet.has [p] x y = true)
    (fun x y _ => by rw [h x y]; simp) (paintPoints_exactly c (l.map fun q => (q.1.toInt, q.2.toInt)) s)
  rw [advance_fbByte, advance_fbByte]
  exact sameFb_of_paintsExactly hpoints (paint_exactly [p] c s) i

/-- The half-words of the numbers between two half-words. -/
def halvesBetween (a b : Half) : List Half :=
  (intRange (min a.toInt b.toInt) (max a.toInt b.toInt)).map (BitVec.ofInt 16)

theorem exists_mem_halvesBetween {a b : Half} {x : Int} :
    (∃ h ∈ halvesBetween a b, h.toInt = x) ↔ min a.toInt b.toInt ≤ x ∧ x ≤ max a.toInt b.toInt := by
  rw [← mem_intRange]
  constructor
  · rintro ⟨h, hh, rfl⟩
    obtain ⟨z, hz, rfl⟩ := List.mem_map.mp hh
    rwa [toInt_ofInt_of_between hz]
  · intro hx
    exact ⟨_, List.mem_map_of_mem hx, toInt_ofInt_of_between hx⟩

end Sys2Proof.Machine

namespace Sys2Proof.Proofs

open Sys2Proof Sys2Proof.Machine

/-- Settles O22: SETPIX gives the pixel's bit the colour, and GETPIX answers that bit. -/
theorem setpixThenGetpixRoundTrips : Obligations.SetpixThenGetpixRoundTrips := by
  intro x y c s t u hset hget
  obtain rfl : (setPixel x.toInt y.toInt c s).advance 2 = t := Host.Outcome.next.inj hset
  obtain rfl := Host.Outcome.next.inj ((exec_getpix x y _).symm.trans hget)
  refine ⟨fun hon => ?_, fun hoff i => ?_⟩
  · have hpixel : ((setPixel x.toInt y.toInt c s).advance 2).pixel x.toInt y.toInt = c := by
      rw [pixel_eq_getLsbD, advance_fbByte, advance_cfg, setPixel_cfg, setPixel_getLsbD _ _ _ _ _ (pixelBit_lt _)]
      exact if_pos ⟨hon, rfl, rfl⟩
    rw [advance_result, setResult_result, getPixelValue, hpixel, advance_cfg, setPixel_cfg, if_pos hon]
    cases c <;> rfl
  · rw [advance_fbByte, setPixel, if_neg (by simp [hoff])]

/-- Settles O23: no list of commands changes FBSIZE, and the fill lists every byte anew. -/
theorem clearForgetsWhatWasDrawn : Obligations.ClearForgetsWhatWasDrawn := by
  intro is c s t u hall hclear
  obtain rfl := Host.Outcome.next.inj ((exec_clear c t).symm.trans hclear)
  refine ⟨fun i hi => ?_, fun v hagain => ?_⟩
  · rw [← execAll_cfg hall] at hi
    rw [advance_fbByte, fillFb_fbByte_lt t _ hi, clearByte]
  · obtain rfl := Host.Outcome.next.inj ((exec_clear c _).symm.trans hagain)
    rfl

/-- Settles O24: every command keeps the canonical form, in which an address outside FB is listed neither before nor
after it. -/
theorem noCommandWritesOutsideTheFramebuffer : Obligations.NoCommandWritesOutsideTheFramebuffer := by
  intro i s t hwf hexec
  have hwf' : cellsWf s.cfg.fbSize t.fb = true := by
    rcases exec_shape i s t hexec with ⟨code, -, rfl⟩ | ⟨-, rfl⟩ | ⟨-, fb, r, rfl, hfb⟩
    · exact hwf
    · exact hwf
    · exact hfb hwf
  have hkeeps := exec_keeps hexec
  refine ⟨hwf', fun a ha => ?_⟩
  rw [fbByte_of_le hwf ha, fbByte_of_le (by rw [hkeeps.cfg]; exact hwf') (by rw [hkeeps.cfg]; exact ha), hkeeps.epoch]

/-- Settles O25: every command but CLEAR paints points of the surface, and none of these is in the padding. -/
theorem onlyClearWritesPaddingBits : Obligations.OnlyClearWritesPaddingBits := by
  intro i s t y j hexec hi hy hj
  obtain ⟨S, c, hpaint⟩ := exec_readsAsPainted hexec hi
  have hj8 : j < 8 := by unfold Config.stride at hj; omega
  rw [hpaint]
  exact (paint_exactly S c s _ j hj8).2 (not_painted_padding hj _)

/-- Settles O29: both paint the points of the run, one by one as pixels and at once as a point set. -/
theorem spansMatchPixelWrites : Obligations.SpansMatchPixelWrites := by
  intro a b k c s run
  refine ⟨fun t hexec => ?_, fun t hexec => ?_⟩
  · obtain rfl := Host.Outcome.next.inj ((exec_hspan a b k c s).symm.trans hexec)
    have hpoints : ∀ x y, (x, y) ∈ ((halvesBetween a b).map (fun h => (h, k))).map (fun q => (q.1.toInt, q.2.toInt)) ↔
        (Piece.hrun a.toInt b.toInt k.toInt).has x y = true := by
      intro x y
      simp only [List.map_map, List.mem_map, Function.comp_apply, Prod.mk.injEq, Piece.has_hrun, decide_eq_true_eq,
        ← exists_mem_halvesBetween]
      tauto
    simpa [halvesBetween, Function.comp_def] using setpixAll_refines_paint c s hpoints 3
  · obtain rfl := Host.Outcome.next.inj ((exec_vspan k a b c s).symm.trans hexec)
    have hpoints : ∀ x y, (x, y) ∈ ((halvesBetween a b).map (fun h => (k, h))).map (fun q => (q.1.toInt, q.2.toInt)) ↔
        (Piece.vrun k.toInt a.toInt b.toInt).has x y = true := by
      intro x y
      simp only [List.map_map, List.mem_map, Function.comp_apply, Prod.mk.injEq, Piece.has_vrun, decide_eq_true_eq,
        ← exists_mem_halvesBetween]
      tauto
    simpa [halvesBetween, Function.comp_def] using setpixAll_refines_paint c s hpoints 3

/-- Settles O30: the masks of both byte forms are the bits of the run's on-surface points. -/
theorem spanByteFormsAreEquivalent : Obligations.SpanByteFormsAreEquivalent :=
  fun a b k c s => ⟨hspanBytes_refines a b k c s, vspanBytes_refines k a b c s⟩

end Sys2Proof.Proofs
end

section
/-! PROOFS. Lines and rectangles (42_primitives.md sections 1 and 2, rules R140 to R148): the walk of a line in closed
form, a line as the graph of a function of its primary coordinate, and the sets of rectangles for every order of corners. -/

namespace Sys2Proof.Machine

/-! ### The walk in closed form (R141) -/

/-- How far the secondary coordinate has moved at point `k` of a walk with differences `dp` and `dq`: the ideal
`dq * k / dp` rounded to the nearest integer, halves staying back. -/
def lineRound (dp dq k : Int) : Int := (2 * dq * k + dp - 1) / (2 * dp)

section
variable {dp dq : Int}

theorem lineRound_eq_iff (hp : 0 < dp) (k m : Int) :
    lineRound dp dq k = m ↔ 2 * dp * m ≤ 2 * dq * k + dp - 1 ∧ 2 * dq * k + dp - 1 < 2 * dp * (m + 1) := by
  have h2 : 0 < 2 * dp := by omega
  rw [lineRound, Int.ediv_eq_iff_of_pos h2]
  constructor
  · rintro ⟨h1, h2⟩; constructor <;> linarith
  · rintro ⟨h1, h2⟩; constructor <;> linarith

theorem lineRound_zero (hp : 0 < dp) : lineRound dp dq 0 = 0 := by
  rw [lineRound_eq_iff hp]; constructor <;> linarith

theorem lineRound_end (hp : 0 < dp) : lineRound dp dq dp = dq := by
  rw [lineRound_eq_iff hp]; constructor <;> nlinarith

/-- The decision term of R141 at point `k`. -/
def lineDecision (dp dq k : Int) : Int := 2 * dq * (k + 1) - dp * (2 * lineRound dp dq k + 1)

/-- The secondary coordinate moves exactly where the decision term is positive. -/
theorem lineRound_succ (hp : 0 < dp) (h0 : 0 ≤ dq) (hle : dq ≤ dp) (k : Int) :
    lineRound dp dq (k + 1) = lineRound dp dq k + (if lineDecision dp dq k > 0 then 1 else 0) := by
  obtain ⟨hlo, hhi⟩ := (lineRound_eq_iff (dq := dq) hp k _).mp rfl
  rw [lineRound_eq_iff hp]
  unfold lineDecision
  split_ifs with hd <;> constructor <;> nlinarith

theorem lineDecision_succ (hp : 0 < dp) (h0 : 0 ≤ dq) (hle : dq ≤ dp) (k : Int) :
    lineDecision dp dq (k + 1) =
      lineDecision dp dq k + (if lineDecision dp dq k > 0 then 2 * (dq - dp) else 2 * dq) := by
  have hround := lineRound_succ hp h0 hle k
  by_cases hd : lineDecision dp dq k > 0
  · rw [if_pos hd] at hround ⊢
    simp only [lineDecision, hround]; ring
  · rw [if_neg hd] at hround ⊢
    simp only [lineDecision, hround]; ring

/-- One turn of the walk takes the closed form at `k` to the closed form at `k + 1`. -/
theorem walk_succ_eq (hp : 0 < dp) (h0 : 0 ≤ dq) (hle : dq ≤ dp) (qi p q : Int) (n : Nat) (k : Int) :
    walk dp dq qi (n + 1) p (q + qi * lineRound dp dq k) (lineDecision dp dq k) =
      (p, q + qi * lineRound dp dq k) ::
        walk dp dq qi n (p + 1) (q + qi * lineRound dp dq (k + 1)) (lineDecision dp dq (k + 1)) := by
  rw [walk, lineDecision_succ hp h0 hle, lineRound_succ hp h0 hle]
  split_ifs
  · rw [mul_add, mul_one, add_assoc]
  · rw [add_zero]

theorem walk_eq (hp : 0 < dp) (h0 : 0 ≤ dq) (hle : dq ≤ dp) (qi p q : Int) (n : Nat) (k : Int) :
    walk dp dq qi n p (q + qi * lineRound dp dq k) (lineDecision dp dq k) =
      (List.range n).map (fun j : Nat => (p + (j : Int), q + qi * lineRound dp dq (k + (j : Int)))) := by
  induction n generalizing p k with
  | zero => rfl
  | succ n ih =>
    rw [walk_succ_eq hp h0 hle, ih, List.range_succ_eq_map, List.map_cons, List.map_map]
    simp [Function.comp_def, add_assoc, add_comm (1 : Int)]

end

/-- The secondary direction of a walk from `q0` to `q1`. -/
def lineDir (q0 q1 : Int) : Int := if q1 < q0 then -1 else 1

/-- The secondary coordinate of the line from (`p0`, `q0`) to (`p1`, `q1`) at the primary coordinate `p`, for p0 < p1. -/
def lineAt (p0 q0 p1 q1 p : Int) : Int := q0 + lineDir q0 q1 * lineRound (p1 - p0) (q1 - q0).natAbs (p - p0)

theorem walkFrom_eq {p0 q0 p1 q1 : Int} (hp : p0 < p1) (hq : (q1 - q0).natAbs ≤ (p1 - p0).natAbs) :
    walkFrom p0 q0 p1 q1 =
      (List.range ((p1 - p0).toNat + 1)).map (fun k : Nat => (p0 + (k : Int), lineAt p0 q0 p1 q1 (p0 + (k : Int)))) := by
  have hdp : 0 < p1 - p0 := by omega
  have hn : (p1 - p0 + 1).toNat = (p1 - p0).toNat + 1 := by omega
  have hstart : ∀ dq : Int, 2 * dq - (p1 - p0) = lineDecision (p1 - p0) dq 0 := fun dq => by
    rw [lineDecision, lineRound_zero hdp]; ring
  have hwalk : ∀ dq qi : Int, 0 ≤ dq → dq ≤ p1 - p0 →
      walk (p1 - p0) dq qi ((p1 - p0).toNat + 1) p0 q0 (2 * dq - (p1 - p0)) =
        (List.range ((p1 - p0).toNat + 1)).map (fun k : Nat =>
          (p0 + (k : Int), q0 + qi * lineRound (p1 - p0) dq (k : Int))) := by
    intro dq qi h0 hle
    have heq := walk_eq hdp h0 hle qi p0 q0 ((p1 - p0).toNat + 1) 0
    simpa only [lineRound_zero hdp, mul_zero, add_zero, zero_add, ← hstart] using heq
  simp only [walkFrom, hn, lineAt, lineDir, add_sub_cancel_left]
  by_cases hneg : q1 - q0 < 0
  · rw [if_pos hneg, if_pos (by omega), hwalk _ _ (by omega) (by omega), Int.ofNat_natAbs_of_nonpos (by omega)]
  · rw [if_neg hneg, if_neg (by omega), hwalk _ _ (by omega) (by omega), Int.natAbs_of_nonneg (by omega)]

/-! ### A line as a graph (R140, R143) -/

/-- The points (p, q) of `P` are the graph of `f` on the integers between `p0` and `p1`, from `q0` to `q1` in steps of at
most one. -/
structure Traces (P : Int → Int → Prop) (p0 q0 p1 q1 : Int) (f : Int → Int) : Prop where
  mem : ∀ p q, P p q ↔ min p0 p1 ≤ p ∧ p ≤ max p0 p1 ∧ q = f p
  start : f p0 = q0
  stop : f p1 = q1
  adjacent : ∀ p, min p0 p1 ≤ p → p < max p0 p1 → (f (p + 1) - f p).natAbs ≤ 1

section
variable {P : Int → Int → Prop} {p0 q0 p1 q1 : Int} {f : Int → Int}

theorem Traces.reverse (h : Traces P p0 q0 p1 q1 f) : Traces P p1 q1 p0 q0 f where
  mem := by simpa only [min_comm p1, max_comm p1] using h.mem
  start := h.stop
  stop := h.start
  adjacent := by simpa only [min_comm p1, max_comm p1] using h.adjacent

theorem Traces.has_start (h : Traces P p0 q0 p1 q1 f) : P p0 q0 :=
  (h.mem p0 q0).mpr ⟨min_le_left .., le_max_left .., h.start.symm⟩

theorem Traces.has_stop (h : Traces P p0 q0 p1 q1 f) : P p1 q1 := h.reverse.has_start

theorem Traces.exists_iff (h : Traces P p0 q0 p1 q1 f) (p : Int) : (∃ q, P p q) ↔ min p0 p1 ≤ p ∧ p ≤ max p0 p1 :=
  ⟨fun ⟨q, hq⟩ => ⟨((h.mem p q).mp hq).1, ((h.mem p q).mp hq).2.1⟩, fun ⟨hlo, hhi⟩ => ⟨f p, (h.mem p _).mpr ⟨hlo, hhi, rfl⟩⟩⟩

theorem Traces.unique (h : Traces P p0 q0 p1 q1 f) {p q q' : Int} (hq : P p q) (hq' : P p q') : q = q' := by
  obtain ⟨-, -, rfl⟩ := (h.mem p q).mp hq
  obtain ⟨-, -, rfl⟩ := (h.mem p q').mp hq'
  rfl

theorem Traces.step_le_one (h : Traces P p0 q0 p1 q1 f) {p q q' : Int} (hq : P p q) (hq' : P (p + 1) q') :
    (q' - q).natAbs ≤ 1 := by
  obtain ⟨hlo, -, rfl⟩ := (h.mem p q).mp hq
  obtain ⟨-, hhi, rfl⟩ := (h.mem (p + 1) q').mp hq'
  exact h.adjacent p hlo (by omega)

/-- One point for each value of the primary coordinate. -/
theorem Traces.ncard (h : Traces P p0 q0 p1 q1 f) : {p : Int × Int | P p.1 p.2}.ncard = (p1 - p0).natAbs + 1 := by
  have himage : {p : Int × Int | P p.1 p.2} =
      ((Finset.Icc (min p0 p1) (max p0 p1)).image (fun p => (p, f p)) : Finset (Int × Int)) := by
    ext ⟨p, q⟩
    simp only [Set.mem_ofPred_eq, h.mem, Finset.coe_image, Finset.coe_Icc, Set.mem_image, Set.mem_Icc, Prod.mk.injEq]
    constructor
    · rintro ⟨hlo, hhi, rfl⟩; exact ⟨p, ⟨hlo, hhi⟩, rfl, rfl⟩
    · rintro ⟨p, ⟨hlo, hhi⟩, rfl, rfl⟩; exact ⟨hlo, hhi, rfl⟩
  have hinj : Function.Injective (fun p => (p, f p)) := fun p p' heq => congrArg Prod.fst heq
  rw [himage, Set.ncard_coe_finset, Finset.card_image_of_injective _ hinj, Int.card_Icc]
  omega

end

/-- Exchanging the coordinates of a finite point set keeps the number of its points. -/
theorem ncard_swap (P : Int → Int → Prop) :
    {p : Int × Int | P p.1 p.2}.ncard = {p : Int × Int | P p.2 p.1}.ncard := by
  have himage : {p : Int × Int | P p.2 p.1} = Prod.swap '' {p : Int × Int | P p.1 p.2} := by
    rw [Set.image_swap_eq_preimage_swap]; rfl
  rw [himage, Set.ncard_image_of_injective _ Prod.swap_injective]

theorem lineAt_adjacent {p0 q0 p1 q1 : Int} (hp : p0 < p1) (hq : (q1 - q0).natAbs ≤ (p1 - p0).natAbs) (p : Int) :
    (lineAt p0 q0 p1 q1 (p + 1) - lineAt p0 q0 p1 q1 p).natAbs ≤ 1 := by
  have hsucc := lineRound_succ (dp := p1 - p0) (dq := (q1 - q0).natAbs) (by omega) (by omega) (by omega) (p - p0)
  rw [lineAt, lineAt, show p + 1 - p0 = p - p0 + 1 by ring, hsucc, lineDir]
  split_ifs <;> omega

theorem walkFrom_traces {p0 q0 p1 q1 : Int} (hp : p0 < p1) (hq : (q1 - q0).natAbs ≤ (p1 - p0).natAbs) :
    Traces (fun p q => (p, q) ∈ walkFrom p0 q0 p1 q1) p0 q0 p1 q1 (lineAt p0 q0 p1 q1) where
  mem p q := by
    simp only [walkFrom_eq hp hq, List.mem_map, List.mem_range, Prod.mk.injEq, min_eq_left hp.le, max_eq_right hp.le]
    constructor
    · rintro ⟨k, hk, rfl, rfl⟩; exact ⟨by omega, by omega, rfl⟩
    · rintro ⟨hlo, hhi, rfl⟩
      have hk : p0 + ((p - p0).toNat : Int) = p := by omega
      exact ⟨(p - p0).toNat, by omega, hk, by rw [hk]⟩
  start := by rw [lineAt, sub_self, lineRound_zero (by omega), mul_zero, add_zero]
  stop := by
    rw [lineAt, lineRound_end (by omega), lineDir]
    split_ifs <;> omega
  adjacent p _ _ := lineAt_adjacent hp hq p

theorem lowWalk_has_iff {x0 y0 x1 y1 x y : Int} :
    (lowWalk x0 y0 x1 y1).has x y = true ↔ (x, y) ∈ walkFrom x0 y0 x1 y1 := by
  simp only [lowWalk, PointSet.has_iff, List.mem_map, exists_exists_and_eq_and, Piece.has_dot, decide_eq_true_eq]
  exact ⟨fun ⟨p, hp, hx, hy⟩ => by rwa [hx, hy], fun h => ⟨_, h, rfl, rfl⟩⟩

theorem highWalk_has_iff {x0 y0 x1 y1 x y : Int} :
    (highWalk x0 y0 x1 y1).has x y = true ↔ (y, x) ∈ walkFrom y0 x0 y1 x1 := by
  simp only [highWalk, PointSet.has_iff, List.mem_map, exists_exists_and_eq_and, Piece.has_dot, decide_eq_true_eq]
  exact ⟨fun ⟨p, hp, hx, hy⟩ => by rwa [hx, hy], fun h => ⟨_, h, rfl, rfl⟩⟩

/-- A run is the graph of a constant. -/
theorem traces_run {P : Int → Int → Prop} {p0 p1 q0 : Int}
    (h : ∀ p q, P p q ↔ q = q0 ∧ min p0 p1 ≤ p ∧ p ≤ max p0 p1) : Traces P p0 q0 p1 q0 (fun _ => q0) where
  mem p q := by rw [h p q]; tauto
  start := rfl
  stop := rfl
  adjacent := by simp

/-- A low-slope line is the graph of a function of x. -/
theorem lineSet_traces_low {x0 y0 x1 y1 : Int} (h : (y1 - y0).natAbs < (x1 - x0).natAbs) :
    ∃ f, Traces (fun x y => (lineSet x0 y0 x1 y1).has x y = true) x0 y0 x1 y1 f := by
  simp only [lineSet, if_pos h]
  split_ifs with hflat hswap
  · obtain rfl : y1 = y0 := by omega
    exact ⟨_, traces_run (by simp)⟩
  · simp only [lowWalk_has_iff]
    exact ⟨_, (walkFrom_traces (by omega) (by omega)).reverse⟩
  · simp only [lowWalk_has_iff]
    exact ⟨_, walkFrom_traces (by omega) (by omega)⟩

/-- A high-slope line is the graph of a function of y. -/
theorem lineSet_traces_high {x0 y0 x1 y1 : Int} (h : (x1 - x0).natAbs ≤ (y1 - y0).natAbs) :
    ∃ f, Traces (fun y x => (lineSet x0 y0 x1 y1).has x y = true) y0 x0 y1 x1 f := by
  simp only [lineSet, if_neg (not_lt.mpr h)]
  split_ifs with hsteep hswap
  · obtain rfl : x1 = x0 := by omega
    exact ⟨_, traces_run (by simp)⟩
  · simp only [highWalk_has_iff]
    exact ⟨_, (walkFrom_traces (by omega) (by omega)).reverse⟩
  · simp only [highWalk_has_iff]
    exact ⟨_, walkFrom_traces (by omega) (by omega)⟩

/-- The walk starts at the same end whichever end the line is given from. -/
theorem lineSet_has_comm (x0 y0 x1 y1 x y : Int) :
    (lineSet x0 y0 x1 y1).has x y = (lineSet x1 y1 x0 y0).has x y := by
  simp only [lineSet]
  by_cases hlow : (y1 - y0).natAbs < (x1 - x0).natAbs
  · rw [if_pos hlow, if_pos (show (y0 - y1).natAbs < (x0 - x1).natAbs by omega)]
    by_cases hflat : y1 = y0
    · simp [hflat, min_comm x0, max_comm x0]
    · rw [if_neg (sub_ne_zero.mpr hflat), if_neg (sub_ne_zero.mpr (Ne.symm hflat))]
      rcases lt_or_gt_of_ne (show x0 ≠ x1 by omega) with hlt | hgt
      · rw [if_neg hlt.not_gt, if_pos hlt]
      · rw [if_pos hgt, if_neg hgt.not_gt]
  · rw [if_neg hlow, if_neg (show ¬(y0 - y1).natAbs < (x0 - x1).natAbs by omega)]
    by_cases hsteep : x1 = x0
    · simp [hsteep, min_comm y0, max_comm y0]
    · rw [if_neg (sub_ne_zero.mpr hsteep), if_neg (sub_ne_zero.mpr (Ne.symm hsteep))]
      rcases lt_or_gt_of_ne (show y0 ≠ y1 by omega) with hlt | hgt
      · rw [if_neg hlt.not_gt, if_pos hlt]
      · rw [if_pos hgt, if_neg hgt.not_gt]

theorem lineSet_point_has_iff {x0 y0 x y : Int} : (lineSet x0 y0 x0 y0).has x y = true ↔ x = x0 ∧ y = y0 := by
  simp only [lineSet, sub_self, lt_self_iff_false, if_false, if_true, PointSet.has_cons, PointSet.has_nil,
    Piece.has_vrun, Bool.or_false, decide_eq_true_eq]
  omega

/-! ### The words of LINE (R142) -/

theorem encode_line (x0 y0 x1 y1 : Half) (c : Colour) :
    encode (.line x0 y0 x1 y1 c) = [hdrWord 0x07 c 0 0, pWord x0 y0, pWord x1 y1] := by
  rw [encode, header_eq, pointWord_eq, pointWord_eq]; rfl

end Sys2Proof.Machine

namespace Sys2Proof.Proofs

open Sys2Proof Sys2Proof.Machine

/-- Settles O31: LINE paints LineSet. -/
theorem linePaintsItsPointSet : Obligations.LinePaintsItsPointSet := by
  intro x0 y0 x1 y1 c s
  exact ⟨encode_line x0 y0 x1 y1 c, _, exec_line x0 y0 x1 y1 c s, paint_advance_draws (fun _ _ => Iff.rfl) c 3 s⟩

/-- Settles O33: the decision term tells whether the rounding of the next ideal point is the next integer. -/
theorem lineWalkRoundsTheIdealLine : Obligations.LineWalkRoundsTheIdealLine := by
  intro p0 q0 p1 q1 hp hq
  rw [walkFrom_eq hp hq]
  simp only [lineAt, lineDir, lineRound, add_sub_cancel_left]

/-- Settles O32: a line is the graph of a function of its dominant coordinate, which moves by at most one. -/
theorem lineSetsObeyTheLineLaws : Obligations.LineSetsObeyTheLineLaws := by
  intro x0 y0 x1 y1 L
  rcases lt_or_ge (y1 - y0).natAbs (x1 - x0).natAbs with hlow | hhigh
  · obtain ⟨f, hf⟩ := lineSet_traces_low hlow
    refine ⟨⟨hf.has_start, hf.has_stop⟩, fun _ => ⟨hf.exists_iff, fun _ _ _ => hf.unique, fun _ _ _ => hf.step_le_one⟩,
      fun hhigh => absurd hlow hhigh.not_gt, lineSet_has_comm x0 y0 x1 y1, ?_, fun _ _ => lineSet_point_has_iff⟩
    rw [hf.ncard, max_eq_left hlow.le]
  · obtain ⟨f, hf⟩ := lineSet_traces_high hhigh
    refine ⟨⟨hf.has_start, hf.has_stop⟩, fun hlow => absurd hlow hhigh.not_gt, fun _ => ⟨hf.exists_iff,
      fun _ _ _ => hf.unique, fun _ _ _ => hf.step_le_one⟩, lineSet_has_comm x0 y0 x1 y1, ?_,
      fun _ _ => lineSet_point_has_iff⟩
    rw [ncard_swap (fun x y => L.has x y = true), hf.ncard, max_eq_right hhigh]

/-- Settles O36: the sets depend on the corners through their least and greatest coordinates alone. -/
theorem rectangleSetsHoldForEveryCornerOrder : Obligations.RectangleSetsHoldForEveryCornerOrder := by
  intro x0 y0 x1 y1 x y
  simp only [Bool.eq_iff_iff (b := PointSet.has _ _ _), rectSet_has_iff, frectSet_has_iff]
  omega

end Sys2Proof.Proofs
end

section
/-! PROOFS. Circles and discs (42_primitives.md section 3, rules R150 to R157): the walk of the octant offsets and where it
ends, how near to the ideal circle it stays, and the point sets read off from it. -/

namespace Sys2Proof.Machine

/-! ### The walk run to its end (R150) -/

/-- The walk from `p` ends at turn `n`: the first at which y < x. -/
def WalkEnds (p : Int × Int × Int) (n : Nat) : Prop :=
  (∀ k, k < n → (circleNext^[k] p).1 ≤ (circleNext^[k] p).2.1) ∧ (circleNext^[n] p).2.1 < (circleNext^[n] p).1

theorem WalkEnds.unique {p : Int × Int × Int} {m n : Nat} (hm : WalkEnds p m) (hn : WalkEnds p n) : m = n := by
  rcases lt_trichotomy m n with hlt | heq | hgt
  · exact absurd (hn.1 m hlt) hm.2.not_ge
  · exact heq
  · exact absurd (hm.1 n hgt) hn.2.not_ge

/-- The offsets of the first `n` turns of the walk from `p`. -/
def walkOffsets (p : Int × Int × Int) (n : Nat) : List (Int × Int) :=
  (List.range n).map (fun k => ((circleNext^[k] p).1, (circleNext^[k] p).2.1))

theorem circleNext_fst (p : Int × Int × Int) : (circleNext p).1 = p.1 + 1 := by
  unfold circleNext; split_ifs <;> rfl

/-- A turn leaves y where it is or lowers it by one. -/
theorem circleNext_y (p : Int × Int × Int) : (circleNext p).2.1 ≤ p.2.1 ∧ p.2.1 ≤ (circleNext p).2.1 + 1 := by
  unfold circleNext; split_ifs <;> dsimp only <;> omega

theorem circleLoop_succ (fuel : Nat) (p : Int × Int × Int) (h : p.1 ≤ p.2.1) :
    circleLoop (fuel + 1) p.1 p.2.1 p.2.2 =
      (p.1, p.2.1) :: circleLoop fuel (circleNext p).1 (circleNext p).2.1 (circleNext p).2.2 := by
  rw [circleLoop, if_pos h, circleNext]
  split_ifs <;> rfl

/-- With as many turns as y - x + 1 the loop runs the walk to its end (log entry 20). -/
theorem circleLoop_eq (fuel : Nat) (p : Int × Int × Int) (hfuel : p.2.1 - p.1 + 1 ≤ fuel) :
    ∃ n, WalkEnds p n ∧ circleLoop fuel p.1 p.2.1 p.2.2 = walkOffsets p n := by
  induction fuel generalizing p with
  | zero => exact ⟨0, ⟨nofun, by simp at hfuel ⊢; omega⟩, rfl⟩
  | succ fuel ih =>
    by_cases hend : p.2.1 < p.1
    · exact ⟨0, ⟨nofun, hend⟩, by rw [circleLoop, if_neg (by omega)]; rfl⟩
    · have hfst := circleNext_fst p
      have hy := circleNext_y p
      obtain ⟨n, ⟨hbefore, hafter⟩, hloop⟩ := ih (circleNext p) (by push_cast at hfuel; omega)
      refine ⟨n + 1, ⟨fun k hk => ?_, hafter⟩, ?_⟩
      · cases k with
        | zero => exact not_lt.mp hend
        | succ k => exact hbefore k (by omega)
      · rw [circleLoop_succ fuel p (not_lt.mp hend), hloop, walkOffsets, walkOffsets, List.range_succ_eq_map,
          List.map_cons, List.map_map]
        rfl

/-- The start of the walk of radius `r`. -/
def circleStart (r : Int) : Int × Int × Int := (0, r, 3 - 2 * r)

theorem circleSteps_eq (r : Int) : ∃ n, WalkEnds (circleStart r) n ∧ circleSteps r = walkOffsets (circleStart r) n :=
  circleLoop_eq (r + 1).toNat (circleStart r) (by simp only [circleStart]; omega)

theorem circleLoop_eq_circleSteps {r : Int} {fuel : Nat} (h : (r + 1).toNat ≤ fuel) :
    circleLoop fuel 0 r (3 - 2 * r) = circleSteps r := by
  obtain ⟨m, hm, hsteps⟩ := circleSteps_eq r
  obtain ⟨n, hn, hloop⟩ := circleLoop_eq fuel (circleStart r) (by simp only [circleStart]; omega)
  rw [hsteps, hm.unique hn]
  exact hloop

/-! ### How near the walk stays to the ideal circle (R155) -/

/-- What the walk of radius `r` keeps: y does not exceed `r`, the decision variable compares the two candidates for the
next offset, and x² + y² is near r²: not below it by more than y, nor above it by more than `r` while x ≤ y. -/
structure NearCircle (r : Int) (p : Int × Int × Int) : Prop where
  x_nonneg : 0 ≤ p.1
  y_le : p.2.1 ≤ r
  decision : p.2.2 = 2 * (p.1 + 1) ^ 2 + p.2.1 ^ 2 + (p.2.1 - 1) ^ 2 - 2 * r ^ 2
  below : r ^ 2 - p.2.1 ≤ p.1 ^ 2 + p.2.1 ^ 2
  below_top : p.2.1 = r → r ^ 2 ≤ p.1 ^ 2 + p.2.1 ^ 2
  above : p.1 ≤ p.2.1 → p.1 ^ 2 + p.2.1 ^ 2 ≤ r ^ 2 + r

theorem nearCircle_start {r : Int} (hr : 0 ≤ r) : NearCircle r (circleStart r) where
  x_nonneg := le_rfl
  y_le := le_rfl
  decision := by simp only [circleStart]; ring
  below := by simp only [circleStart]; nlinarith
  below_top := by simp only [circleStart]; intro; nlinarith
  above := by simp only [circleStart]; intro; nlinarith

/-- A turn made while x ≤ y keeps the walk near the circle: the candidate whose square is nearer is taken. -/
theorem NearCircle.next {r : Int} {p : Int × Int × Int} (h : NearCircle r p) (hle : p.1 ≤ p.2.1) :
    NearCircle r (circleNext p) := by
  obtain ⟨x, y, d⟩ := p
  obtain ⟨hx, hy, hd, hbelow, htop, habove⟩ := h
  have habove := habove hle
  dsimp only at *
  unfold circleNext
  dsimp only
  split_ifs with hpos
  · exact {
      x_nonneg := by dsimp only; omega
      y_le := by dsimp only; omega
      decision := by dsimp only; rw [hd]; ring
      below := by dsimp only; nlinarith
      below_top := by dsimp only; intro; omega
      above := by dsimp only; intro; nlinarith }
  · exact {
      x_nonneg := by dsimp only; omega
      y_le := hy
      decision := by dsimp only; rw [hd]; ring
      below := by dsimp only; nlinarith
      below_top := by dsimp only; intro heq; have := htop heq; nlinarith
      above := by dsimp only; intro; nlinarith }

theorem nearCircle_iterate {r : Int} {n : Nat} (hr : 0 ≤ r) (hn : WalkEnds (circleStart r) n) {k : Nat} (hk : k ≤ n) :
    NearCircle r (circleNext^[k] (circleStart r)) := by
  induction k with
  | zero => exact nearCircle_start hr
  | succ k ih =>
    rw [Function.iterate_succ_apply']
    exact (ih (by omega)).next (hn.1 k (by omega))

/-- An offset of the walk is a turn of it at which x ≤ y; there is none for a negative radius. -/
theorem mem_circleSteps {r : Int} {p : Int × Int} (hp : p ∈ circleSteps r) :
    0 ≤ r ∧ p.1 ≤ p.2 ∧ ∃ d, NearCircle r (p.1, p.2, d) := by
  have hr : 0 ≤ r := by
    by_contra hneg
    rw [circleSteps_of_neg (not_le.mp hneg)] at hp
    cases hp
  obtain ⟨n, hn, hsteps⟩ := circleSteps_eq r
  rw [hsteps, walkOffsets, List.mem_map] at hp
  obtain ⟨k, hk, rfl⟩ := hp
  rw [List.mem_range] at hk
  exact ⟨hr, hn.1 k hk, _, nearCircle_iterate hr hn hk.le⟩

theorem abs_sqrt_sub_lt_of_nearCircle {r x y d : Int} (hr : 0 ≤ r) (hle : x ≤ y) (h : NearCircle r (x, y, d)) :
    |Real.sqrt ((x : ℝ) ^ 2 + (y : ℝ) ^ 2) - (r : ℝ)| < 1 / 2 := by
  obtain ⟨-, hy, -, hbelow, htop, habove⟩ := h
  have habove := habove hle
  dsimp only at *
  have hrR : (0 : ℝ) ≤ r := by exact_mod_cast hr
  have hupper : Real.sqrt ((x : ℝ) ^ 2 + (y : ℝ) ^ 2) < r + 1 / 2 := by
    have hR : (x : ℝ) ^ 2 + (y : ℝ) ^ 2 ≤ (r : ℝ) ^ 2 + r := by exact_mod_cast habove
    rw [Real.sqrt_lt' (by linarith)]
    nlinarith
  have hlower : (r : ℝ) - 1 / 2 < Real.sqrt ((x : ℝ) ^ 2 + (y : ℝ) ^ 2) := by
    rcases hr.eq_or_lt with hzero | hpos
    · have := Real.sqrt_nonneg ((x : ℝ) ^ 2 + (y : ℝ) ^ 2)
      rw [← hzero, Int.cast_zero]
      linarith
    · have hZ : r ^ 2 - r + 1 ≤ x ^ 2 + y ^ 2 := by
        rcases hy.eq_or_lt with heq | hlt
        · have := htop heq; omega
        · omega
      have hR : (r : ℝ) ^ 2 - r + 1 ≤ (x : ℝ) ^ 2 + (y : ℝ) ^ 2 := by exact_mod_cast hZ
      have hone : (1 : ℝ) ≤ r := by exact_mod_cast hpos
      rw [Real.lt_sqrt (by linarith)]
      nlinarith
  rw [abs_lt]
  constructor <;> linarith

/-! ### The point sets (R151, R152) -/

theorem plot8_has_iff {cx cy x y px py : Int} (hx : 0 ≤ x) (hy : 0 ≤ y) :
    (plot8 cx cy x y).has px py = true ↔
      (|px - cx| = x ∧ |py - cy| = y) ∨ (|px - cx| = y ∧ |py - cy| = x) := by
  simp only [plot8, PointSet.has_cons, PointSet.has_nil, Piece.has_dot, Bool.or_false, Bool.or_eq_true,
    decide_eq_true_eq, abs_eq hx, abs_eq hy]
  omega

theorem span4_has_iff {cx cy x y px py : Int} (hx : 0 ≤ x) (hy : 0 ≤ y) :
    (span4 cx cy x y).has px py = true ↔
      (|px - cx| ≤ x ∧ |py - cy| = y) ∨ (|px - cx| ≤ y ∧ |py - cy| = x) := by
  simp only [span4, PointSet.has_cons, PointSet.has_nil, Piece.has_hrun, Bool.or_false, Bool.or_eq_true,
    decide_eq_true_eq, abs_eq hx, abs_eq hy, abs_le]
  omega

theorem circleSet_has_iff {cx cy r px py : Int} :
    (circleSet cx cy r).has px py = true ↔
      ∃ p ∈ circleSteps r, (|px - cx| = p.1 ∧ |py - cy| = p.2) ∨ (|px - cx| = p.2 ∧ |py - cy| = p.1) := by
  simp only [circleSet, PointSet.has_flatMap, List.any_eq_true]
  refine exists_congr fun p => and_congr_right fun hp => ?_
  obtain ⟨-, hle, d, hnear⟩ := mem_circleSteps hp
  exact plot8_has_iff hnear.x_nonneg (hnear.x_nonneg.trans hle)

theorem fcircleSet_has_iff {cx cy r px py : Int} :
    (fcircleSet cx cy r).has px py = true ↔
      ∃ p ∈ circleSteps r, (|px - cx| ≤ p.1 ∧ |py - cy| = p.2) ∨ (|px - cx| ≤ p.2 ∧ |py - cy| = p.1) := by
  simp only [fcircleSet, PointSet.has_flatMap, List.any_eq_true]
  refine exists_congr fun p => and_congr_right fun hp => ?_
  obtain ⟨-, hle, d, hnear⟩ := mem_circleSteps hp
  exact span4_has_iff hnear.x_nonneg (hnear.x_nonneg.trans hle)

/-! ### The rows of a disc (R157) -/

theorem iterate_circleNext_fst (r : Int) (k : Nat) : (circleNext^[k] (circleStart r)).1 = k := by
  induction k with
  | zero => rfl
  | succ k ih => rw [Function.iterate_succ_apply', circleNext_fst, ih, Nat.cast_succ]

/-- Going down from `r` by at most one a turn, y passes every value between. -/
theorem exists_turn_of_between {r m : Int} {k : Nat} (hlo : (circleNext^[k] (circleStart r)).2.1 ≤ m) (hhi : m ≤ r) :
    ∃ j ≤ k, (circleNext^[j] (circleStart r)).2.1 = m := by
  induction k with
  | zero => exact ⟨0, le_rfl, le_antisymm hlo hhi⟩
  | succ k ih =>
    rcases hlo.eq_or_lt with heq | hlt
    · exact ⟨k + 1, le_rfl, heq⟩
    · rw [Function.iterate_succ_apply'] at hlt
      have hy := (circleNext_y (circleNext^[k] (circleStart r))).2
      obtain ⟨j, hj, hjm⟩ := ih (by omega)
      exact ⟨j, by omega, hjm⟩

/-- Every distance up to the radius is a coordinate of some offset: an x before the walk's end, else a y. -/
theorem exists_offset_of_le {r m : Int} (hm : 0 ≤ m) (hle : m ≤ r) : ∃ p ∈ circleSteps r, m = p.1 ∨ m = p.2 := by
  obtain ⟨n, hn, hsteps⟩ := circleSteps_eq r
  have hmem : ∀ k < n, ((circleNext^[k] (circleStart r)).1, (circleNext^[k] (circleStart r)).2.1) ∈ circleSteps r :=
    fun k hk => by rw [hsteps]; exact List.mem_map_of_mem (List.mem_range.mpr hk)
  by_cases hx : m < n
  · refine ⟨_, hmem m.toNat (by omega), .inl ?_⟩
    rw [iterate_circleNext_fst]
    omega
  · obtain ⟨j, hj, hjm⟩ : ∃ j ≤ n, (circleNext^[j] (circleStart r)).2.1 = m := by
      have hend := hn.2
      rw [iterate_circleNext_fst] at hend
      exact exists_turn_of_between (by omega) hle
    have hjn : j ≠ n := by
      rintro rfl
      have hend := hn.2
      rw [iterate_circleNext_fst] at hend
      omega
    exact ⟨_, hmem j (by omega), .inr hjm.symm⟩

/-! ### The smallest circles and the words of CIRCLE (R154) -/

/-- Radius 1 has one octant offset. -/
theorem circleSteps_one : circleSteps 1 = [(0, 1)] := rfl

theorem circleSet_zero_has_iff {cx cy x y : Int} : (circleSet cx cy 0).has x y = true ↔ x = cx ∧ y = cy := by
  simp only [circleSet_has_iff, circleSteps_zero, List.mem_singleton, exists_eq_left, abs_eq_zero, or_self]
  omega

theorem circleSet_one_has_iff {cx cy x y : Int} :
    (circleSet cx cy 1).has x y = true ↔
      ((x = cx + 1 ∨ x = cx - 1) ∧ y = cy) ∨ (x = cx ∧ (y = cy + 1 ∨ y = cy - 1)) := by
  simp only [circleSet_has_iff, circleSteps_one, List.mem_singleton, exists_eq_left, abs_eq_zero, abs_eq zero_le_one]
  omega

theorem circleSet_has_of_neg {r : Int} (hr : r < 0) (cx cy x y : Int) : (circleSet cx cy r).has x y = false := by
  rw [circleSet, circleSteps_of_neg hr, List.flatMap_nil, PointSet.has_nil]

theorem encode_circle (cx cy r : Half) (c : Colour) :
    encode (.circle cx cy r c) = [hdrWord 0x0A c 0 0, pWord cx cy, pWord r 0] := by
  rw [encode, header_eq, pointWord_eq, pointWord_eq]; rfl

/-- CIRCLE has no operand in B(W2) (R154). -/
theorem decode_circle_reserved (c : Colour) {w1 w2 : Word} (rest : List Word) (h : w2 &&& 0xFFFF0000 ≠ 0) :
    decode (hdrWord 0x0A c 0 0 :: w1 :: w2 :: rest) = .error .reserved :=
  decode_of_argsReserved (op := .circle) (args := [w1, w2]) c rest rfl (bne_iff_ne.mpr (ptB_ne_zero_of_and h))

end Sys2Proof.Machine

namespace Sys2Proof.Proofs

open Sys2Proof Sys2Proof.Machine

/-- Settles O37: CIRCLE paints CircleSet, a set bit of B(W2) is reserved, and the smallest walks have one offset or none. -/
theorem circlePaintsTheOutline : Obligations.CirclePaintsTheOutline := by
  intro cx cy r c s S
  have hpaints : Completes (.circle cx cy r c) s (Draws (fun px py => S.has px py = true) c 3 s) :=
    ⟨_, exec_circle cx cy r c s, paint_advance_draws (fun _ _ => Iff.rfl) c 3 s⟩
  refine ⟨encode_circle cx cy r c, fun _ _ rest => decode_circle_reserved c rest, hpaints, fun hr x y => ?_,
    fun hr x y => ?_, fun hr => circleSet_has_of_neg hr cx.toInt cy.toInt⟩
  · simp only [S, hr, circleSet_zero_has_iff]
  · simp only [S, hr, circleSet_one_has_iff]

/-- Settles O39: the loop has turns enough to run the walk to its end, every turn keeps it near the circle, and the
points of an offset are told by their distances from the centre's row and column alone. -/
theorem circleOffsetsObeyTheCircleLaws : Obligations.CircleOffsetsObeyTheCircleLaws := by
  refine ⟨fun r => ?_, fun r fuel => circleLoop_eq_circleSteps, fun r p hp => ?_, fun cx cy r a b => ?_⟩
  · obtain ⟨n, ⟨hbefore, hend⟩, hsteps⟩ := circleSteps_eq r
    exact ⟨n, hbefore, hend, hsteps⟩
  · obtain ⟨hr, hle, d, hnear⟩ := mem_circleSteps hp
    exact ⟨hnear.x_nonneg, hle, abs_sqrt_sub_lt_of_nearCircle hr hle hnear⟩
  · have hcol : ∀ t : Int, |cx - t - cx| = |t| := fun t => by rw [sub_sub_cancel_left, abs_neg]
    have hrow : ∀ t : Int, |cy - t - cy| = |t| := fun t => by rw [sub_sub_cancel_left, abs_neg]
    have hswap : ∀ u v : Int, (∃ p ∈ circleSteps r, (u = p.1 ∧ v = p.2) ∨ (u = p.2 ∧ v = p.1)) ↔
        ∃ p ∈ circleSteps r, (v = p.1 ∧ u = p.2) ∨ (v = p.2 ∧ u = p.1) := fun u v => by
      refine exists_congr fun p => and_congr_right fun _ => ?_
      tauto
    simp only [circleSet_has_iff, add_sub_cancel_left, hcol, hrow, hswap |b| |a|]
    exact fun h => ⟨h, h, h, h, h, h, h⟩

/-- Settles O40: a point is in the disc if it lies between the ends of a span that some offset gives its row. -/
theorem discsHaveNoHoles : Obligations.DiscsHaveNoHoles := by
  intro cx cy r
  refine ⟨fun x y => ?_, fun hr y => ?_, fun x x' y => ?_⟩
  · rw [circleSet_has_iff, fcircleSet_has_iff]
    rintro ⟨p, hp, ⟨hx, hy⟩ | ⟨hx, hy⟩⟩
    · exact ⟨p, hp, .inl ⟨hx.le, hy⟩⟩
    · exact ⟨p, hp, .inr ⟨hx.le, hy⟩⟩
  · have hrows : cy - r ≤ y ∧ y ≤ cy + r ↔ |y - cy| ≤ r := by rw [abs_le]; omega
    simp only [fcircleSet_has_iff, hrows]
    constructor
    · rintro ⟨x, p, hp, hrow⟩
      obtain ⟨-, hle, d, hnear⟩ := mem_circleSteps hp
      have hy := hnear.y_le
      dsimp only at hy
      omega
    · intro hle
      obtain ⟨p, hp, hrow⟩ := exists_offset_of_le (abs_nonneg (y - cy)) hle
      obtain ⟨-, hxy, d, hnear⟩ := mem_circleSteps hp
      have hx := hnear.x_nonneg
      refine ⟨cx, p, hp, ?_⟩
      rw [sub_self, abs_zero]
      dsimp only at hx
      omega
  · rw [fcircleSet_has_iff, fcircleSet_has_iff]
    rintro ⟨p, hp, hrow⟩ hle
    have habs : |x' - cx| ≤ |x - cx| := by rw [Int.abs_eq_natAbs, Int.abs_eq_natAbs]; exact_mod_cast hle
    exact ⟨p, hp, hrow.imp (fun h => ⟨habs.trans h.1, h.2⟩) (fun h => ⟨habs.trans h.1, h.2⟩)⟩

end Sys2Proof.Proofs
end

section
/-! PROOFS. Fonts (43_font_store.md sections 1 and 2, rules R170 to R179; 20_memory.md rule R56): the fields of packed
entries and their assembly from bytes, what the checks of a font give, the lookups, and where the blitter reads. -/

namespace Sys2Proof

/-! ### Fields put together as a number (R56, R63) -/

/-- A field of `v` bits above the `i` bits that `x` takes. -/
theorem toNat_or_shiftLeft {w v : Nat} {x : BitVec w} {i : Nat} (y : BitVec v) (hx : x.toNat < 2 ^ i) (hw : v + i ≤ w) :
    (x ||| y.setWidth w <<< i).toNat = x.toNat + 2 ^ i * y.toNat := by
  have hpow : 2 ^ i * 2 ^ v ≤ 2 ^ w := by
    rw [← pow_add, Nat.add_comm i v]
    exact Nat.pow_le_pow_right (by decide) hw
  have hy : 2 ^ i * y.toNat < 2 ^ w := lt_of_lt_of_le (Nat.mul_lt_mul_of_pos_left y.isLt (Nat.two_pow_pos i)) hpow
  have hyw : y.toNat < 2 ^ w := lt_of_lt_of_le y.isLt (Nat.pow_le_pow_right (by decide) (by omega))
  rw [BitVec.toNat_or, BitVec.toNat_shiftLeft, BitVec.toNat_setWidth, Nat.mod_eq_of_lt hyw, Nat.shiftLeft_eq,
    Nat.mul_comm _ (2 ^ i), Nat.mod_eq_of_lt hy, Nat.or_comm, Nat.mul_comm (2 ^ i), ← Nat.shiftLeft_eq,
    ← Nat.shiftLeft_add_eq_or_of_lt hx, Nat.add_comm]

theorem toNat_twoBytes (b0 b1 : Byte) :
    (b0.setWidth 16 ||| b1.setWidth 16 <<< 8 : BitVec 16).toNat = b0.toNat + 2 ^ 8 * b1.toNat := by
  have h0 := b0.isLt
  have e0 : (b0.setWidth 16 : BitVec 16).toNat = b0.toNat := BitVec.toNat_setWidth_of_le (by decide)
  rw [toNat_or_shiftLeft b1 (by omega) (by decide), e0]

theorem toNat_fourBytes (b0 b1 b2 b3 : Byte) :
    (b0.setWidth 32 ||| b1.setWidth 32 <<< 8 ||| b2.setWidth 32 <<< 16 ||| b3.setWidth 32 <<< 24 : Word).toNat =
      b0.toNat + 2 ^ 8 * b1.toNat + 2 ^ 16 * b2.toNat + 2 ^ 24 * b3.toNat := by
  have h0 := b0.isLt; have h1 := b1.isLt; have h2 := b2.isLt
  have e0 : (b0.setWidth 32 : Word).toNat = b0.toNat := BitVec.toNat_setWidth_of_le (by decide)
  have e1 : (b0.setWidth 32 ||| b1.setWidth 32 <<< 8 : Word).toNat = b0.toNat + 2 ^ 8 * b1.toNat := by
    rw [toNat_or_shiftLeft b1 (by omega) (by decide), e0]
  have e2 : (b0.setWidth 32 ||| b1.setWidth 32 <<< 8 ||| b2.setWidth 32 <<< 16 : Word).toNat =
      b0.toNat + 2 ^ 8 * b1.toNat + 2 ^ 16 * b2.toNat := by
    rw [toNat_or_shiftLeft b2 (by omega) (by decide), e1]
  rw [toNat_or_shiftLeft b3 (by omega) (by decide), e2]

/-! ### Packed entries (R174, R175, R56) -/

theorem entryWidth_eq (e : Word) : entryWidth e = e.toNat % 2 ^ 8 := by
  simp [entryWidth, BitVec.extractLsb'_toNat]

theorem entryBitmapIndex_eq (e : Word) : entryBitmapIndex e = e.toNat / 2 ^ 8 := by
  have he := e.isLt
  rw [entryBitmapIndex, BitVec.extractLsb'_toNat, Nat.shiftRight_eq_div_pow, Nat.mod_eq_of_lt (by omega)]

theorem entryUnicode_eq (e : Word) : entryUnicode e = e.toNat % 2 ^ 21 := by
  simp [entryUnicode, BitVec.extractLsb'_toNat]

theorem entryGlyphIndex_eq (e : Word) : entryGlyphIndex e = e.toNat / 2 ^ 21 := by
  have he := e.isLt
  rw [entryGlyphIndex, BitVec.extractLsb'_toNat, Nat.shiftRight_eq_div_pow, Nat.mod_eq_of_lt (by omega)]

/-- Entry `k` of a byte image is its bytes 4 k to 4 k + 3, the first lowest. -/
theorem entriesOfBytes_getD (b : List Byte) (k : Nat) (hk : 4 * k + 3 < b.length) :
    ((entriesOfBytes b).getD k 0).toNat =
      (b.getD (4 * k) 0).toNat + 2 ^ 8 * (b.getD (4 * k + 1) 0).toNat + 2 ^ 16 * (b.getD (4 * k + 2) 0).toNat +
        2 ^ 24 * (b.getD (4 * k + 3) 0).toNat := by
  induction b using entriesOfBytes.induct generalizing k with
  | case1 b0 b1 b2 b3 rest ih =>
    rw [entriesOfBytes]
    cases k with
    | zero => exact toNat_fourBytes b0 b1 b2 b3
    | succ k => exact ih k (by simp only [List.length_cons] at hk; omega)
  | case2 b hshort =>
    match b, hk, hshort with
    | b0 :: b1 :: b2 :: b3 :: rest, _, hshort => exact (hshort b0 b1 b2 b3 rest rfl).elim
    | [_, _, _], hk, _ | [_, _], hk, _ | [_], hk, _ | [], hk, _ => simp at hk

/-! ### The checks of a font (R172) -/

/-- The checks of R172 that the lookups and the blitter rest on. -/
structure Font.Checked (font : Font) : Prop where
  monospace : font.monospaceWidth ≤ 255
  table : font.glyphTable.length = font.glyphCount
  range : font.unicodeMap = none → font.unicodeFirst ≤ font.unicodeLast ∧
    font.unicodeLast - font.unicodeFirst + 1 ≤ font.glyphCount
  mapIndex : ∀ m, font.unicodeMap = some m → ∀ e ∈ m, entryGlyphIndex e < font.glyphCount
  mapRange : ∀ m, font.unicodeMap = some m → ∀ e ∈ m, font.unicodeFirst ≤ entryUnicode e ∧
    entryUnicode e ≤ font.unicodeLast
  mapNodup : ∀ m, font.unicodeMap = some m → (m.map entryUnicode).Nodup
  blob : font.bitsPerPixel = 1 → ∀ g < font.glyphCount,
    entryBitmapIndex (font.entry g) + font.heightPx * ((font.effWidth g + 7) / 8) ≤ font.bitmap.length

theorem Font.checked_of_wellFormed {font : Font} (h : font.wellFormed = true) : font.Checked := by
  simp only [Font.wellFormed, Bool.and_eq_true, decide_eq_true_eq, beq_iff_eq] at h
  obtain ⟨⟨⟨⟨⟨⟨⟨⟨⟨-, -⟩, -⟩, hmono⟩, -⟩, -⟩, -⟩, htable⟩, hlookup⟩, hblob⟩ := h
  refine ⟨hmono, htable, fun hm => ?_, fun m hm => ?_, fun m hm => ?_, fun m hm => ?_, fun hbpp g hg => ?_⟩
  · simpa [hm] using hlookup
  · rw [hm] at hlookup
    simp only [Bool.and_eq_true, List.all_eq_true, decide_eq_true_eq] at hlookup
    exact hlookup.1.1.2
  · rw [hm] at hlookup
    simp only [Bool.and_eq_true, List.all_eq_true, decide_eq_true_eq] at hlookup
    exact hlookup.1.2
  · rw [hm] at hlookup
    simp only [Bool.and_eq_true, List.all_eq_true, decide_eq_true_eq] at hlookup
    exact hlookup.2
  · simp only [hbpp, bne_self_eq_false, Bool.false_or, List.all_eq_true, List.mem_range, decide_eq_true_eq] at hblob
    exact hblob g hg

/-! ### The lookups (R176, R177) -/

theorem lookup_of_range {font : Font} (h : font.unicodeMap = none) (cp : Nat) : font.lookup cp = font.lookupRange cp := by
  rw [Font.lookup, h]

theorem lookup_of_map {font : Font} {m : List Word} (h : font.unicodeMap = some m) (cp : Nat) :
    font.lookup cp = lookupSparse cp m := by
  rw [Font.lookup, h]

theorem lookupRange_eq_some_iff {font : Font} {cp g : Nat} :
    font.lookupRange cp = some g ↔ (font.unicodeFirst ≤ cp ∧ cp ≤ font.unicodeLast) ∧ cp - font.unicodeFirst = g := by
  rw [Font.lookupRange]
  split_ifs with h <;> simp [h]

theorem lookupSparse_eq_none {cp : Nat} {m : List Word} (h : ∀ e ∈ m, entryUnicode e ≠ cp) : lookupSparse cp m = none := by
  induction m with
  | nil => rfl
  | cons e m ih =>
    obtain ⟨he, hm⟩ := List.forall_mem_cons.mp h
    rw [lookupSparse, if_neg he, ih hm]

theorem lookupSparse_eq_some {cp : Nat} {m : List Word} (hnodup : (m.map entryUnicode).Nodup) {e : Word} (he : e ∈ m)
    (hcp : entryUnicode e = cp) : lookupSparse cp m = some (entryGlyphIndex e) := by
  induction m with
  | nil => cases he
  | cons e' m ih =>
    rw [List.map_cons, List.nodup_cons] at hnodup
    rcases List.mem_cons.mp he with rfl | hm
    · rw [lookupSparse, if_pos hcp]
    · have hne : entryUnicode e' ≠ cp := fun heq => hnodup.1 (heq.trans hcp.symm ▸ List.mem_map_of_mem hm)
      rw [lookupSparse, if_neg hne, ih hnodup.2 hm]

theorem exists_entry_of_lookupSparse {cp g : Nat} {m : List Word} (h : lookupSparse cp m = some g) :
    ∃ e ∈ m, entryUnicode e = cp ∧ entryGlyphIndex e = g := by
  induction m with
  | nil => cases h
  | cons e m ih =>
    rw [lookupSparse] at h
    split_ifs at h with he
    · exact ⟨e, List.mem_cons_self, he, Option.some.inj h⟩
    · obtain ⟨e', hm, hrest⟩ := ih h
      exact ⟨e', List.mem_cons_of_mem _ hm, hrest⟩

/-- The order of a map without two entries for one codepoint does not matter. -/
theorem lookupSparse_perm {cp : Nat} {m m' : List Word} (hnodup : (m.map entryUnicode).Nodup) (hperm : m'.Perm m) :
    lookupSparse cp m' = lookupSparse cp m := by
  by_cases hfound : ∃ e ∈ m, entryUnicode e = cp
  · obtain ⟨e, he, hcp⟩ := hfound
    have hnodup' : (m'.map entryUnicode).Nodup := (hperm.map entryUnicode).nodup_iff.mpr hnodup
    rw [lookupSparse_eq_some hnodup he hcp, lookupSparse_eq_some hnodup' (hperm.mem_iff.mpr he) hcp]
  · have hnone : ∀ e ∈ m, entryUnicode e ≠ cp := fun e he hcp => hfound ⟨e, he, hcp⟩
    rw [lookupSparse_eq_none hnone, lookupSparse_eq_none fun e he => hnone e (hperm.mem_iff.mp he)]

/-- In a well-formed font every codepoint that is found has an entry in the glyph table. -/
theorem lookup_lt_of_checked {font : Font} (h : font.Checked) {cp g : Nat} (hg : font.lookup cp = some g) :
    g < font.glyphCount := by
  cases hm : font.unicodeMap with
  | none =>
    obtain ⟨-, hcount⟩ := h.range hm
    rw [lookup_of_range hm, lookupRange_eq_some_iff] at hg
    omega
  | some m =>
    rw [lookup_of_map hm] at hg
    obtain ⟨e, he, -, rfl⟩ := exists_entry_of_lookupSparse hg
    exact h.mapIndex m hm e he

/-! ### Glyph records (R179) -/

theorem glyph_eq_none_of_lookup {font : Font} {cp : Nat} (h : font.lookup cp = none) : font.glyph cp = none := by
  rw [Font.glyph, h]

/-- A present glyph is the record of the index that its codepoint is found at. -/
theorem glyph_eq_some_iff {font : Font} {cp : Nat} {G : Glyph} :
    font.glyph cp = some G ↔ ∃ g, font.lookup cp = some g ∧ G = {
      widthPx := font.effWidth g, heightPx := font.heightPx, rowStrideBytes := (font.effWidth g + 7) / 8,
      bitmapOffset := entryBitmapIndex (font.entry g) } := by
  rw [Font.glyph]
  cases font.lookup cp with
  | none => simp
  | some g => simp [eq_comm]

theorem effWidth_le {font : Font} (h : font.monospaceWidth ≤ 255) (g : Nat) : font.effWidth g ≤ 255 := by
  rw [Font.effWidth]
  split_ifs
  · exact h
  · rw [entryWidth_eq]; omega

theorem glyph_widthPx_le {font : Font} (h : font.wellFormed = true) {cp : Nat} {G : Glyph} (hG : font.glyph cp = some G) :
    G.widthPx ≤ 255 := by
  obtain ⟨g, -, rfl⟩ := glyph_eq_some_iff.mp hG
  exact effWidth_le (font.checked_of_wellFormed h).monospace g

theorem glyphWidth_of_glyph {font : Font} {cp : Nat} {G : Glyph} (hG : font.glyph cp = some G) :
    font.glyphWidth cp = (G.widthPx : Int) := by
  obtain ⟨g, hg, rfl⟩ := glyph_eq_some_iff.mp hG
  rw [Font.glyphWidth, hg]

/-- The rows of a glyph lie one after another in the blob, and each column's byte in its row. -/
theorem rowByte_lt {h stride w r k : Nat} (hw : w ≤ 8 * stride) (hr : r < h) (hk : k < w) :
    r * stride + k / 8 < h * stride := by
  have hrow : (r + 1) * stride ≤ h * stride := Nat.mul_le_mul_right _ hr
  rw [Nat.succ_mul] at hrow
  omega

end Sys2Proof

namespace Sys2Proof.Proofs

open Sys2Proof Sys2Proof.Machine

/-- Settles O50: every field is a slice of the entry, and an entry's bytes lie next to each other. -/
theorem fontEntriesArePackedAsStated : Obligations.FontEntriesArePackedAsStated :=
  ⟨fun e => ⟨entryWidth_eq e, entryBitmapIndex_eq e, entryUnicode_eq e, entryGlyphIndex_eq e⟩, entriesOfBytes_getD⟩

/-- Settles O41: a range lookup is the range test, and the entries of a checked map have each its own codepoint, which
lies in the range. -/
theorem sparseLookupFindsTheEntry : Obligations.SparseLookupFindsTheEntry := by
  intro font cp
  refine ⟨fun hm => ?_, fun m hwf hm => ?_⟩
  · rw [lookup_of_range hm, Font.lookupRange]
    exact ⟨fun hfirst hlast => if_pos ⟨hfirst, hlast⟩, fun hout => if_neg (by omega)⟩
  · have hchecked := font.checked_of_wellFormed hwf
    rw [lookup_of_map hm]
    refine ⟨fun e he hcp => ⟨lookupSparse_eq_some (hchecked.mapNodup m hm) he hcp, ?_⟩, lookupSparse_eq_none,
      fun m' => lookupSparse_perm (hchecked.mapNodup m hm)⟩
    rw [← hcp]
    exact hchecked.mapRange m hm e he

/-- Settles O42: the record is made of the entry at the index found, and the checks of the font put that index in the
table and every row of the glyph in the blob. -/
theorem glyphReadsStayInTheFont : Obligations.GlyphReadsStayInTheFont := by
  intro font cp
  refine ⟨glyph_eq_none_of_lookup, fun g e hg he => ?_, fun hwf => ⟨fun g hg => ?_, fun hbpp G hG r k hr hk => ?_⟩⟩
  · have hentry : font.entry g = e := by rw [Font.entry, List.getD_eq_getElem?_getD, he, Option.getD_some]
    refine ⟨_, glyph_eq_some_iff.mpr ⟨g, hg, rfl⟩, ?_, rfl, ?_, ?_, ?_⟩
    · rw [Font.effWidth, hentry, entryWidth_eq]
    · dsimp only; omega
    · dsimp only; omega
    · rw [hentry, entryBitmapIndex_eq]
  · have hchecked := font.checked_of_wellFormed hwf
    rw [hchecked.table]
    exact lookup_lt_of_checked hchecked hg
  · have hchecked := font.checked_of_wellFormed hwf
    obtain ⟨g, hg, rfl⟩ := glyph_eq_some_iff.mp hG
    have hblob := hchecked.blob hbpp g (lookup_lt_of_checked hchecked hg)
    dsimp only at hr hk ⊢
    have hrow := rowByte_lt (stride := (font.effWidth g + 7) / 8) (by omega) hr hk
    omega

end Sys2Proof.Proofs
end

section
/-! PROOFS. Glyphs and text (44_glyph_text.md rules R193, R202, R203): the byte-parallel blit bit by bit, the layout of a
single glyph, and how far a caret can go. -/

namespace Sys2Proof.Machine

/-! ### The byte-parallel blit (R193) -/

/-- Bit `t` of glyph byte `b` of row `r` without the padding columns: column 8 b + 7 - t of the glyph, if it has one. -/
theorem maskedGlyphByte_iff {font : Font} {G : Glyph} {r b : Nat} {t : Nat} :
    (glyphByte font (G.bitmapOffset + r * G.rowStrideBytes + b) &&&
        ((0xFF : Byte) <<< (8 - min 8 (G.widthPx - 8 * b)))).getLsbD t = true ↔
      t < 8 ∧ 8 * b + (7 - t) < G.widthPx ∧ glyphBit font G r (8 * b + (7 - t)) = true := by
  by_cases ht : t < 8
  · have hbyte : (8 * b + (7 - t)) / 8 = b := by omega
    have hbit : 7 - (8 * b + (7 - t)) % 8 = t := by omega
    rw [BitVec.getLsbD_and, getLsbD_ones_shiftLeft _ ht, glyphBit, hbyte, hbit, Bool.and_eq_true, decide_eq_true_eq]
    constructor
    · rintro ⟨hset, hle⟩; exact ⟨ht, by omega, hset⟩
    · rintro ⟨-, hlt, hset⟩; exact ⟨hset, by omega⟩
  · rw [BitVec.getLsbD_of_ge _ _ (not_lt.mp ht)]
    simp [ht]

/-- The bits of the two window bytes are the columns of the glyph byte, moved to the glyph's place on the row: bit `j` of
destination byte `d` is column 8 d + 7 - j of the surface. -/
theorem glyphWindow_iff {font : Font} {G : Glyph} {x : Int} {r b : Nat} {d : Int} {j : Nat} (hj : j < 8) :
    (∃ q ∈ glyphWindow font G x r b, q.1 = d ∧ q.2.getLsbD j = true) ↔
      ∃ k : Nat, k / 8 = b ∧ k < G.widthPx ∧ glyphBit font G r k = true ∧ 8 * d + 7 - (j : Int) = x + (k : Int) := by
  simp only [glyphWindow, List.exists_mem_cons_iff, List.not_mem_nil, false_and, exists_false, or_false]
  generalize hgb : glyphByte font (G.bitmapOffset + r * G.rowStrideBytes + b) &&&
    ((0xFF : Byte) <<< (8 - min 8 (G.widthPx - 8 * b))) = gb
  have hcolumn : ∀ t, gb.getLsbD t = true ↔
      t < 8 ∧ 8 * b + (7 - t) < G.widthPx ∧ glyphBit font G r (8 * b + (7 - t)) = true := by
    rw [← hgb]; exact fun t => maskedGlyphByte_iff
  have hhigh : ((gb.setWidth 16 <<< (8 - (x % 8).toNat)).extractLsb' 8 8).getLsbD j = true ↔
      gb.getLsbD (j + (x % 8).toNat) = true := by
    have hle : ¬ 8 + j < 8 - (x % 8).toNat := by omega
    have hidx : 8 + j - (8 - (x % 8).toNat) = j + (x % 8).toNat := by omega
    simp [hj, hle, hidx, show 8 + j < 16 by omega, show j + (x % 8).toNat < 16 by omega, -BitVec.getLsbD_eq_getElem]
  have hlow : ((gb.setWidth 16 <<< (8 - (x % 8).toNat)).extractLsb' 0 8).getLsbD j = true ↔
      8 ≤ j + (x % 8).toNat ∧ gb.getLsbD (j + (x % 8).toNat - 8) = true := by
    have hidx : j - (8 - (x % 8).toNat) = j + (x % 8).toNat - 8 := by omega
    simp [hj, hidx, show j < 16 by omega, show j + (x % 8).toNat - 8 < 16 by omega, -BitVec.getLsbD_eq_getElem]
  rw [hhigh, hlow, hcolumn, hcolumn]
  constructor
  · rintro (⟨rfl, ht, hw, hset⟩ | ⟨rfl, hge, ht, hw, hset⟩)
    · exact ⟨_, by omega, hw, hset, by omega⟩
    · exact ⟨_, by omega, hw, hset, by omega⟩
  · rintro ⟨k, hk, hw, hset, hcol⟩
    by_cases hfirst : d = x / 8 + b
    · have hidx : 8 * b + (7 - (j + (x % 8).toNat)) = k := by omega
      exact .inl ⟨hfirst.symm, by omega, by omega, by rw [hidx]; exact hset⟩
    · have hidx : 8 * b + (7 - (j + (x % 8).toNat - 8)) = k := by omega
      exact .inr ⟨by omega, by omega, by omega, by omega, by rw [hidx]; exact hset⟩

/-- The bits that are written of a window byte are those on the surface's row. -/
theorem windowMask_iff {cfg : Config} {row : Nat} {q : Int × Byte} {i j : Nat} (hj : j < 8) :
    (∃ p ∈ windowMask cfg row q, p.1 = i ∧ p.2.getLsbD j = true) ↔
      0 ≤ q.1 ∧ 8 * q.1 + 7 - (j : Int) < (cfg.width : Int) ∧ row * cfg.stride + q.1.toNat = i ∧
        q.2.getLsbD j = true := by
  unfold windowMask
  split_ifs with hout
  · have hright : (cfg.stride : Int) ≤ q.1 → ¬ 8 * q.1 + 7 - (j : Int) < (cfg.width : Int) := by
      unfold Config.stride; omega
    simp only [List.not_mem_nil, false_and, exists_false, false_iff]
    rintro ⟨h0, hlt, -⟩
    exact hout.elim (fun h => by omega) (fun h => hright h hlt)
  · have hin : 0 ≤ q.1 := by omega
    simp only [List.mem_singleton, exists_eq_left]
    split_ifs with hpad
    · rw [BitVec.getLsbD_and, getLsbD_ones_shiftLeft _ hj, Bool.and_eq_true, decide_eq_true_eq]
      constructor
      · rintro ⟨hi, hset, hle⟩; exact ⟨hin, by omega, hi, hset⟩
      · rintro ⟨-, hlt, hi, hset⟩; exact ⟨hi, hset, by omega⟩
    · constructor
      · rintro ⟨hi, hset⟩; exact ⟨hin, by omega, hi, hset⟩
      · rintro ⟨-, -, hi, hset⟩; exact ⟨hi, hset⟩

/-- The bit of an on-surface point, as its column and its byte of the row. -/
theorem pixel_position_iff {cfg : Config} {x y : Int} (hx : 0 ≤ x) {i j : Nat} (hj : j < 8) :
    (cfg.pixelByte x y = i ∧ pixelBit x = j) ↔
      ∃ d : Int, 0 ≤ d ∧ 8 * d + 7 - (j : Int) = x ∧ y.toNat * cfg.stride + d.toNat = i := by
  unfold Config.pixelByte pixelBit
  constructor
  · rintro ⟨hbyte, hbit⟩
    exact ⟨x / 8, by omega, by omega, by rw [← hbyte]; congr 1; omega⟩
  · rintro ⟨d, hd, hcol, hbyte⟩
    have hdx : x.toNat / 8 = d.toNat := by omega
    exact ⟨by rw [hdx, hbyte], by omega⟩

/-- The masks of R193. -/
def glyphMasks (font : Font) (G : Glyph) (x y : Int) (cfg : Config) : List (Nat × Byte) :=
  (List.range G.heightPx).flatMap (fun (r : Nat) =>
    if y + (r : Int) < 0 ∨ (cfg.height : Int) ≤ y + (r : Int) then []
    else (List.range G.rowStrideBytes).flatMap (fun (i : Nat) =>
      (glyphWindow font G x r i).flatMap (windowMask cfg (y + (r : Int)).toNat)))

theorem glyphBlitBytes_eq (font : Font) (G : Glyph) (x y : Int) (c : Colour) (s : State) :
    glyphBlitBytes font G x y c s = writeMasks c (glyphMasks font G x y s.cfg) s := rfl

/-- The masks of R193 are the bits of the glyph's on-surface points. -/
theorem painted_glyph_iff {font : Font} {G : Glyph} (hG : G.rowStrideBytes = (G.widthPx + 7) / 8) {x y : Int}
    {cfg : Config} {i j : Nat} (hj : j < 8) :
    Painted cfg (fun px py => (glyphSet font G x y).has px py = true) i j ↔
      ∃ p ∈ glyphMasks font G x y cfg, p.1 = i ∧ p.2.getLsbD j = true := by
  simp only [Painted, glyphSet_has_iff, onSurface_iff]
  constructor
  · rintro ⟨_, _, ⟨hx0, hx, hy0, hy⟩, ⟨r, k, hr, hk, hset, rfl, rfl⟩, hposition⟩
    obtain ⟨d, hd, hcol, hbyte⟩ := (pixel_position_iff hx0 hj).mp hposition
    obtain ⟨q, hq, rfl, hbit⟩ := (glyphWindow_iff hj).mpr ⟨k, rfl, hk, hset, hcol⟩
    obtain ⟨p, hp, hpi⟩ := (windowMask_iff hj).mpr ⟨hd, hcol ▸ hx, hbyte, hbit⟩
    refine ⟨p, List.mem_flatMap.mpr ⟨r, List.mem_range.mpr hr, ?_⟩, hpi⟩
    rw [if_neg (by omega)]
    exact List.mem_flatMap.mpr ⟨k / 8, List.mem_range.mpr (by omega), List.mem_flatMap.mpr ⟨q, hq, hp⟩⟩
  · rintro ⟨p, hp, hpi⟩
    obtain ⟨r, hr, hp⟩ := List.mem_flatMap.mp hp
    split_ifs at hp with hrow
    · cases hp
    obtain ⟨b, -, hp⟩ := List.mem_flatMap.mp hp
    obtain ⟨q, hq, hp⟩ := List.mem_flatMap.mp hp
    obtain ⟨hd, hx, hbyte, hbit⟩ := (windowMask_iff hj).mp ⟨p, hp, hpi⟩
    obtain ⟨k, -, hk, hset, hcol⟩ := (glyphWindow_iff hj).mp ⟨q, hq, rfl, hbit⟩
    have hx0 : 0 ≤ x + (k : Int) := by omega
    exact ⟨_, _, ⟨hx0, hcol ▸ hx, by omega, by omega⟩, ⟨r, k, List.mem_range.mp hr, hk, hset, rfl, rfl⟩,
      (pixel_position_iff hx0 hj).mpr ⟨q.1, hd, hcol, hbyte⟩⟩

/-! ### The layout of one glyph (R197, R202) -/

theorem textPlaces_one_of_missing {font : Font} {cp : Codepoint} (h : font.glyph cp.toNat = none) (W xo x : Int) :
    textPlaces font W xo [cp] x = ([], x) := by
  simp only [textPlaces, h, ite_self]

theorem textPlaces_one_of_present {font : Font} {cp : Codepoint} {G : Glyph} (h : font.glyph cp.toNat = some G)
    {W x : Int} (hx : x < W) (xo : Int) :
    textPlaces font W xo [cp] x = ([(G, x)], x + (G.widthPx : Int) + xo) := by
  simp only [textPlaces, h, if_neg (not_le.mpr hx)]

theorem placedSet_one (font : Font) (top : Int) (G : Glyph) (x : Int) :
    placedSet font top [(G, x)] = glyphSet font G x top := List.flatMap_singleton ..

/-- A text of one missing glyph draws nothing and leaves the caret. -/
theorem exec_text_of_missing {f : FontSlot} {font : Font} {s : State} (hfont : HasFont s f font)
    (hbpp : font.bitsPerPixel = 1) {cp : Codepoint} (h : font.glyph cp.toNat = none) (x y : Half) (c : Colour)
    (xo yo : Half) : exec (.text [cp] x y c f xo yo) s = .next ((s.setResult x.toInt).advance 4) := by
  rw [exec_text_of_hasFont [cp] x y c xo yo hfont hbpp, textPlaces_one_of_missing h]
  rfl

/-- A text of one present glyph, reached before the right edge, draws that glyph at the caret. -/
theorem exec_text_of_present {f : FontSlot} {font : Font} {s : State} (hfont : HasFont s f font)
    (hbpp : font.bitsPerPixel = 1) {cp : Codepoint} {G : Glyph} (h : font.glyph cp.toNat = some G) {x : Half}
    (hx : x.toInt < (s.cfg.width : Int)) (y : Half) (c : Colour) (xo yo : Half) :
    exec (.text [cp] x y c f xo yo) s =
      .next (((paint (glyphSet font G x.toInt (y.toInt + yo.toInt)) c s).setResult
        (x.toInt + (G.widthPx : Int) + xo.toInt)).advance 4) := by
  rw [exec_text_of_hasFont [cp] x y c xo yo hfont hbpp, textPlaces_one_of_present h hx, placedSet_one]
  rfl

/-! ### How far a caret can go (R203) -/

/-- A number of 32 signed bits is read back from RESULT. -/
theorem toInt_ofInt_of_bounds {v : Int} (hlo : -2 ^ 31 ≤ v) (hhi : v < 2 ^ 31) : (BitVec.ofInt 32 v).toInt = v := by
  rw [BitVec.toInt_ofInt, Int.bmod_eq_of_le] <;> omega

/-- Each glyph moves the caret by its width and the x offset, and only while the caret is left of the edge. -/
theorem textPlaces_caret_bounds {font : Font} (hwf : font.wellFormed = true) {W : Int} (hW : W ≤ 32767) (xo : Half)
    (cps : List Codepoint) (x : Int) (hx : x ≤ 65789) :
    x - 32768 * cps.length ≤ (textPlaces font W xo.toInt cps x).2 ∧ (textPlaces font W xo.toInt cps x).2 ≤ 65789 := by
  have hxo := xo.le_toInt
  have hxo' := xo.toInt_lt
  induction cps generalizing x with
  | nil => simpa [textPlaces] using hx
  | cons cp rest ih =>
    rw [textPlaces, List.length_cons]
    split_ifs with hstop
    · dsimp only; omega
    · split
      · have := ih x hx; omega
      · rename_i G hG
        have hw := glyph_widthPx_le hwf hG
        have := ih (x + (G.widthPx : Int) + xo.toInt) (by omega)
        dsimp only; omega

theorem wellFormed_of_hasFont {s : State} {f : FontSlot} {font : Font} (hlegal : s.cfg.legal = true)
    (hfont : HasFont s f font) : font.wellFormed = true :=
  legal_of_font_mem hlegal (List.mem_of_getElem? hfont)

end Sys2Proof.Machine

namespace Sys2Proof.Proofs

open Sys2Proof Sys2Proof.Machine

/-- Settles O47: the masks of the blit are the bits of the glyph's on-surface points. -/
theorem glyphByteFormIsEquivalent : Obligations.GlyphByteFormIsEquivalent := by
  intro font cp G x y c s hglyph
  obtain ⟨g, -, rfl⟩ := glyph_eq_some_iff.mp hglyph
  rw [glyphBlitBytes_eq]
  exact writeMasks_refines_paint (fun i j hj => painted_glyph_iff rfl hj) c

/-- Settles O48: the layout of one glyph is that glyph at the caret, or nothing if it is missing. -/
theorem textLawsHold : Obligations.TextLawsHold := by
  intro f font s hfont hbpp
  refine ⟨fun c G t hW hG hexec => ?_, fun cp x y c xo yo t hmissing hexec => ?_,
    fun cp x y y2 c xo yo t u hx htop htext hglyph => ?_⟩
  · have hx : (0 : Half).toInt < (s.cfg.width : Int) := by simpa using hW
    obtain rfl := Host.Outcome.next.inj ((exec_text_of_present (cp := 0x41) hfont hbpp hG hx 0 c 0 0).symm.trans hexec)
    rw [glyphWidth_of_glyph hG]
    simp
  · obtain rfl := Host.Outcome.next.inj ((exec_text_of_missing hfont hbpp hmissing x y c xo yo).symm.trans hexec)
    exact ⟨fun _ => rfl, rfl⟩
  · obtain rfl := Host.Outcome.next.inj ((exec_glyph_of_hasFont cp x y2 c hfont hbpp).symm.trans hglyph)
    cases hG : font.glyph cp.toNat with
    | none =>
      obtain rfl := Host.Outcome.next.inj ((exec_text_of_missing hfont hbpp hG x y c xo yo).symm.trans htext)
      rw [drawGlyph_of_missing hG]
      exact fun _ => rfl
    | some G =>
      obtain rfl := Host.Outcome.next.inj ((exec_text_of_present hfont hbpp hG hx y c xo yo).symm.trans htext)
      rw [drawGlyph_of_present hG, htop]
      exact fun _ => rfl

/-- Settles O49: widths are at most 255 and a text stops at the right edge, so that no caret leaves the range of RESULT. -/
theorem caretsNeverWrap : Obligations.CaretsNeverWrap := by
  intro f font s hlegal hfont hbpp
  have hwf := wellFormed_of_hasFont hlegal hfont
  refine ⟨fun cp x y c t hexec => ?_, fun cps x y c xo yo t hlen hexec => ?_⟩
  · obtain rfl := Host.Outcome.next.inj ((exec_glyph_of_hasFont cp x y c hfont hbpp).symm.trans hexec)
    have hx := x.le_toInt
    have hx' := x.toInt_lt
    cases hG : font.glyph cp.toNat with
    | none =>
      rw [drawGlyph_of_missing hG, advance_result, setResult_result, toInt_ofInt_of_bounds (by omega) (by omega)]
      dsimp only
      omega
    | some G =>
      have hw := glyph_widthPx_le hwf hG
      rw [drawGlyph_of_present hG, advance_result, setResult_result, toInt_ofInt_of_bounds (by omega) (by omega)]
      dsimp only
      omega
  · obtain ⟨hW, -⟩ := sizes_of_legal hlegal
    have hx := x.le_toInt
    have hx' := x.toInt_lt
    obtain ⟨hlo, hhi⟩ := textPlaces_caret_bounds hwf (W := s.cfg.width) (by omega) xo cps x.toInt (by omega)
    obtain rfl := Host.Outcome.next.inj ((exec_text_of_hasFont cps x y c xo yo hfont hbpp).symm.trans hexec)
    rw [advance_result, setResult_result, toInt_ofInt_of_bounds (by omega) (by omega)]
    omega

end Sys2Proof.Proofs
end

section
/-! PROOFS. What the host reads and writes (10_state.md section 2, 20_memory.md section 5, 60_exceptions.md section 4):
the writable fields, the registers and the framebuffer as they read idle and during a run, and the interrupt output. -/

namespace Sys2Proof.Machine

/-! ### Writes (R26, R29, R30, R32) -/

theorem hostWrite_status (d : Word) (s : State) : hostWrite 0x0C .word d s = (.written, writeStatus d s) :=
  hostWrite_register d s (by decide) (by decide)

theorem hostWrite_cp (d : Word) (s : State) : hostWrite 0x10 .word d s = (.written, writeCp d s) :=
  hostWrite_register d s (by decide) (by decide)

/-- A flag that a set bit clears. -/
theorem flag_and_not (flag bit : Bool) : (flag && !bit) = if bit then false else flag := by cases bit <;> simp

theorem writeStatus_eq (d : Word) (s : State) :
    writeStatus d s =
      { s with done := if d.getLsbD 1 then false else s.done, err := if d.getLsbD 2 then false else s.err } := by
  rw [writeStatus, flag_and_not, flag_and_not]

theorem lowHalf_eq_ofNat (d : Word) : d.extractLsb' 0 16 = BitVec.ofNat 16 (d.toNat % 65536) := by
  apply BitVec.eq_of_toNat_eq
  simp [BitVec.extractLsb'_toNat]

/-! ### The STATUS word (R27) -/

theorem toNat_or_flag {x : Word} {i : Nat} (b : Bool) (hx : x.toNat < 2 ^ i) (hi : 1 + i ≤ 32) :
    (x ||| (BitVec.ofBool b).setWidth 32 <<< i).toNat = x.toNat + 2 ^ i * b.toNat := by
  rw [toNat_or_shiftLeft _ hx hi, BitVec.toNat_ofBool]

theorem statusWord_eq (s : State) :
    s.statusWord =
      BitVec.ofNat 32 (s.busy.toNat + 2 * s.done.toNat + 4 * s.err.toNat + 256 * s.errCode.code.toNat) := by
  have hb := s.busy.toNat_lt; have hd := s.done.toNat_lt; have he := s.err.toNat_lt
  have hc := s.errCode.code.isLt
  have e0 : ((BitVec.ofBool s.busy).setWidth 32 : Word).toNat = s.busy.toNat := by
    rw [BitVec.toNat_setWidth_of_le (by decide), BitVec.toNat_ofBool]
  have e1 := toNat_or_flag (x := (BitVec.ofBool s.busy).setWidth 32) (i := 1) s.done (by omega) (by decide)
  have e2 := toNat_or_flag (i := 2) s.err (e1.trans_lt (by omega)) (by decide)
  have e3 := toNat_or_shiftLeft (i := 8) s.errCode.code (e2.trans_lt (by omega)) (by decide)
  apply BitVec.eq_of_toNat_eq
  rw [State.statusWord, e3, e2, e1, e0, BitVec.toNat_ofNat, Nat.mod_eq_of_lt (by omega)]
  omega

theorem statusWord_of_run {s : State} (hinv : Inv s) (hbusy : s.busy = true) : s.statusWord = 1 := by
  obtain ⟨hdone, herr, hcode⟩ := hinv.busyClear hbusy
  rw [statusWord_eq, hbusy, hdone, herr, hcode]
  rfl

theorem ctrlWord_eq (s : State) : s.ctrlWord = if s.ie then 2 else 0 := by
  rw [State.ctrlWord]
  cases s.ie <;> rfl

theorem setWidth_cp (s : State) : (s.cp.setWidth 32 : Word) = BitVec.ofNat 32 s.cp.toNat :=
  BitVec.ofNat_toNat 32 s.cp |>.symm

/-! ### Reads change at most the count of draws (R37, R67, R68) -/

/-- `t` is `s` with some draws taken, none while idle. -/
def TakesDraws (s t : State) : Prop := ∃ n, t = { s with draws := s.draws + n } ∧ (s.busy = false → n = 0)

theorem TakesDraws.refl (s : State) : TakesDraws s s := ⟨0, rfl, fun _ => rfl⟩

theorem takesDraws_of_busy {s : State} (h : s.busy = true) (n : Nat) : TakesDraws s { s with draws := s.draws + n } :=
  ⟨n, rfl, fun hidle => absurd h (by simp [hidle])⟩

theorem readReg_takesDraws (r : Reg) (s : State) : TakesDraws s (readReg r s).2 := by
  cases r
  case cp | result =>
    simp only [readReg]
    split_ifs with hbusy
    · exact takesDraws_of_busy hbusy 1
    · exact TakesDraws.refl s
  all_goals exact TakesDraws.refl s

theorem readFb_takesDraws (w : AccessWidth) (b : Nat) (s : State) : TakesDraws s (readFb w b s).2 := by
  rw [readFb_state]
  split_ifs with hbusy
  · exact takesDraws_of_busy hbusy _
  · exact TakesDraws.refl s

theorem hostRead_takesDraws (a : BitVec 18) (w : AccessWidth) (s : State) : TakesDraws s (hostRead a w s).2 := by
  by_cases hal : a.toNat % w.bytes ≠ 0
  · rw [hostRead, if_pos hal]
    exact TakesDraws.refl s
  rw [hostRead, if_neg hal]
  cases regionOf a with
  | register o =>
    dsimp only
    split_ifs
    · exact readReg_takesDraws _ s
    · exact TakesDraws.refl s
  | cram o => dsimp only; split_ifs <;> exact TakesDraws.refl s
  | fb b =>
    dsimp only
    split_ifs
    · exact readFb_takesDraws w b s
    · exact TakesDraws.refl s

/-! ### Reads of the framebuffer (R63, R66, R67) -/

theorem hostRead_fb {b : Nat} {a : BitVec 18} {w : AccessWidth} {s : State} (ha : a.toNat = 0x20000 + b)
    (hal : b % w.bytes = 0) (hfits : b + w.bytes ≤ s.cfg.fbSize) : hostRead a w s = readFb w b s := by
  have halign : a.toNat % w.bytes = 0 := by
    rw [ha]; cases w <;> simp only [AccessWidth.bytes] at hal ⊢ <;> omega
  have hregion : regionOf a = .fb b := by rw [regionOf_fb (by omega), ha, Nat.add_sub_cancel_left]
  simp [hostRead, halign, hregion, hfits]

theorem readFbLane_of_idle {s : State} (h : s.busy = false) (b : Nat) : readFbLane b s = (s.fbByte b, s) := by
  simp [readFbLane, h]

theorem readFbLane_of_busy {s : State} (h : s.busy = true) (b : Nat) :
    readFbLane b s = (Config.freeBusByte s.draws, { s with draws := s.draws + 1 }) := by
  simp [readFbLane, h]

theorem half_eq_ofNat (b0 b1 : Byte) :
    (b0.setWidth 16 ||| b1.setWidth 16 <<< 8 : BitVec 16) = BitVec.ofNat 16 (b0.toNat + 2 ^ 8 * b1.toNat) := by
  rw [← toNat_twoBytes, BitVec.ofNat_toNat, BitVec.setWidth_eq]

theorem word_eq_ofNat (b0 b1 b2 b3 : Byte) :
    (b0.setWidth 32 ||| b1.setWidth 32 <<< 8 ||| b2.setWidth 32 <<< 16 ||| b3.setWidth 32 <<< 24 : Word) =
      BitVec.ofNat 32 (b0.toNat + 2 ^ 8 * b1.toNat + 2 ^ 16 * b2.toNat + 2 ^ 24 * b3.toNat) := by
  rw [← toNat_fourBytes, BitVec.ofNat_toNat, BitVec.setWidth_eq]

/-! ### The interrupt output (R38) -/

theorem irq_eq_true_iff (s : State) : s.irq = true ↔ s.ie = true ∧ (s.done = true ∨ s.err = true) := by
  rw [State.irq, Bool.and_eq_true, Bool.or_eq_true]

theorem irq_of_flags_clear {s : State} (hdone : s.done = false) (herr : s.err = false) : s.irq = false := by
  simp [State.irq, hdone, herr]

theorem irq_of_ie_clear {s : State} (h : s.ie = false) : s.irq = false := by simp [State.irq, h]

end Sys2Proof.Machine

namespace Sys2Proof.Proofs

open Sys2Proof Sys2Proof.Machine

/-- Settles O52: each register's write, field by field. -/
theorem registerWritesDoWhatTheirFieldsSay : Obligations.RegisterWritesDoWhatTheirFieldsSay := by
  intro s d
  refine ⟨fun hstart => ?_, ?_, fun hidle => ?_, fun hbusy => ?_⟩
  · rw [hostWrite_ctrl, writeCtrl_of_not_start s hstart]
  · rw [hostWrite_status, writeStatus_eq]
  · rw [hostWrite_cp, writeCp, hidle, lowHalf_eq_ofNat]
    rfl
  · rw [hostWrite_cp, writeCp, if_pos hbusy]

/-- Settles O54: the STATUS word is the sum of its fields, and only CP and RESULT take a draw, during a run. -/
theorem registerReadsGiveTheFields : Obligations.RegisterReadsGiveTheFields := by
  intro s
  refine ⟨⟨hostRead_of_readReg rfl, hostRead_of_readReg rfl, hostRead_of_readReg ?_, hostRead_of_readReg rfl⟩,
    fun hidle => ⟨hostRead_of_readReg ?_, hostRead_of_readReg ?_, hostRead_of_readReg ?_⟩,
    fun hinv hbusy => ⟨hostRead_of_readReg ?_, hostRead_of_readReg ?_, hostRead_of_readReg ?_⟩⟩
  · exact congrArg (·, s) (ctrlWord_eq s)
  · refine congrArg (·, s) ((statusWord_eq s).trans ?_)
    rw [hidle, Bool.toNat_false, Nat.zero_add]
  · exact (if_neg (by simp [hidle])).trans (congrArg (·, s) (setWidth_cp s))
  · exact if_neg (by simp [hidle])
  · exact congrArg (·, s) (statusWord_of_run hinv hbusy)
  · exact if_pos hbusy
  · exact if_pos hbusy

/-- Settles O57: an aligned read of bytes that exist is read lane by lane, and the lanes are the bytes of the number. -/
theorem framebufferReadsAreLittleEndian : Obligations.FramebufferReadsAreLittleEndian := by
  intro b a s ha
  refine ⟨fun hidle => ⟨fun hfits => ?_, fun hal hfits => ?_, fun hal hfits => ?_⟩, fun hbusy => ?_⟩
  · rw [hostRead_fb (w := .byte) ha (Nat.mod_one b) hfits]
    simp only [readFb, readFbLane_of_idle hidle]
  · rw [hostRead_fb (w := .half) ha hal hfits]
    simp only [readFb, readFbLane_of_idle hidle, half_eq_ofNat]
  · rw [hostRead_fb (w := .word) ha hal hfits]
    simp only [readFb, readFbLane_of_idle hidle, word_eq_ofNat]
  intro lane
  refine ⟨fun hfits => ?_, fun hal hfits => ?_, fun hal hfits => ?_⟩
  · rw [hostRead_fb (w := .byte) ha (Nat.mod_one b) hfits]
    simp [readFb, readFbLane_of_busy, hbusy, lane]
  · rw [hostRead_fb (w := .half) ha hal hfits]
    simp only [readFb, readFbLane_of_busy, hbusy, half_eq_ofNat]
    rfl
  · rw [hostRead_fb (w := .word) ha hal hfits]
    simp only [readFb, readFbLane_of_busy, hbusy, word_eq_ofNat]
    rfl

/-- Settles O58: irq is low without IE and without a flag, and each of the writes clears IE or the flags that were set. -/
theorem irqFollowsTheFlags : Obligations.IrqFollowsTheFlags := by
  intro s
  simp only [hostWrite_status, hostWrite_ctrl]
  refine ⟨irq_eq_true_iff s, ?_, fun herr => ?_, fun hdone => ?_, fun cfg => ?_, fun hidle => ?_, ?_⟩
  · exact irq_of_flags_clear (by simp) (by simp)
  · exact irq_of_flags_clear (by simp) (by simp [herr])
  · exact irq_of_flags_clear (by simp [hdone]) (by simp)
  · exact irq_of_flags_clear rfl rfl
  · rw [writeCtrl_start_idle (by decide) hidle]
    exact irq_of_flags_clear rfl rfl
  · rw [writeCtrl_of_not_start s (by decide)]
    exact ⟨irq_of_ie_clear rfl, rfl, rfl⟩

/-- Settles O59: a read takes some draws, none while idle, and changes nothing else. -/
theorem hostReadsHaveNoSideEffect : Obligations.HostReadsHaveNoSideEffect := by
  intro a w s
  obtain ⟨n, hstate, hidle⟩ := hostRead_takesDraws a w s
  rw [hstate]
  refine ⟨fun h => ?_, rfl⟩
  rw [hidle h]
  rfl

end Sys2Proof.Proofs
end
